-- ==== Sys2Proof/Word.lean ====
section
/-! DEFINITION. The word types of the block and the constants of `00_scope.md` rule R7. -/

namespace Sys2Proof

/-- A register or command word: `CW = 32` bits (`00_scope.md` R7). -/
abbrev Word := BitVec 32

/-- A stream byte (`00_scope.md` R8). -/
abbrev Byte := BitVec 8

/-- A symbol or symbol accumulator. The spec's width is `SYM_BITS`, 9 to 15 (`00_scope.md` R4); the model holds
the widest legal one, and the bits at `SYM_BITS` and above stay 0 (assumption log 14). -/
abbrev Sym := BitVec 15

/-- `EOS_SYM`, the end-of-stream symbol (`00_scope.md` R7). -/
def eosSym : Sym := 256

/-- `NAS`, the not-a-symbol marker of internal nodes (`00_scope.md` R7). -/
def nas : Sym := 257

end Sys2Proof
end

