-- ==== Sys2Proof/Config.lean ====
section
/-! DEFINITION. The implementation parameters (`00_scope.md` section 4): the three an instance shows in its CONFIG
register, as plain data, and the open base address. -/

namespace Sys2Proof

/-- The order in which the bits of one stream byte are read and written (`00_scope.md` R3). -/
inductive BitOrder where
  | msbFirst
  | lsbFirst
  deriving DecidableEq, Repr

/-- The parameters of one instance (`00_scope.md` R3, R4, R5), fixed at instantiation (`70_reset_and_hazards.md` R118). -/
structure Config where
  /-- `BIT_ORDER` -/
  bitOrder : BitOrder
  /-- `SYM_BITS`, 9 to 15 -/
  symBits : Nat
  /-- `NODE_CAP`, 1 to 65535 -/
  nodeCap : Nat
  deriving DecidableEq, Repr

/-- The default instance (`00_scope.md` R3, R4, R5). -/
def Config.default : Config := { bitOrder := .msbFirst, symBits := 9, nodeCap := 513 }

/-- The parameter values the spec calls legal (`00_scope.md` R4, R5). -/
abbrev Config.Legal (c : Config) : Prop :=
  9 ≤ c.symBits ∧ c.symBits ≤ 15 ∧ 1 ≤ c.nodeCap ∧ c.nodeCap ≤ 65535

/-- Which multiple of 32 the platform chose for the window: OPEN (`00_scope.md` R6), so it has no body and no proof
can see its value (assumption log 2). -/
opaque Config.baseBlock : Nat

/-- `BASE`, the host address of the 32-byte register window (`00_scope.md` R6). -/
def Config.base : Nat := 32 * Config.baseBlock

end Sys2Proof
end

