-- ==== Sys2Proof/Syntax.lean ====
section
/-! DEFINITION. The instructions: one constructor per row of `spec/opcode_table.json`, that is the ten command words
(`30_encoding.md` R56) and the five stream tokens (`30_encoding.md` R62, R66, R67). -/

namespace Sys2Proof

/-- The three decode states that read one stream bit, and so give that bit its meaning (`10_state.md` R12). -/
inductive BitPhase where
  | hdrBit
  | hdrSym
  | walk
  deriving DecidableEq, Repr

/-- The part of an HDR.LEAF token one step runs: the block reads one stream bit a step, so a LEAF token of
`1 + SYM_BITS` bits runs as its marker and then its field bits (`30_encoding.md` R62; `41_tree_deserializer.md` R79,
R80; assumption log 11). -/
inductive LeafPart where
  /-- the leaf marker `1`, read in HDR_BIT -/
  | marker
  /-- one bit of the symbol field, read in HDR_SYM -/
  | field (b : Bool)
  deriving DecidableEq, Repr

/-- One instruction of the block. -/
inductive Instr where
  /-- NOP (`43_control.md` R96) -/
  | nop
  /-- DEC_START (`43_control.md` R97) -/
  | decStart
  /-- DEC_ABORT (`43_control.md` R98) -/
  | decAbort
  /-- RD_BIT (`40_bitstream_io.md` R71) -/
  | rdBit
  /-- RD_BYTE (`40_bitstream_io.md` R72) -/
  | rdByte
  /-- WR_BIT with its immediate OPD, whose bit 0 is the bit to write (`40_bitstream_io.md` R73) -/
  | wrBit (opd : Byte)
  /-- WR_BYTE with its immediate OPD, the byte to write (`40_bitstream_io.md` R74) -/
  | wrByte (opd : Byte)
  /-- WR_FLUSH (`40_bitstream_io.md` R75) -/
  | wrFlush
  /-- CLR_ERR (`43_control.md` R99) -/
  | clrErr
  /-- SOFT_RESET (`43_control.md` R100) -/
  | softReset
  /-- HDR.NODE, a header bit 0 (`41_tree_deserializer.md` R79) -/
  | hdrNode
  /-- HDR.LEAF, one part of it (`41_tree_deserializer.md` R79, R80, R81) -/
  | hdrLeaf (part : LeafPart)
  /-- SEP with the separator byte (`42_tree_walker.md` R85) -/
  | sep (v : Byte)
  /-- PAY.LEFT, a payload bit 0 (`42_tree_walker.md` R86) -/
  | payLeft
  /-- PAY.RIGHT, a payload bit 1 (`42_tree_walker.md` R86) -/
  | payRight
  deriving DecidableEq, Repr

end Sys2Proof
end

