-- ==== Sys2Proof/WellFormed.lean ====
section
/-! DEFINITION. Which instructions are well-formed: the operand constraints of `30_encoding.md` R56. The only operand
with a constraint is WR_BIT's OPD, whose bits 7 to 1 must be 0. -/

namespace Sys2Proof

/-- `30_encoding.md` R56: `OPD[7:1] = 0` for WR_BIT; every other form admits every operand value. -/
def Instr.wellFormed : Instr → Bool
  | .nop => true
  | .decStart => true
  | .decAbort => true
  | .rdBit => true
  | .rdByte => true
  | .wrBit opd => opd.extractLsb' 1 7 == 0
  | .wrByte _ => true
  | .wrFlush => true
  | .clrErr => true
  | .softReset => true
  | .hdrNode => true
  | .hdrLeaf _ => true
  | .sep _ => true
  | .payLeft => true
  | .payRight => true

end Sys2Proof
end

