-- ==== Sys2Proof/Decode.lean ====
section
/-! DEFINITION. Decoding, total, with a named rejection, and after it the encoder. A command word is decoded by its
fields (`30_encoding.md` R55 to R58); a stream bit by the decode state that reads it (`30_encoding.md` R62, R67); the
separator byte as itself (`30_encoding.md` R66). -/

namespace Sys2Proof

/-- `RSVD`, bits [31:16] of a command word (`30_encoding.md` R55). -/
def rsvdOf (w : Word) : BitVec 16 := w.extractLsb' 16 16

/-- `OPC`, bits [15:8] of a command word (`30_encoding.md` R55). -/
def opcOf (w : Word) : Byte := w.extractLsb' 8 8

/-- `OPD`, bits [7:0] of a command word (`30_encoding.md` R55). -/
def opdOf (w : Word) : Byte := w.extractLsb' 0 8

/-- Why a command word is illegal: the four conditions of `30_encoding.md` R57. -/
inductive Reject where
  /-- `RSVD ≠ 0` -/
  | rsvdNotZero
  /-- `OPC` is not in the table of R56 -/
  | reservedOpcode
  /-- `OPD ≠ 0` for a command whose constraint is `OPD = 0` -/
  | operandNotZero
  /-- `OPD[7:1] ≠ 0` for WR_BIT -/
  | bitOperandTooWide
  deriving DecidableEq, Repr

/-- A command whose constraint is `OPD = 0` (`30_encoding.md` R56). -/
def noOperand (i : Instr) (opd : Byte) : Except Reject Instr :=
  if opd = 0 then .ok i else .error .operandNotZero

/-- WR_BIT, whose constraint is `OPD[7:1] = 0` (`30_encoding.md` R56). -/
def bitOperand (opd : Byte) : Except Reject Instr :=
  if (Instr.wrBit opd).wellFormed then .ok (.wrBit opd) else .error .bitOperandTooWide

/-- The opcode assignments of `30_encoding.md` R56; every other OPC is reserved (R58). -/
def decodeOpcode (opc opd : Byte) : Except Reject Instr :=
  if opc = 0x00 then noOperand .nop opd
  else if opc = 0x01 then noOperand .decStart opd
  else if opc = 0x02 then noOperand .decAbort opd
  else if opc = 0x10 then noOperand .rdBit opd
  else if opc = 0x11 then noOperand .rdByte opd
  else if opc = 0x20 then bitOperand opd
  else if opc = 0x21 then .ok (.wrByte opd)
  else if opc = 0x22 then noOperand .wrFlush opd
  else if opc = 0x30 then noOperand .clrErr opd
  else if opc = 0x3F then noOperand .softReset opd
  else .error .reservedOpcode

/-- A command word is legal iff it decodes (`30_encoding.md` R57). -/
def decodeCommand (w : Word) : Except Reject Instr :=
  if rsvdOf w = 0 then decodeOpcode (opcOf w) (opdOf w) else .error .rsvdNotZero

/-- The instruction a stream bit is, by the decode state that reads it (`30_encoding.md` R62, R67). -/
def decodeBit : BitPhase → Bool → Instr
  | .hdrBit, false => .hdrNode
  | .hdrBit, true => .hdrLeaf .marker
  | .hdrSym, b => .hdrLeaf (.field b)
  | .walk, false => .payLeft
  | .walk, true => .payRight

/-- What the sequencer has in front of it when it takes a step (`43_control.md` R95). -/
inductive Fetched where
  /-- the latched command word -/
  | command (w : Word)
  /-- the next stream bit, read in the given decode state -/
  | bit (phase : BitPhase) (b : Bool)
  /-- the whole byte read in SEP -/
  | separator (v : Byte)
  deriving DecidableEq, Repr

/-- The decoder, total: illegal command words are rejected by name, and every stream bit and byte is a token. -/
def decode : Fetched → Except Reject Instr
  | .command w => decodeCommand w
  | .bit phase b => .ok (decodeBit phase b)
  | .separator v => .ok (.sep v)

/-- A command word from its fields, with `RSVD = 0` (`30_encoding.md` R55). -/
def commandWord (opc opd : Byte) : Word := 0#16 ++ opc ++ opd

/-- The encoder, from the tables of `30_encoding.md` R56, R62, R66, R67. -/
def encode : Instr → Fetched
  | .nop => .command (commandWord 0x00 0)
  | .decStart => .command (commandWord 0x01 0)
  | .decAbort => .command (commandWord 0x02 0)
  | .rdBit => .command (commandWord 0x10 0)
  | .rdByte => .command (commandWord 0x11 0)
  | .wrBit opd => .command (commandWord 0x20 opd)
  | .wrByte opd => .command (commandWord 0x21 opd)
  | .wrFlush => .command (commandWord 0x22 0)
  | .clrErr => .command (commandWord 0x30 0)
  | .softReset => .command (commandWord 0x3F 0)
  | .hdrNode => .bit .hdrBit false
  | .hdrLeaf .marker => .bit .hdrBit true
  | .hdrLeaf (.field b) => .bit .hdrSym b
  | .sep v => .separator v
  | .payLeft => .bit .walk false
  | .payRight => .bit .walk true

/-- One row of the command table of `30_encoding.md` R56: a word `w` is the row's command iff `w &&& mask = pattern`. -/
structure CommandRow where
  mnemonic : String
  pattern : Word
  mask : Word
  deriving DecidableEq, Repr

/-- The match and mask columns of `30_encoding.md` R56. -/
def commandTable : List CommandRow :=
  [ ⟨"NOP", 0x00000000, 0xFFFFFFFF⟩,
    ⟨"DEC_START", 0x00000100, 0xFFFFFFFF⟩,
    ⟨"DEC_ABORT", 0x00000200, 0xFFFFFFFF⟩,
    ⟨"RD_BIT", 0x00001000, 0xFFFFFFFF⟩,
    ⟨"RD_BYTE", 0x00001100, 0xFFFFFFFF⟩,
    ⟨"WR_BIT", 0x00002000, 0xFFFFFFFE⟩,
    ⟨"WR_BYTE", 0x00002100, 0xFFFFFF00⟩,
    ⟨"WR_FLUSH", 0x00002200, 0xFFFFFFFF⟩,
    ⟨"CLR_ERR", 0x00003000, 0xFFFFFFFF⟩,
    ⟨"SOFT_RESET", 0x00003F00, 0xFFFFFFFF⟩ ]

/-- The word `w` is the command of row `r` (`30_encoding.md` R56). -/
def CommandRow.matchesWord (r : CommandRow) (w : Word) : Bool := w &&& r.mask == r.pattern

/-- An instruction's name in `spec/opcode_table.json` and in assembler text (`30_encoding.md` R59). -/
def Instr.mnemonic : Instr → String
  | .nop => "NOP"
  | .decStart => "DEC_START"
  | .decAbort => "DEC_ABORT"
  | .rdBit => "RD_BIT"
  | .rdByte => "RD_BYTE"
  | .wrBit _ => "WR_BIT"
  | .wrByte _ => "WR_BYTE"
  | .wrFlush => "WR_FLUSH"
  | .clrErr => "CLR_ERR"
  | .softReset => "SOFT_RESET"
  | .hdrNode => "HDR.NODE"
  | .hdrLeaf _ => "HDR.LEAF"
  | .sep _ => "SEP"
  | .payLeft => "PAY.LEFT"
  | .payRight => "PAY.RIGHT"

/-- The stream bits, in stream order, of a token whose table row is a pattern of bits and not a match and mask: the
pattern read as one number, its first stream bit highest (`spec/98_reader.md`). One-bit patterns fill one byte of the
table, HDR.LEAF's ten bits fill two (assumption log 12). -/
def tokenBits (nbits w : Nat) : List Bool :=
  if nbits = 8 then [w.testBit 0]
  else if nbits = 16 then [9, 8, 7, 6, 5, 4, 3, 2, 1, 0].map w.testBit
  else []

/-- The instruction the decoder reads from the table word `w` of `nbits` bits: a 32-bit word is a command word, a
shorter pattern is a stream token read where a decode reads its first token, in HDR_BIT (assumption log 12). -/
def decodeTableWord (nbits w : Nat) : Option Instr :=
  if nbits = 32 then (decodeCommand (BitVec.ofNat 32 w)).toOption
  else (tokenBits nbits w).head?.map (decodeBit .hdrBit)

end Sys2Proof
end

