-- ==== Sys2Proof/Machine/State.lean ====
section
/-! DEFINITION. The state of the machine as plain data: every element `10_state.md` names, the host-owned streams, and
the model's own two lists for the host agent. The reasons a step can stop, and the state after reset. -/

namespace Sys2Proof.Machine

open Sys2Proof

/-- The sequencer's state `fsm` (`10_state.md` R12). Value 7 is never entered and has no constructor (assumption
log 13). -/
inductive Fsm where
  | idle
  | hdrBit
  | hdrSym
  | sep
  | walk
  | done
  | fault
  deriving DecidableEq, Repr

/-- The fault codes (`60_exceptions.md` R102). Codes 7 to 15 are never produced and have no constructor. -/
inductive FaultCode where
  | none
  | malformedHeader
  | truncatedPayload
  | badSymbol
  | treeOverflow
  | degenerateTree
  | aborted
  deriving DecidableEq, Repr

/-- The kind of a node entry (`10_state.md` R15). -/
inductive NodeKind where
  | internal
  | leaf
  deriving DecidableEq, Repr

/-- One entry of node memory (`10_state.md` R15). `none` is NIL. -/
structure Node where
  kind : NodeKind
  sym : Sym
  left : Option Nat
  right : Option Nat
  deriving DecidableEq, Repr

/-- Node memory: the entries written so far by index, indices strictly rising. An entry that is not listed has
unspecified contents, which no rule reads (`10_state.md` R15; assumption log 5). -/
abbrev NodeMem := List (Nat × Node)

/-- The eight registers of the window (`10_state.md` R28). -/
inductive Reg where
  | cmd
  | status
  | rdata
  | outCount
  | leafCount
  | nodeCount
  | iostat
  | config
  deriving DecidableEq, Repr

/-- A bus access as the platform presents it: address, width in bits, and the data when it is a write
(`20_memory.md` R40). -/
structure BusAccess where
  addr : Nat
  bits : Nat
  data : Option Word
  deriving DecidableEq, Repr

/-- One move of the interleaving: a block step, the platform's RST, or a host step (`00_scope.md` R2;
`20_memory.md` R52; `70_reset_and_hazards.md` R118, R130; assumption log 3). -/
inductive Move where
  /-- the block takes its enabled step, if it has one (`43_control.md` R95) -/
  | block
  /-- the platform asserts RST (`70_reset_and_hazards.md` R118) -/
  | rst
  /-- the host reads a register (`READ reg` of `30_encoding.md` R59) -/
  | readReg (r : Reg)
  /-- the host writes a register (`10_state.md` R29, R37) -/
  | writeReg (r : Reg) (w : Word)
  /-- a bus access by address and width (`20_memory.md` R40) -/
  | bus (a : BusAccess)
  /-- the host appends bytes to the source (`PUSH` of `30_encoding.md` R59) -/
  | push (bs : List Byte)
  /-- the host closes the source (`CLOSE` of `30_encoding.md` R59) -/
  | close
  /-- the host replaces the whole source (`70_reset_and_hazards.md` R130) -/
  | newSource (bs : List Byte) (closed : Bool)
  /-- the host reads the sink (`70_reset_and_hazards.md` R130) -/
  | readSink
  /-- the host empties the sink (`70_reset_and_hazards.md` R130) -/
  | clearSink
  /-- the host polls STATUS until CMD_PEND = 0 (`WAIT_CMD` of `30_encoding.md` R59; assumption log 8) -/
  | waitCmd
  /-- the host polls STATUS until BUSY = 0 and CMD_PEND = 0 (`WAIT_IDLE` of `30_encoding.md` R59; assumption log 8) -/
  | waitIdle
  deriving DecidableEq, Repr

/-- What a host read returned (assumption log 10). -/
inductive Seen where
  | reg (r : Reg) (w : Word)
  | sink (bs : List Byte)
  deriving DecidableEq, Repr

/-- The machine's state. Field names follow `10_state.md`. -/
structure State where
  /-- the parameters of this instance (`00_scope.md` R3 to R5); no step changes them -/
  cfg : Config
  /-- `fsm` (`10_state.md` R12) -/
  fsm : Fsm
  /-- `cur`, the walker's node or NIL (`10_state.md` R13) -/
  cur : Option Nat
  /-- `sym_acc` (`10_state.md` R14) -/
  symAcc : Sym
  /-- `sym_cnt`, 4 bits (`10_state.md` R14) -/
  symCnt : Fin 16
  /-- node memory (`10_state.md` R15) -/
  nodes : NodeMem
  /-- `node_count`, 16 bits (`10_state.md` R16) -/
  nodeCount : BitVec 16
  /-- `stack`, its top first (`10_state.md` R17) -/
  stack : List Nat
  /-- `root`, a node index or NIL (`10_state.md` R18) -/
  root : Option Nat
  /-- `leaf_count` (`10_state.md` R19) -/
  leafCount : Word
  /-- `out_count` (`10_state.md` R19) -/
  outCount : Word
  /-- `rd_byte` (`10_state.md` R20) -/
  rdByte : Byte
  /-- `rd_rem`, 0 to 7 (`10_state.md` R20) -/
  rdRem : Fin 8
  /-- `wr_acc` (`10_state.md` R21) -/
  wrAcc : Byte
  /-- `wr_cnt`, 0 to 7 (`10_state.md` R21) -/
  wrCnt : Fin 8
  /-- `cmd_pend` (`10_state.md` R22) -/
  cmdPend : Bool
  /-- `cmd_word` (`10_state.md` R22) -/
  cmdWord : Word
  /-- `rdata`: KIND, EOF, VALUE (`10_state.md` R23, R31) -/
  rdata : BitVec 10
  /-- `rvalid` (`10_state.md` R23) -/
  rvalid : Bool
  /-- `err_illegal` (`10_state.md` R24) -/
  errIllegal : Bool
  /-- `err_busy` (`10_state.md` R24) -/
  errBusy : Bool
  /-- `err_overrun` (`10_state.md` R24) -/
  errOverrun : Bool
  /-- `fcode` (`10_state.md` R25) -/
  fcode : FaultCode
  /-- `fstate` (`10_state.md` R25) -/
  fstate : Fsm
  /-- `src_q`, the host's source bytes, front first (`10_state.md` R27) -/
  srcQ : List Byte
  /-- `src_closed` (`10_state.md` R27) -/
  srcClosed : Bool
  /-- `snk`, the host's sink (`10_state.md` R27) -/
  snk : List Byte
  /-- the model's own: the moves still to come, the next one first; when none is left the block steps (assumption
  log 3) -/
  sched : List Move
  /-- the model's own: what the host's reads returned, oldest first (assumption log 10) -/
  seen : List Seen
  deriving DecidableEq, Repr

/-- The stops of the MODEL (the block's own faults are states, `60_exceptions.md` R101). Each is a use of node memory
the spec says no reachable state performs, so each is SAFE; a state that meets the invariant of `Safety.lean` reaches
none of them. -/
inductive Fault where
  /-- raised by a NodeRead of entry `i` that is not allocated (`20_memory.md` R41, `93_implementation_defined.md`
  I-9). Safe: the model stops where the spec lets a model fault. -/
  | nodeRead (i : Nat)
  /-- raised by a NodeWrite of entry `i` at or above NODE_CAP (`20_memory.md` R41). Safe. -/
  | nodeWrite (i : Nat)
  /-- raised where a step needs a node index and finds NIL (`42_tree_walker.md` R86). Safe. -/
  | nilIndex
  /-- raised by Attach with a root and an empty stack, the third case that never arises (`41_tree_deserializer.md`
  R77). Safe. -/
  | emptyStack
  deriving DecidableEq, Repr

/-- The refusals: host moves for which the spec says the model has no step. Each is SAFE. No instruction's meaning
ends in one. -/
inductive Refusal where
  /-- an instruction that has no meaning in this model yet; raised by `exec`'s arms only. Safe. -/
  | notModelled (mnemonic : String)
  /-- raised by a bus access that is not 32 bits wide or not aligned (`20_memory.md` R40, I-20). Safe. -/
  | accessNotAdmitted
  /-- raised by a bus access outside the window (`20_memory.md` R40: not this block's). Safe. -/
  | outsideWindow
  /-- raised by a push after the source is closed (`70_reset_and_hazards.md` R130, I-21). Safe. -/
  | pushAfterClose
  /-- raised by replacing the source while BUSY or while an RD command is latched (`70_reset_and_hazards.md` R130).
  Safe. -/
  | sourceInUse
  /-- raised by emptying the sink while BUSY or while a WR command is latched (`70_reset_and_hazards.md` R130). Safe. -/
  | sinkInUse
  deriving DecidableEq, Repr

/-- What a step or a meaning answers. -/
abbrev Out := Host.Outcome State Fault Refusal

/-- The machine right after reset (`70_reset_and_hazards.md` R119, R120): every block element at its reset value, for
the default instance, with an empty open source and an empty sink (assumption log 1, 4). -/
def State.reset : State where
  cfg := Config.default
  fsm := .idle
  cur := none
  symAcc := 0
  symCnt := 0
  nodes := []
  nodeCount := 0
  stack := []
  root := none
  leafCount := 0
  outCount := 0
  rdByte := 0
  rdRem := 0
  wrAcc := 0
  wrCnt := 0
  cmdPend := false
  cmdWord := 0
  rdata := 0
  rvalid := false
  errIllegal := false
  errBusy := false
  errOverrun := false
  fcode := .none
  fstate := .idle
  srcQ := []
  srcClosed := false
  snk := []
  sched := []
  seen := []

end Sys2Proof.Machine
end

