-- ==== Sys2Proof/Machine/Flags.lean ====
section
/-! DEFINITION. The status bits: the codes of `fsm` and `fcode`, the derived BUSY, the command-error flags, and the
RDATA result word (`10_state.md` R12, R23 to R26, R31; `60_exceptions.md` R102, R109). -/

namespace Sys2Proof.Machine

open Sys2Proof

/-- The 3-bit value of `fsm` (`10_state.md` R12). -/
def Fsm.code : Fsm → BitVec 3
  | .idle => 0
  | .hdrBit => 1
  | .hdrSym => 2
  | .sep => 3
  | .walk => 4
  | .done => 5
  | .fault => 6

/-- The 4-bit fault code (`60_exceptions.md` R102). -/
def FaultCode.code : FaultCode → BitVec 4
  | .none => 0
  | .malformedHeader => 1
  | .truncatedPayload => 2
  | .badSymbol => 3
  | .treeOverflow => 4
  | .degenerateTree => 5
  | .aborted => 6

/-- Is this one of the four decode states (`10_state.md` R26)? -/
def Fsm.isBusy : Fsm → Bool
  | .idle => false
  | .hdrBit => true
  | .hdrSym => true
  | .sep => true
  | .walk => true
  | .done => false
  | .fault => false

/-- `BUSY`, derived and not stored (`10_state.md` R26). -/
def busy (s : State) : Bool := s.fsm.isBusy

/-- A command step that executed ends by emptying the latch (`43_control.md` R95). -/
def retire (s : State) : State := { s with cmdPend := false }

/-- ERR_ILLEGAL: the latched word is illegal and is not executed (`43_control.md` R95; `60_exceptions.md` R109). -/
def rejectIllegal (s : State) : State := retire { s with errIllegal := true }

/-- ERR_BUSY: a BUSY_REJECT command while BUSY is not executed (`43_control.md` R95; `60_exceptions.md` R109). -/
def rejectBusy (s : State) : State := retire { s with errBusy := true }

/-- ERR_OVERRUN: a CMD write while the latch is full is discarded (`43_control.md` R94; `60_exceptions.md` R109). -/
def rejectOverrun (s : State) : State := { s with errOverrun := true }

/-- `err_illegal <- 0; err_busy <- 0; err_overrun <- 0` (`43_control.md` R99). -/
def clearErrors (s : State) : State := { s with errIllegal := false, errBusy := false, errOverrun := false }

/-- The layout of RDATA, `{KIND, EOF, VALUE}` (`10_state.md` R31). -/
def rdataOf (kind eof : Bool) (value : Byte) : BitVec 10 := BitVec.ofBool kind ++ BitVec.ofBool eof ++ value

/-- `rdata <- result; rvalid <- 1` (`40_bitstream_io.md` R71, R72). -/
def deliver (kind eof : Bool) (value : Byte) (s : State) : State :=
  { s with rdata := rdataOf kind eof value, rvalid := true }

end Sys2Proof.Machine
end

