-- ==== Sys2Proof/Machine/Operands.lean ====
section
/-! DEFINITION. Operand forms and bit fields: the 8-bit immediate, the place of a stream bit in its byte, the symbol
field, and bits packed into bytes (`30_encoding.md` R55, R63; `20_memory.md` R44, R46). -/

namespace Sys2Proof.Machine

open Sys2Proof

/-- The bit operand, `OPD[0]` (`30_encoding.md` R55). -/
def operandBit (opd : Byte) : Bool := opd.getLsbD 0

/-- The byte operand, `OPD[7:0]` (`30_encoding.md` R55). -/
def operandByte (opd : Byte) : Byte := opd

/-- The bit position, inside its byte, of the stream bit with stream index `i` (`20_memory.md` R44, R46). -/
def bitPosition : BitOrder → Nat → Nat
  | .msbFirst, i => 7 - i
  | .lsbFirst, i => i

/-- The stream bit with stream index `i` of a byte (`20_memory.md` R44). -/
def streamBit (o : BitOrder) (v : Byte) (i : Nat) : Bool := v.getLsbD (bitPosition o i)

/-- `v[p] <- b` (`20_memory.md` R46). -/
def setBit (v : Byte) (p : Nat) (b : Bool) : Byte :=
  if b then v ||| (1#8 <<< p) else v &&& ~~~(1#8 <<< p)

/-- The byte with the stream bit of index `i` written (`20_memory.md` R46). -/
def setStreamBit (o : BitOrder) (v : Byte) (i : Nat) (b : Bool) : Byte := setBit v (bitPosition o i) b

/-- `{sym_acc, r}[SYM_BITS-1:0]`: shift left by one, the new bit at bit 0 (`41_tree_deserializer.md` R80). -/
def shiftSymbol (symBits : Nat) (acc : Sym) (b : Bool) : Sym :=
  ((acc.shiftConcat b).setWidth symBits).setWidth 15

/-- `sym[7:0]`, the byte a byte leaf emits (`42_tree_walker.md` R87). -/
def symbolByte (sym : Sym) : Byte := sym.setWidth 8

/-- The eight stream bits of a byte, in stream order (`20_memory.md` R44). -/
def byteBits (o : BitOrder) (v : Byte) : List Bool := [0, 1, 2, 3, 4, 5, 6, 7].map (streamBit o v)

/-- One byte from at most eight stream bits, placed from stream index `i` up; the rest is zero padding
(`20_memory.md` R46, R48). -/
def byteOfBits (o : BitOrder) : List Bool → Nat → Byte
  | [], _ => 0
  | b :: bs, i => setStreamBit o (byteOfBits o bs (i + 1)) i b

/-- Bits packed into bytes in stream order, the last byte padded with zeros: what a writer emits for these bits and a
flush (`20_memory.md` R46, R48). -/
def packBits (o : BitOrder) : List Bool → List Byte
  | b0 :: b1 :: b2 :: b3 :: b4 :: b5 :: b6 :: b7 :: rest =>
      byteOfBits o [b0, b1, b2, b3, b4, b5, b6, b7] 0 :: packBits o rest
  | [] => []
  | bs => [byteOfBits o bs 0]

end Sys2Proof.Machine
end

