-- ==== Sys2Proof/Machine/Ops.lean ====
section
/-! DEFINITION. The named operations over the state: fault entry and reset, node memory, the byte source and sink, the
bit-stream primitives, tree allocation, and the command wrapper. Every meaning is written over these. -/

namespace Sys2Proof.Machine

open Sys2Proof

/-! ### Fault entry and reset -/

/-- `raise Fault(code)`, the one way a decode error is taken (`60_exceptions.md` R101). Nothing else is saved, and
there is no return: FAULT is left by DEC_START or a reset (`60_exceptions.md` R111). -/
def raiseFault (code : FaultCode) (s : State) : State := { s with fstate := s.fsm, fcode := code, fsm := .fault }

/-- The fields a decode starts from (`43_control.md` R97). It is also how FAULT and DONE are left for a new decode. -/
def startDecode (s : State) : State :=
  { s with
    rdRem := 0
    nodeCount := 0
    stack := []
    root := none
    cur := none
    symAcc := 0
    symCnt := 0
    leafCount := 0
    outCount := 0
    fcode := .none
    fstate := .idle
    fsm := .hdrBit }

/-- `ResetBlock()` (`70_reset_and_hazards.md` R119): every block element at its reset value. Node memory is not written
(its old contents stay, unread; assumption log 5), and the host's streams are not touched. -/
def resetBlock (s : State) : State :=
  { s with
    fsm := .idle
    cur := none
    root := none
    stack := []
    symAcc := 0
    symCnt := 0
    nodeCount := 0
    leafCount := 0
    outCount := 0
    rdByte := 0
    rdRem := 0
    wrAcc := 0
    wrCnt := 0
    cmdPend := false
    cmdWord := 0
    rdata := 0
    rvalid := false
    errIllegal := false
    errBusy := false
    errOverrun := false
    fcode := .none
    fstate := .idle }

/-! ### Node memory -/

/-- The entry listed at index `i`. -/
def NodeMem.read : NodeMem → Nat → Option Node
  | [], _ => none
  | (k, n) :: rest, i => if i = k then some n else NodeMem.read rest i

/-- Entry `i` written, the indices kept strictly rising. -/
def NodeMem.write : NodeMem → Nat → Node → NodeMem
  | [], i, n => [(i, n)]
  | (k, m) :: rest, i, n =>
      if i < k then (i, n) :: (k, m) :: rest
      else if i = k then (i, n) :: rest
      else (k, m) :: NodeMem.write rest i n

/-- The canonical form of node memory: indices strictly rising. -/
def NodeMem.wf : NodeMem → Bool
  | [] => true
  | [_] => true
  | (i, _) :: (j, m) :: rest => decide (i < j) && NodeMem.wf ((j, m) :: rest)

/-- `NodeRead(i)`, for an allocated entry only (`20_memory.md` R41). -/
def nodeRead (s : State) (i : Nat) : Option Node :=
  if i < s.nodeCount.toNat then NodeMem.read s.nodes i else none

/-- Run `k` on the entry `NodeRead(i)` returns; a read of an entry that is not allocated stops the model
(`20_memory.md` R41). -/
def withNode (s : State) (i : Nat) (k : Node → Out) : Out :=
  match nodeRead s i with
  | some n => k n
  | none => .fault (.nodeRead i)

/-- Run `k` on an index that is not NIL. -/
def withIndex (i : Option Nat) (k : Nat → Out) : Out :=
  match i with
  | some i => k i
  | none => .fault .nilIndex

/-- `NodeWrite(i, n)` (`20_memory.md` R41) of an entry below NODE_CAP. -/
def nodeWrite (s : State) (i : Nat) (n : Node) : State := { s with nodes := NodeMem.write s.nodes i n }

/-! ### Byte source and sink -/

/-- What a read of the source answers: a value and the state after it, END and the state after it, or a hold, after
which nothing has happened (`20_memory.md` R42, `00_scope.md` R10). -/
inductive Got (α : Type) where
  | hold
  | eof (s : State)
  | got (a : α) (s : State)
  deriving DecidableEq, Repr

/-- `SrcFetch()` (`20_memory.md` R42). -/
def srcFetch (s : State) : Got Byte :=
  match s.srcQ with
  | v :: q => .got v { s with srcQ := q }
  | [] => if s.srcClosed then .eof s else .hold

/-- `Emit(v)` (`20_memory.md` R43). -/
def emit (v : Byte) (s : State) : State := { s with snk := s.snk ++ [v] }

/-! ### The bit-stream primitives -/

/-- The part of `ReadBit()` after any fetch: take the next bit of `v`, of which `rem` bits are unread
(`20_memory.md` R44). -/
def takeBit (v : Byte) (rem : Nat) (s : State) : Got Bool :=
  .got (streamBit s.cfg.bitOrder v (8 - rem)) { s with rdByte := v, rdRem := Fin.ofNat 8 (rem - 1) }

/-- `ReadBit()` (`20_memory.md` R44). -/
def readBit (s : State) : Got Bool :=
  if s.rdRem = 0 then
    match srcFetch s with
    | .hold => .hold
    | .eof s => .eof s
    | .got v s => takeBit v 8 s
  else takeBit s.rdByte s.rdRem s

/-- `GetByte()` (`20_memory.md` R45): the unread bits of a partial byte are discarded, unless it holds. -/
def getByte (s : State) : Got Byte :=
  match srcFetch s with
  | .hold => .hold
  | .eof s => .eof { s with rdRem := 0 }
  | .got v s => .got v { s with rdRem := 0 }

/-- `Flush()` (`20_memory.md` R48). -/
def flush (s : State) : State :=
  if s.wrCnt = 0 then s else { emit s.wrAcc s with wrAcc := 0, wrCnt := 0 }

/-- `WriteBit(b)` (`20_memory.md` R46). -/
def writeBit (b : Bool) (s : State) : State :=
  let acc := setStreamBit s.cfg.bitOrder s.wrAcc s.wrCnt b
  if s.wrCnt = 7 then { emit acc s with wrAcc := 0, wrCnt := 0 }
  else { s with wrAcc := acc, wrCnt := s.wrCnt + 1 }

/-- `PutByte(v)` (`20_memory.md` R47): realign, then emit the byte. -/
def putByte (v : Byte) (s : State) : State := emit v (flush s)

/-! ### Building the tree -/

/-- `AllocNode(kind, sym)` (`41_tree_deserializer.md` R78); `k` runs on the new index, or the step ends in
TREE_OVERFLOW. -/
def allocNode (kind : NodeKind) (sym : Sym) (s : State) (k : Nat → State → Out) : Out :=
  let n := s.nodeCount.toNat
  if n = s.cfg.nodeCap then .next (raiseFault .treeOverflow s)
  else if n < s.cfg.nodeCap then
    k n { nodeWrite s n { kind := kind, sym := sym, left := none, right := none } with nodeCount := s.nodeCount + 1 }
  else .fault (.nodeWrite n)

/-- `Attach(n)` (`41_tree_deserializer.md` R77): left before right, and the parent popped with its right child. -/
def attach (n : Nat) (s : State) (k : State → Out) : Out :=
  match s.root, s.stack with
  | none, _ => k { s with root := some n }
  | some _, [] => .fault .emptyStack
  | some _, t :: below =>
      withNode s t fun p =>
        if p.left = none then k (nodeWrite s t { p with left := some n })
        else k { nodeWrite s t { p with right := some n } with stack := below }

/-! ### Commands -/

/-- The `BUSY_REJECT` test of `CommandStep()` (`43_control.md` R95): a stream command or DEC_START while BUSY only sets
err_busy. -/
def unlessBusy (s : State) (k : State → Out) : Out :=
  if busy s then .next (rejectBusy s) else k s

end Sys2Proof.Machine
end

