-- ==== Sys2Proof/Machine/BitIO.lean ====
section
/-! DEFINITION. The bit-stream I/O commands (`40_bitstream_io.md` R71 to R75). Each is the command step of a latched
legal word (`43_control.md` R95): the BUSY test, the body, and the latch emptied unless the body holds. -/

namespace Sys2Proof.Machine

open Sys2Proof

/-- RD_BIT (`40_bitstream_io.md` R71). -/
def execRdBit (s : State) : Out :=
  unlessBusy s fun s =>
    match readBit s with
    | .hold => .next s
    | .eof s => .next (retire (deliver false true 0 s))
    | .got b s => .next (retire (deliver false false ((BitVec.ofBool b).setWidth 8) s))

/-- RD_BYTE (`40_bitstream_io.md` R72). -/
def execRdByte (s : State) : Out :=
  unlessBusy s fun s =>
    match getByte s with
    | .hold => .next s
    | .eof s => .next (retire (deliver true true 0 s))
    | .got v s => .next (retire (deliver true false v s))

/-- WR_BIT (`40_bitstream_io.md` R73). -/
def execWrBit (opd : Byte) (s : State) : Out :=
  unlessBusy s fun s => .next (retire (writeBit (operandBit opd) s))

/-- WR_BYTE (`40_bitstream_io.md` R74). -/
def execWrByte (opd : Byte) (s : State) : Out :=
  unlessBusy s fun s => .next (retire (putByte (operandByte opd) s))

/-- WR_FLUSH (`40_bitstream_io.md` R75). -/
def execWrFlush (s : State) : Out :=
  unlessBusy s fun s => .next (retire (flush s))

end Sys2Proof.Machine
end

