-- ==== Sys2Proof/Machine/Control.lean ====
section
/-! DEFINITION. The control commands (`43_control.md` R96 to R100). -/

namespace Sys2Proof.Machine

open Sys2Proof

/-- NOP (`43_control.md` R96): it writes only the latch. -/
def execNop (s : State) : Out := .next (retire s)

/-- DEC_START (`43_control.md` R97). -/
def execDecStart (s : State) : Out :=
  unlessBusy s fun s => .next (retire (startDecode s))

/-- DEC_ABORT (`43_control.md` R98): ABORTED while BUSY, and nothing otherwise. -/
def execDecAbort (s : State) : Out :=
  .next (retire (if busy s then raiseFault .aborted s else s))

/-- CLR_ERR (`43_control.md` R99). -/
def execClrErr (s : State) : Out := .next (retire (clearErrors s))

/-- SOFT_RESET (`43_control.md` R100); the reset itself empties the latch. -/
def execSoftReset (s : State) : Out := .next (resetBlock s)

end Sys2Proof.Machine
end

