-- ==== Sys2Proof/Machine/Deserializer.lean ====
section
/-! DEFINITION. The header tokens (`41_tree_deserializer.md` R79 to R82). A meaning here starts where the token's bit has
been read: the reading, with its hold and its END, is `Sequencer.lean`'s fetch (assumption log 11). -/

namespace Sys2Proof.Machine

open Sys2Proof

/-- HDR.NODE, a structure bit 0 (`41_tree_deserializer.md` R79): an internal node is allocated, attached, and pushed. -/
def execHdrNode (s : State) : Out :=
  allocNode .internal nas s fun n s =>
    attach n s fun s => .next { s with stack := n :: s.stack }

/-- `HeaderComplete()` (`41_tree_deserializer.md` R82). -/
def headerComplete (s : State) : Out :=
  withIndex s.root fun r =>
    withNode s r fun n =>
      if n.kind = .leaf then
        if n.sym = eosSym then .next { s with fsm := .done } else .next (raiseFault .degenerateTree s)
      else .next { s with fsm := .sep }

/-- `CompleteLeaf()` (`41_tree_deserializer.md` R81). -/
def completeLeaf (s : State) : Out :=
  if eosSym < s.symAcc then .next (raiseFault .badSymbol s)
  else
    allocNode .leaf s.symAcc s fun n s =>
      attach n { s with leafCount := s.leafCount + 1 } fun s =>
        if s.stack = [] then headerComplete s else .next { s with fsm := .hdrBit }

/-- One bit of a leaf's symbol field (`41_tree_deserializer.md` R80). -/
def symbolBit (b : Bool) (s : State) : Out :=
  let s := { s with symAcc := shiftSymbol s.cfg.symBits s.symAcc b, symCnt := s.symCnt + 1 }
  if s.symCnt.val = s.cfg.symBits then completeLeaf s else .next s

/-- HDR.LEAF: its marker (`41_tree_deserializer.md` R79), or one bit of its field (R80, R81). -/
def execHdrLeaf (part : LeafPart) (s : State) : Out :=
  match part with
  | .marker => .next { s with symAcc := 0, symCnt := 0, fsm := .hdrSym }
  | .field b => symbolBit b s

end Sys2Proof.Machine
end

