-- ==== Sys2Proof/Machine/Walker.lean ====
section
/-! DEFINITION. The separator and the payload tokens (`42_tree_walker.md` R85 to R88). As in `Deserializer.lean`, the
token's bit or byte has already been read (assumption log 11). -/

namespace Sys2Proof.Machine

open Sys2Proof

/-- SEP (`42_tree_walker.md` R85): the byte is discarded, whatever its value. -/
def execSep (_v : Byte) (s : State) : Out := .next { s with cur := s.root, fsm := .walk }

/-- `EmitLeaf(c)` for a byte leaf with symbol `sym` (`42_tree_walker.md` R87). -/
def emitLeaf (sym : Sym) (s : State) : State :=
  { putByte (symbolByte sym) s with outCount := s.outCount + 1, cur := s.root }

/-- `EndOfStream(c)` (`42_tree_walker.md` R88). -/
def endOfStream (c : Nat) (s : State) : State := { s with cur := some c, fsm := .done }

/-- The descent to child `c` and what its entry says to do (`42_tree_walker.md` R86). -/
def arriveAt (c : Nat) (s : State) : Out :=
  withNode s c fun n =>
    if n.kind = .internal then .next { s with cur := some c }
    else if n.sym = eosSym then .next (endOfStream c s)
    else .next (emitLeaf n.sym s)

/-- One level down from `cur`: left on a bit 0, right on a bit 1 (`42_tree_walker.md` R86). -/
def descend (right : Bool) (s : State) : Out :=
  withIndex s.cur fun c =>
    withNode s c fun n =>
      withIndex (if right then n.right else n.left) fun d => arriveAt d s

/-- PAY.LEFT (`42_tree_walker.md` R86). -/
def execPayLeft (s : State) : Out := descend false s

/-- PAY.RIGHT (`42_tree_walker.md` R86). -/
def execPayRight (s : State) : Out := descend true s

end Sys2Proof.Machine
end

