-- ==== Sys2Proof/Machine/Dispatch.lean ====
section
/-! DEFINITION. The dispatch: one arm per constructor of `Instr`. -/

namespace Sys2Proof.Machine

open Sys2Proof

def exec (i : Instr) (s : State) : Host.Outcome State Fault Refusal :=
  match i with
  | .nop => Sys2Proof.Machine.execNop s
  | .decStart => Sys2Proof.Machine.execDecStart s
  | .decAbort => Sys2Proof.Machine.execDecAbort s
  | .rdBit => Sys2Proof.Machine.execRdBit s
  | .rdByte => Sys2Proof.Machine.execRdByte s
  | .wrBit opd => Sys2Proof.Machine.execWrBit opd s
  | .wrByte opd => Sys2Proof.Machine.execWrByte opd s
  | .wrFlush => Sys2Proof.Machine.execWrFlush s
  | .clrErr => Sys2Proof.Machine.execClrErr s
  | .softReset => Sys2Proof.Machine.execSoftReset s
  | .hdrNode => Sys2Proof.Machine.execHdrNode s
  | .hdrLeaf part => Sys2Proof.Machine.execHdrLeaf part s
  | .sep v => Sys2Proof.Machine.execSep v s
  | .payLeft => Sys2Proof.Machine.execPayLeft s
  | .payRight => Sys2Proof.Machine.execPayRight s

end Sys2Proof.Machine
end

