-- ==== Sys2Proof/Machine/Sequencer.lean ====
section
/-! DEFINITION. The block's step (`43_control.md` R95): what it fetches, the decoded instruction it runs, and the fault
or hold of a fetch that gives nothing (`41_tree_deserializer.md` R79, R80; `42_tree_walker.md` R85, R89). -/

namespace Sys2Proof.Machine

open Sys2Proof

/-- `CommandStep()` (`43_control.md` R95): an illegal word sets err_illegal, a legal one is executed. -/
def commandStep (s : State) : Out :=
  match decode (.command s.cmdWord) with
  | .ok i => exec i s
  | .error _ => .next (rejectIllegal s)

/-- The fault of a bit read that meets END (`60_exceptions.md` R103, R104). -/
def endFault : BitPhase → FaultCode
  | .hdrBit => .malformedHeader
  | .hdrSym => .malformedHeader
  | .walk => .truncatedPayload

/-- An FSM step that reads one stream bit and runs it (`41_tree_deserializer.md` R79, R80; `42_tree_walker.md` R86). -/
def bitStep (phase : BitPhase) (s : State) : Out :=
  match readBit s with
  | .hold => .next s
  | .eof s => .next (raiseFault (endFault phase) s)
  | .got b s => exec (decodeBit phase b) s

/-- The SEP step (`42_tree_walker.md` R85). -/
def sepStep (s : State) : Out :=
  match getByte s with
  | .hold => .next s
  | .eof s => .next (raiseFault .truncatedPayload s)
  | .got v s => exec (.sep v) s

/-- The FSM step of the decode states; the other three states have none (`42_tree_walker.md` R93). -/
def fsmStep (s : State) : Out :=
  match s.fsm with
  | .idle => .next s
  | .hdrBit => bitStep .hdrBit s
  | .hdrSym => bitStep .hdrSym s
  | .sep => sepStep s
  | .walk => bitStep .walk s
  | .done => .next s
  | .fault => .next s

/-- The block's step: the latched command first, then the FSM step. A block with no step, or a step that holds, leaves
the state as it is (`43_control.md` R95; assumption log 7). -/
def blockStep (s : State) : Out :=
  if s.cmdPend then commandStep s else fsmStep s

end Sys2Proof.Machine
end

