-- ==== Sys2Proof/Machine/HostPort.lean ====
section
/-! DEFINITION. The host's side: the register window (`10_state.md` section 6), the CMD write (`43_control.md` R94),
admission of bus accesses (`20_memory.md` R40), and the host's duties on the streams (`70_reset_and_hazards.md` R130). -/

namespace Sys2Proof.Machine

open Sys2Proof

/-- STATUS (`10_state.md` R30). -/
def statusWord (s : State) : Word :=
  0#13 ++ s.fstate.code ++ BitVec.ofBool s.rvalid ++ BitVec.ofBool s.errOverrun ++ BitVec.ofBool s.errBusy ++
    BitVec.ofBool s.errIllegal ++ s.fcode.code ++ 0#2 ++ BitVec.ofBool s.cmdPend ++ BitVec.ofBool (busy s) ++ 0#1 ++
    s.fsm.code

/-- IOSTAT (`10_state.md` R35). -/
def iostatWord (s : State) : Word :=
  0#4 ++ BitVec.ofNat 4 s.symCnt ++ s.wrAcc ++ 0#4 ++ BitVec.ofNat 4 s.wrCnt ++ 0#4 ++ BitVec.ofNat 4 s.rdRem

/-- CONFIG[0] (`10_state.md` R36). -/
def bitOrderBit : BitOrder → BitVec 1
  | .msbFirst => 0
  | .lsbFirst => 1

/-- CONFIG (`10_state.md` R36). -/
def configWord (c : Config) : Word :=
  BitVec.ofNat 16 c.nodeCap ++ 0#8 ++ BitVec.ofNat 4 c.symBits ++ 0#3 ++ bitOrderBit c.bitOrder

/-- The value a read of a register returns (`10_state.md` R28 to R36). -/
def readReg (s : State) : Reg → Word
  | .cmd => 0
  | .status => statusWord s
  | .rdata => s.rdata.setWidth 32
  | .outCount => s.outCount
  | .leafCount => s.leafCount
  | .nodeCount => s.nodeCount.setWidth 32
  | .iostat => iostatWord s
  | .config => configWord s.cfg

/-- An RD_BIT or RD_BYTE word, by its OPC alone (`43_control.md` R94). -/
def isReadOpcode (w : Word) : Bool := opcOf w == 0x10 || opcOf w == 0x11

/-- `HostWriteCMD(w)` (`43_control.md` R94). -/
def hostWriteCmd (w : Word) (s : State) : State :=
  if s.cmdPend then rejectOverrun s
  else { s with cmdWord := w, cmdPend := true, rvalid := s.rvalid && !isReadOpcode w }

/-- A host write of a register: CMD latches, the seven read-only registers ignore it (`10_state.md` R29, R37). -/
def writeReg (r : Reg) (w : Word) (s : State) : State :=
  match r with
  | .cmd => hostWriteCmd w s
  | .status => s
  | .rdata => s
  | .outCount => s
  | .leafCount => s
  | .nodeCount => s
  | .iostat => s
  | .config => s

/-- The byte offset of a register from BASE (`10_state.md` R28). -/
def Reg.offset : Reg → Nat
  | .cmd => 0x00
  | .status => 0x04
  | .rdata => 0x08
  | .outCount => 0x0C
  | .leafCount => 0x10
  | .nodeCount => 0x14
  | .iostat => 0x18
  | .config => 0x1C

/-- The register at a byte offset of the window (`10_state.md` R28). -/
def regAt : Nat → Option Reg
  | 0x00 => some .cmd
  | 0x04 => some .status
  | 0x08 => some .rdata
  | 0x0C => some .outCount
  | 0x10 => some .leafCount
  | 0x14 => some .nodeCount
  | 0x18 => some .iostat
  | 0x1C => some .config
  | _ => none

/-- The register an access at an address reaches, for a window at `base` (`20_memory.md` R40): outside the window it is
not this block's, inside it only aligned 32-bit accesses are admitted. -/
def busTarget (base : Nat) (a : BusAccess) : Except Refusal Reg :=
  if base ≤ a.addr ∧ a.addr < base + 0x20 then
    if a.bits = 32 then
      match regAt (a.addr - base) with
      | some r => .ok r
      | none => .error .accessNotAdmitted
    else .error .accessNotAdmitted
  else .error .outsideWindow

/-- The host takes note of what a read returned (assumption log 10). -/
def observe (o : Seen) (s : State) : State := { s with seen := s.seen ++ [o] }

/-- A register access of the host: a read changes nothing of the block (`10_state.md` R37). -/
def accessReg (r : Reg) (data : Option Word) (s : State) : State :=
  match data with
  | none => observe (.reg r (readReg s r)) s
  | some w => writeReg r w s

/-- An RD command is latched (`70_reset_and_hazards.md` R130; assumption log 17). -/
def readLatched (s : State) : Bool :=
  s.cmdPend && match decodeCommand s.cmdWord with
    | .ok .rdBit => true
    | .ok .rdByte => true
    | _ => false

/-- A WR command is latched (`70_reset_and_hazards.md` R130; assumption log 17). -/
def writeLatched (s : State) : Bool :=
  s.cmdPend && match decodeCommand s.cmdWord with
    | .ok (.wrBit _) => true
    | .ok (.wrByte _) => true
    | .ok .wrFlush => true
    | _ => false

/-- The polls' block step: the move stays until its condition holds (assumption log 8). -/
def pollStep (m : Move) (s : State) : Out :=
  match blockStep s with
  | .next t => .next { t with sched := m :: t.sched }
  | .fault f => .fault f
  | .refused r => .refused r

/-- One move, on a state from whose schedule it has been taken. -/
def moveStep (m : Move) (s : State) : Out :=
  match m with
  | .block => blockStep s
  | .rst => .next (resetBlock s)
  | .readReg r => .next (accessReg r none s)
  | .writeReg r w => .next (accessReg r (some w) s)
  | .bus a =>
      match busTarget Config.base a with
      | .ok r => .next (accessReg r a.data s)
      | .error e => .refused e
  | .push bs => if s.srcClosed then .refused .pushAfterClose else .next { s with srcQ := s.srcQ ++ bs }
  | .close => .next { s with srcClosed := true }
  | .newSource bs closed =>
      if busy s || readLatched s then .refused .sourceInUse else .next { s with srcQ := bs, srcClosed := closed }
  | .readSink => .next (observe (.sink s.snk) s)
  | .clearSink => if busy s || writeLatched s then .refused .sinkInUse else .next { s with snk := [] }
  | .waitCmd => if s.cmdPend then pollStep .waitCmd s else .next s
  | .waitIdle => if s.cmdPend || busy s then pollStep .waitIdle s else .next s

/-- The machine's step: the next move of the interleaving, or, with none left, the block's own step (assumption
log 3). -/
def machineStep (s : State) : Out :=
  match s.sched with
  | [] => blockStep s
  | m :: rest => moveStep m { s with sched := rest }

end Sys2Proof.Machine
end

