-- ==== Sys2Proof/Machine/Step.lean ====
section
/-! DEFINITION. The step of the machine, and the state in which the very next step runs a given table word. -/

namespace Sys2Proof.Machine

open Sys2Proof

/-- One atomic step of the interleaving (`20_memory.md` R51, R52). -/
def step (s : State) : Host.Outcome State Fault Refusal := machineStep s

/-- The state with the next move the block's, when the host has moves waiting. -/
def State.blockNext (s : State) : State :=
  match s.sched with
  | [] => s
  | m :: rest => { s with sched := .block :: m :: rest }

/-- `s` with the instruction of the table word `w` (`nbits` bits) where the block takes its next instruction from: a
32-bit command word in the command latch; a stream token at the front of the source, in the state a decode starts
from (assumption log 12). -/
def State.withFetchWord (s : State) (nbits w : Nat) : State :=
  if nbits = 32 then { s.blockNext with cmdPend := true, cmdWord := BitVec.ofNat 32 w }
  else
    { (startDecode s).blockNext with
      cmdPend := false
      srcQ := packBits s.cfg.bitOrder (tokenBits nbits w) ++ s.srcQ }

end Sys2Proof.Machine
end

