-- ==== Sys2Proof/Machine/Stream.lean ====
section
/-! DEFINITION. The compressed stream format as data (`30_encoding.md` R60 to R70): the tree, its header, its codes, and
the layout of a whole stream. It is the decoder's input contract, and what the whole-decode statements are about; the
machine itself never looks at it. Beside it, the write and read sequences of the bit layer (`20_memory.md` R49). -/

namespace Sys2Proof.Machine

open Sys2Proof

/-- A tree as the header grammar describes it (`30_encoding.md` R61). -/
inductive Tree where
  | leaf (sym : Sym)
  | node (left right : Tree)
  deriving DecidableEq, Repr

/-- The symbol field: `n` bits, most significant first (`30_encoding.md` R63). -/
def symbolField (n : Nat) (sym : Sym) : List Bool := (List.range n).map fun k => sym.getLsbD (n - 1 - k)

/-- The pre-order header: `0` per internal node, `1` and the symbol field per leaf (`30_encoding.md` R61, R62). -/
def Tree.header (n : Nat) : Tree → List Bool
  | .leaf sym => true :: symbolField n sym
  | .node l r => false :: (l.header n ++ r.header n)

/-- The number of leaves, `L` (`30_encoding.md` R64). -/
def Tree.leaves : Tree → Nat
  | .leaf _ => 1
  | .node l r => l.leaves + r.leaves

/-- The number of nodes, `2L - 1` (`41_tree_deserializer.md` R83). -/
def Tree.size : Tree → Nat
  | .leaf _ => 1
  | .node l r => 1 + l.size + r.size

/-- Is the root an internal node? -/
def Tree.isNode : Tree → Bool
  | .leaf _ => false
  | .node _ _ => true

/-- Every leaf carries a real symbol, a byte value or EOS (`30_encoding.md` R63). -/
def Tree.symbolsLegal : Tree → Bool
  | .leaf sym => decide (sym ≤ eosSym)
  | .node l r => l.symbolsLegal && r.symbolsLegal

/-- The code of a symbol: a root-to-leaf path, 0 left and 1 right (`30_encoding.md` R67); the leftmost one where a
symbol is repeated (`41_tree_deserializer.md` R84). -/
def Tree.code : Tree → Sym → Option (List Bool)
  | .leaf x, sym => if x = sym then some [] else none
  | .node l r, sym =>
      match l.code sym with
      | some p => some (false :: p)
      | none => (r.code sym).map (true :: ·)

/-- The symbol of the leaf at the end of a path, if the path ends at a leaf (`30_encoding.md` R67). -/
def Tree.symbolAt : Tree → List Bool → Option Sym
  | .leaf x, [] => some x
  | .leaf _, _ :: _ => none
  | .node _ _, [] => none
  | .node l _, false :: p => l.symbolAt p
  | .node _ r, true :: p => r.symbolAt p

/-- The concatenated codes of the message bytes (`30_encoding.md` R67). -/
def Tree.codes (t : Tree) : List Byte → Option (List Bool)
  | [] => some []
  | b :: bs =>
      match t.code (b.setWidth 15), t.codes bs with
      | some p, some rest => some (p ++ rest)
      | _, _ => none

/-- Payload and stream end: the message's codes, then EOS's code twice (`30_encoding.md` R67, R68). -/
def Tree.payload (t : Tree) (message : List Byte) : Option (List Bool) :=
  match t.codes message, t.code eosSym with
  | some body, some e => some (body ++ e ++ e)
  | _, _ => none

/-- The stream of a message under a tree whose root is an internal node: header and pad1, separator, payload and pad2
(`30_encoding.md` R60, R65, R66, R68). -/
def streamOf (c : Config) (t : Tree) (separator : Byte) (message : List Byte) : Option (List Byte) :=
  (t.payload message).map fun p =>
    packBits c.bitOrder (t.header c.symBits) ++ separator :: packBits c.bitOrder p

/-- The stream of an empty message whose tree is the single EOS leaf (`30_encoding.md` R69). -/
def degenerateStream (c : Config) : List Byte := packBits c.bitOrder ((Tree.leaf eosSym).header c.symBits)

/-- The stream bits the reader has not read yet: those of its partial byte, then those of the source
(`20_memory.md` R44). -/
def unreadBits (s : State) : List Bool :=
  (byteBits s.cfg.bitOrder s.rdByte).drop (8 - s.rdRem) ++ s.srcQ.flatMap (byteBits s.cfg.bitOrder)

/-- Node memory holds the tree `t` at index `i` (`41_tree_deserializer.md` R76). -/
def holdsTree (s : State) : Nat → Tree → Prop
  | i, .leaf sym => nodeRead s i = some { kind := .leaf, sym := sym, left := none, right := none }
  | i, .node l r =>
      ∃ a b, nodeRead s i = some { kind := .internal, sym := nas, left := some a, right := some b } ∧
        holdsTree s a l ∧ holdsTree s b r

/-- One operation of the bit layer: a bit or a whole byte (`20_memory.md` R49). -/
inductive StreamItem where
  | bit (b : Bool)
  | byte (v : Byte)
  deriving DecidableEq, Repr

/-- Write a sequence of bits and bytes (`20_memory.md` R46, R47). -/
def writeItems : List StreamItem → State → State
  | [], s => s
  | .bit b :: rest, s => writeItems rest (writeBit b s)
  | .byte v :: rest, s => writeItems rest (putByte v s)

/-- Read one item of the kind asked for, with the state after it; `none` is END or a hold (`20_memory.md` R44, R45). -/
def readItem : StreamItem → State → Option (StreamItem × State)
  | .bit _, s => match readBit s with
      | .got b t => some (.bit b, t)
      | .eof _ => none
      | .hold => none
  | .byte _, s => match getByte s with
      | .got v t => some (.byte v, t)
      | .eof _ => none
      | .hold => none

/-- Read a sequence matching the kinds of `items`: what was read, and the state after it. -/
def readItems : List StreamItem → State → Option (List StreamItem × State)
  | [], s => some ([], s)
  | item :: rest, s =>
      match readItem item s with
      | none => none
      | some (x, s) =>
          match readItems rest s with
          | none => none
          | some (xs, s) => some (x :: xs, s)

end Sys2Proof.Machine
end

