-- ==== Sys2Proof/Machine/Assembler.lean ====
section
/-! DEFINITION. Assembler syntax and the host's pseudo-instructions (`30_encoding.md` R59), and the host's decode sequence
(`70_reset_and_hazards.md` R121). -/

namespace Sys2Proof.Machine

open Sys2Proof

/-- The command of a mnemonic and its operand, if it takes one (`30_encoding.md` R59): only WR_BIT (0 or 1) and WR_BYTE
(a byte) have an operand. -/
def assemble (mnemonic : String) (operand : Option Nat) : Option Instr :=
  match mnemonic, operand with
  | "NOP", none => some .nop
  | "DEC_START", none => some .decStart
  | "DEC_ABORT", none => some .decAbort
  | "RD_BIT", none => some .rdBit
  | "RD_BYTE", none => some .rdByte
  | "WR_BIT", some b => if b < 2 then some (.wrBit (BitVec.ofNat 8 b)) else none
  | "WR_BYTE", some v => if v < 256 then some (.wrByte (BitVec.ofNat 8 v)) else none
  | "WR_FLUSH", none => some .wrFlush
  | "CLR_ERR", none => some .clrErr
  | "SOFT_RESET", none => some .softReset
  | _, _ => none

/-- The word of a command (`30_encoding.md` R56); a stream token has none. -/
def wordOf (i : Instr) : Option Word :=
  match encode i with
  | .command w => some w
  | .bit _ _ => none
  | .separator _ => none

/-- `X mnemonic [op]`: the command's CMD write, then WAIT_CMD (`30_encoding.md` R59). -/
def issue (i : Instr) : List Move :=
  match wordOf i with
  | some w => [.writeReg .cmd w, .waitCmd]
  | none => []

/-- `WR_BITS s` (`30_encoding.md` R59). -/
def writeBits (bits : List Bool) : List Move :=
  bits.flatMap fun b => issue (.wrBit ((BitVec.ofBool b).setWidth 8))

/-- `WR_SYM v` (`30_encoding.md` R59). -/
def writeSymbol (symBits : Nat) (sym : Sym) : List Move := writeBits (symbolField symBits sym)

/-- The host's decode sequence: the stream pushed, the source closed, DEC_START, WAIT_IDLE, and the results read
(`70_reset_and_hazards.md` R121). -/
def decodeSequence (stream : List Byte) : List Move :=
  [.push stream, .close] ++ issue .decStart ++ [.waitIdle, .readReg .status, .readReg .outCount, .readSink]

end Sys2Proof.Machine
end

