-- ==== Sys2Proof/Safety.lean ====
section
/-! DEFINITION. What counts as a good state and a good result: the state invariants of `10_state.md` R38 with what they
rest on, the fault record's table (`60_exceptions.md` R102), and output validity (`60_exceptions.md` R112). -/

namespace Sys2Proof.Machine

open Sys2Proof

/-- The kind of an allocated entry. -/
def kindAt (s : State) (i : Nat) : Option NodeKind := (nodeRead s i).map (·.kind)

/-- The symbol of an allocated entry. -/
def symAt (s : State) (i : Nat) : Option Sym := (nodeRead s i).map (·.sym)

/-- The left child of an allocated entry. -/
def leftAt (s : State) (i : Nat) : Option Nat := (nodeRead s i).bind (·.left)

/-- The right child of an allocated entry. -/
def rightAt (s : State) (i : Nat) : Option Nat := (nodeRead s i).bind (·.right)

/-- The entries that have `i` as a child. -/
def parentsOf (s : State) (i : Nat) : List Nat :=
  (List.range s.nodeCount.toNat).filter fun p => decide (leftAt s p = some i) || decide (rightAt s p = some i)

/-- The allocated LEAF entries. -/
def leafEntries (s : State) : List Nat :=
  (List.range s.nodeCount.toNat).filter fun i => decide (kindAt s i = some .leaf)

/-- The states in which a fault code can be raised (`60_exceptions.md` R102). -/
def FaultCode.raisedIn : FaultCode → Fsm → Bool
  | .none, _ => false
  | .malformedHeader, f => f == .hdrBit || f == .hdrSym
  | .truncatedPayload, f => f == .sep || f == .walk
  | .badSymbol, f => f == .hdrSym
  | .treeOverflow, f => f == .hdrBit || f == .hdrSym
  | .degenerateTree, f => f == .hdrSym
  | .aborted, f => f.isBusy

/-- The fault record says a fault that can have happened, exactly while `fsm = FAULT` (`10_state.md` R25;
`60_exceptions.md` R102, R111). -/
abbrev FaultRecordOk (s : State) : Prop :=
  (s.fsm = .fault → s.fcode.raisedIn s.fstate = true) ∧
  (s.fsm ≠ .fault → s.fcode = .none ∧ s.fstate = .idle)

/-- Node memory and its bookkeeping (`10_state.md` R15 to R18, R38 items 3, 4 and 8; `41_tree_deserializer.md` R76,
R77). Entry 0 is the root, and every child is allocated after its parent. -/
structure TreeInv (s : State) : Prop where
  canonical : NodeMem.wf s.nodes = true
  countBounded : s.nodeCount.toNat ≤ s.cfg.nodeCap
  written : ∀ i < s.nodeCount.toNat, (nodeRead s i).isSome = true
  rootIsEntryZero : s.root = if s.nodeCount = 0 then none else some 0
  leafShape : ∀ i < s.nodeCount.toNat, kindAt s i = some .leaf →
    leftAt s i = none ∧ rightAt s i = none ∧ ∀ x ∈ symAt s i, x ≤ eosSym
  internalShape : ∀ i < s.nodeCount.toNat, kindAt s i = some .internal → symAt s i = some nas
  leftAllocated : ∀ i < s.nodeCount.toNat, ∀ c ∈ leftAt s i, i < c ∧ c < s.nodeCount.toNat
  rightAllocated : ∀ i < s.nodeCount.toNat, ∀ c ∈ rightAt s i, i < c ∧ c < s.nodeCount.toNat
  stackOpen : ∀ t ∈ s.stack, kindAt s t = some .internal ∧ rightAt s t = none
  stackNodup : s.stack.Nodup
  offStackComplete : ∀ i < s.nodeCount.toNat, kindAt s i = some .internal → i ∉ s.stack →
    (leftAt s i).isSome = true ∧ (rightAt s i).isSome = true
  oneParent : ∀ i < s.nodeCount.toNat, i ≠ 0 → (parentsOf s i).length = 1
  leafCountExact : s.leafCount.toNat = (leafEntries s).length

/-- The sequencer's invariants (`10_state.md` R38 items 2, 5, 6 and 7; `41_tree_deserializer.md` R77,
R82). -/
structure PhaseInv (s : State) : Prop where
  symbolFits : s.symAcc.toNat < 2 ^ s.cfg.symBits
  fieldOpen : s.fsm = .hdrSym → s.symCnt.val < s.cfg.symBits
  headerOpen : s.fsm = .hdrBit ∨ s.fsm = .hdrSym → s.root ≠ none → s.stack ≠ []
  walkerParked : s.fsm = .hdrBit ∨ s.fsm = .hdrSym → s.cur = none
  treeComplete : s.fsm = .sep ∨ s.fsm = .walk → s.stack = [] ∧ kindAt s 0 = some .internal
  walkerInside : s.fsm = .walk → ∃ c, s.cur = some c ∧ kindAt s c = some .internal
  doneAtEos : s.fsm = .done →
    (∃ c, s.cur = some c ∧ kindAt s c = some .leaf ∧ symAt s c = some eosSym) ∨
    (s.cur = none ∧ kindAt s 0 = some .leaf ∧ symAt s 0 = some eosSym)

/-- The state invariants (`10_state.md` R38), for an instance with legal parameters. -/
structure Inv (s : State) : Prop where
  legal : s.cfg.Legal
  tree : TreeInv s
  phase : PhaseInv s
  /-- every bit of `wr_acc` not yet written is 0 (`10_state.md` R21, R38 item 9) -/
  writerPadding : ∀ i < 8, s.wrCnt.val ≤ i → streamBit s.cfg.bitOrder s.wrAcc i = false
  faultRecord : FaultRecordOk s

/-- The bytes of a decode are a valid result iff it reached DONE (`60_exceptions.md` R112). -/
abbrev outputValid (s : State) : Prop := s.fsm = .done

/-- The decode state a bit phase is (`10_state.md` R12). -/
def phaseFsm : BitPhase → Fsm
  | .hdrBit => .hdrBit
  | .hdrSym => .hdrSym
  | .walk => .walk

/-- `BUSY_REJECT` (`43_control.md` R95). -/
def busyRejected : Instr → Bool
  | .nop => false
  | .decStart => true
  | .decAbort => false
  | .rdBit => true
  | .rdByte => true
  | .wrBit _ => true
  | .wrByte _ => true
  | .wrFlush => true
  | .clrErr => false
  | .softReset => false
  | .hdrNode => false
  | .hdrLeaf _ => false
  | .sep _ => false
  | .payLeft => false
  | .payRight => false

/-- The step of this state is the block's own: no host move is left, or the next move is a block step or a poll whose
condition does not hold yet. -/
def blockTurn (s : State) : Bool :=
  match s.sched with
  | [] => true
  | .block :: _ => true
  | .waitCmd :: _ => s.cmdPend
  | .waitIdle :: _ => s.cmdPend || busy s
  | _ => false

/-- The step of this state executes the latched command `i` (`43_control.md` R95). -/
abbrev runsCommand (i : Instr) (s : State) : Prop :=
  blockTurn s = true ∧ s.cmdPend = true ∧ decodeCommand s.cmdWord = .ok i

/-- The step of this state is the platform's RST (`70_reset_and_hazards.md` R118). -/
def resetTurn (s : State) : Bool := s.sched.head? == some .rst

/-- The state the block's own step runs on: this one when no move is left, and this one with its block move taken
when that is the next. -/
def blockView (s : State) : Option State :=
  match s.sched with
  | [] => some s
  | .block :: rest => some { s with sched := rest }
  | _ => none

/-- The one word `w` of OPC `opc` is the command `i`, and every other word of that OPC is illegal: it sets err_illegal
and has no other effect (`30_encoding.md` R56, R57; `43_control.md` R95). -/
def encodedOnlyAs (opc : Byte) (w : Word) (i : Instr) : Prop :=
  (∀ s : State, s.cmdWord = w → commandStep s = exec i s) ∧
  (∀ s : State, opcOf s.cmdWord = opc → s.cmdWord ≠ w →
    commandStep s = .next { s with errIllegal := true, cmdPend := false })

/-- A latched RD command that holds (`70_reset_and_hazards.md` R126). -/
def heldRead (s : State) : Prop :=
  s.cmdPend = true ∧ busy s = false ∧ s.srcQ = [] ∧ s.srcClosed = false ∧
    ((decodeCommand s.cmdWord = .ok .rdBit ∧ s.rdRem = 0) ∨ decodeCommand s.cmdWord = .ok .rdByte)

/-- The step of this state is a host write of CMD, by name or by address (`43_control.md` R94). -/
def cmdWriteTurn (s : State) : Prop :=
  (∃ w rest, s.sched = .writeReg .cmd w :: rest) ∨
  (∃ a w rest, s.sched = .bus a :: rest ∧ busTarget Config.base a = .ok .cmd ∧ a.data = some w)

/-- The unsigned value of bits, most significant first (`30_encoding.md` R63). -/
def fieldValue (bits : List Bool) : Nat :=
  ((List.range bits.length).map fun k => (bits.getD k false).toNat * 2 ^ (bits.length - 1 - k)).sum

/-- A safe run of `k` steps: no step of it stops the model. -/
def SafeRun (k : Nat) (s : State) : Prop := ∃ t, Sys2Proof.core.run k s = .next t

end Sys2Proof.Machine
end

