-- ==== Sys2Proof/Certificates/Slice0/Obligations.lean ====
section
/-! DEFINITION. The statements for the provers. Each docstring names the rules of spec/ the statement formalises; where
one rests on the model's own choice, it names the assumption log's row. -/

open Sys2Proof Sys2Proof.Machine

/-! ### Encoding -/

/-- Words and tokens written out from the encodings of `30_encoding.md` R56, R62, R66, R67 decode to the instructions
they stand for. -/
def Obligations.CommandWordsDecode : Prop :=
  decode (.command 0x00000000) = .ok .nop ∧
  decode (.command 0x00000100) = .ok .decStart ∧
  decode (.command 0x00000200) = .ok .decAbort ∧
  decode (.command 0x00001000) = .ok .rdBit ∧
  decode (.command 0x00001100) = .ok .rdByte ∧
  decode (.command 0x00002000) = .ok (.wrBit 0) ∧
  decode (.command 0x00002001) = .ok (.wrBit 1) ∧
  decode (.command 0x00002100) = .ok (.wrByte 0x00) ∧
  decode (.command 0x0000213C) = .ok (.wrByte 0x3C) ∧
  decode (.command 0x00002200) = .ok .wrFlush ∧
  decode (.command 0x00003000) = .ok .clrErr ∧
  decode (.command 0x00003F00) = .ok .softReset ∧
  decode (.bit .hdrBit false) = .ok .hdrNode ∧
  decode (.bit .hdrBit true) = .ok (.hdrLeaf .marker) ∧
  decode (.bit .hdrSym true) = .ok (.hdrLeaf (.field true)) ∧
  decode (.separator 0xFF) = .ok (.sep 0xFF) ∧
  decode (.bit .walk false) = .ok .payLeft ∧
  decode (.bit .walk true) = .ok .payRight

/-- Decoder and encoder agree in both directions: what decodes to `i` is exactly the encoding of `i`, and `i` is
well-formed (`30_encoding.md` R55, R56, R62, R66, R67). -/
def Obligations.DecodeEncodeAgree : Prop :=
  ∀ (f : Fetched) (i : Instr), decode f = .ok i ↔ i.wellFormed = true ∧ encode i = f

/-- `30_encoding.md` R56: a word is the command of a row iff it matches the row's mask and match; every legal word
matches exactly one row, and the decoder reads that row's command. -/
def Obligations.TableRowsDecideLegality : Prop :=
  ∀ w : Word,
    (∀ i, decodeCommand w = .ok i →
      ∃ r, r ∈ commandTable ∧ w &&& r.mask = r.pattern ∧ r.mnemonic = i.mnemonic) ∧
    (∀ r, r ∈ commandTable → w &&& r.mask = r.pattern →
      ∃ i, decodeCommand w = .ok i ∧ i.mnemonic = r.mnemonic ∧ encode i = .command w) ∧
    (∀ r r', r ∈ commandTable → r' ∈ commandTable → w &&& r.mask = r.pattern → w &&& r'.mask = r'.pattern → r = r')

/-- `30_encoding.md` R57: legality, the four conditions of illegality, and the only effect of an illegal word. -/
def Obligations.IllegalWords : Prop :=
  (∀ w : Word, (∃ i, decodeCommand w = .ok i) ↔ ∃ r, r ∈ commandTable ∧ w &&& r.mask = r.pattern) ∧
  (∀ w : Word, (∃ e, decodeCommand w = .error e) ↔
    w.extractLsb' 16 16 ≠ 0 ∨
    w.extractLsb' 8 8 ∉ [0x00#8, 0x01#8, 0x02#8, 0x10#8, 0x11#8, 0x20#8, 0x21#8, 0x22#8, 0x30#8, 0x3F#8] ∨
    (w.extractLsb' 8 8 ∈ [0x00#8, 0x01#8, 0x02#8, 0x10#8, 0x11#8, 0x22#8, 0x30#8, 0x3F#8] ∧ w.extractLsb' 0 8 ≠ 0) ∨
    (w.extractLsb' 8 8 = 0x20#8 ∧ w.extractLsb' 1 7 ≠ 0)) ∧
  (∀ (s : State) (e : Reject), s.cmdPend = true → decodeCommand s.cmdWord = .error e →
    blockStep s = .next { s with errIllegal := true, cmdPend := false })

/-- `30_encoding.md` R59: a command line assembles to its command, with the operand it was given; WR_BIT takes 0 or 1,
WR_BYTE a byte, and every other command none. The line is one CMD write of that command's word, and `X` adds WAIT_CMD.
WR_BITS and WR_SYM are an `X WR_BIT` per bit, and the symbol field that WR_SYM writes reads back as the symbol (R63). That
a line is taken from its mnemonic and its operand's number on, and not from its text, is the model's choice (assumption
log 22). -/
def Obligations.AssemblerLines : Prop :=
  (∀ m op i, assemble m op = some i →
    i.mnemonic = m ∧ ∃ w, wordOf i = some w ∧ decodeCommand w = .ok i ∧ issue i = [.writeReg .cmd w, .waitCmd]) ∧
  (∀ r, r ∈ commandTable → ∃ op i, assemble r.mnemonic op = some i ∧ i.mnemonic = r.mnemonic) ∧
  (∀ b : Nat, assemble "WR_BIT" (some b) = if b < 2 then some (.wrBit (BitVec.ofNat 8 b)) else none) ∧
  (∀ v : Nat, assemble "WR_BYTE" (some v) = if v < 256 then some (.wrByte (BitVec.ofNat 8 v)) else none) ∧
  (∀ m op i, assemble m op = some i → (op = none ↔ m ≠ "WR_BIT" ∧ m ≠ "WR_BYTE")) ∧
  (∀ bits : List Bool, writeBits bits =
    bits.flatMap fun b => [.writeReg .cmd (if b then 0x00002001 else 0x00002000), .waitCmd]) ∧
  (∀ (n : Nat) (sym : Sym), writeSymbol n sym = writeBits (symbolField n sym)) ∧
  (∀ (n : Nat) (sym : Sym), n ≤ 15 → sym.toNat < 2 ^ n →
    (symbolField n sym).length = n ∧ fieldValue (symbolField n sym) = sym.toNat)

/-! ### The step -/

/-- When the step is the block's own, it is the block step (`43_control.md` R95), and it runs the decoded instruction:
the latched command on the state as it is, a stream token on the state its bit or byte was read into. That the next step
is the block's when no move is left in the schedule is the model's choice (assumption log 3), and so is the split of a
LEAF token over its steps (assumption log 11). -/
def Obligations.StepRunsDecodedInstruction : Prop :=
  ∀ s r : State, blockView s = some r →
    step s = blockStep r ∧
    (∀ i, s.cmdPend = true → decode (.command s.cmdWord) = .ok i → step s = exec i r) ∧
    (∀ p b t i, s.cmdPend = false → s.fsm = phaseFsm p → readBit r = .got b t → decode (.bit p b) = .ok i →
      step s = exec i t) ∧
    (∀ v t i, s.cmdPend = false → s.fsm = .sep → getByte r = .got v t → decode (.separator v) = .ok i →
      step s = exec i t)

/-- `43_control.md` R95: which step the block has, the two rejections, the BUSY_REJECT set, and the latch emptied by
every command but a holding RD. A block that has no step changes nothing. -/
def Obligations.BlockStepSelection : Prop :=
  (∀ i, busyRejected i = true ↔
    i = .decStart ∨ i = .rdBit ∨ i = .rdByte ∨ (∃ b, i = .wrBit b) ∨ (∃ v, i = .wrByte v) ∨ i = .wrFlush) ∧
  (∀ s : State,
    (s.cmdPend = true →
      (∀ e, decodeCommand s.cmdWord = .error e → blockStep s = .next { s with errIllegal := true, cmdPend := false }) ∧
      (∀ i, decodeCommand s.cmdWord = .ok i →
        blockStep s = exec i s ∧
        (busyRejected i = true → busy s = true → blockStep s = .next { s with errBusy := true, cmdPend := false }) ∧
        (∀ t, blockStep s = .next t →
          t.cmdPend = false ∨ (t = s ∧ busy s = false ∧ (i = .rdBit ∨ i = .rdByte))))) ∧
    (s.cmdPend = false →
      (s.fsm = .hdrBit → blockStep s = bitStep .hdrBit s) ∧
      (s.fsm = .hdrSym → blockStep s = bitStep .hdrSym s) ∧
      (s.fsm = .sep → blockStep s = sepStep s) ∧
      (s.fsm = .walk → blockStep s = bitStep .walk s) ∧
      (busy s = false → ∀ t, blockStep s = .next t → t = s)))

/-- `60_exceptions.md` R110: a latched command before the FSM step; legality before the BUSY test; END before every
other fault; BAD_SYMBOL before TREE_OVERFLOW; DEGENERATE_TREE only after a successful allocation; a latched DEC_ABORT
before the FSM step that is due. -/
def Obligations.StepPriority : Prop :=
  (∀ s : State, s.cmdPend = true → blockStep s = commandStep s) ∧
  (∀ (s : State) (e : Reject), s.cmdPend = true → busy s = true → decodeCommand s.cmdWord = .error e →
    blockStep s = .next { s with errIllegal := true, cmdPend := false }) ∧
  (∀ (s : State) (p : BitPhase), s.cmdPend = false → s.fsm = phaseFsm p → s.rdRem = 0 → s.srcQ = [] →
    s.srcClosed = true →
    blockStep s = .next { s with
      fstate := s.fsm, fcode := (if p = .walk then .truncatedPayload else .malformedHeader), fsm := .fault }) ∧
  (∀ (s : State) (b : Bool), s.cfg.Legal → s.symCnt.val + 1 = s.cfg.symBits → s.nodeCount.toNat = s.cfg.nodeCap →
    256 < (2 * s.symAcc.toNat + b.toNat) % 2 ^ s.cfg.symBits →
    ∃ t, exec (.hdrLeaf (.field b)) s = .next t ∧ t.fsm = .fault ∧ t.fcode = .badSymbol) ∧
  (∀ (s t : State) (b : Bool), s.cfg.Legal → exec (.hdrLeaf (.field b)) s = .next t → s.fcode ≠ .degenerateTree →
    t.fcode = .degenerateTree → s.nodeCount.toNat < s.cfg.nodeCap ∧ t.nodeCount = s.nodeCount + 1) ∧
  (∀ s : State, s.cmdPend = true → s.cmdWord = 0x00000200 → busy s = true →
    blockStep s = .next { s with fstate := s.fsm, fcode := .aborted, fsm := .fault, cmdPend := false })

/-! ### The commands -/

/-- `43_control.md` R96: NOP writes only the latch. -/
def Obligations.NopCommand : Prop :=
  encodedOnlyAs 0x00 0x00000000 .nop ∧
  ∀ s : State, exec .nop s = .next { s with cmdPend := false }

/-- `43_control.md` R97: the fields DEC_START writes, and that it is rejected while BUSY. What node memory holds after
it is unspecified, so the statement leaves it open. -/
def Obligations.DecStartCommand : Prop :=
  encodedOnlyAs 0x01 0x00000100 .decStart ∧
  (∀ s : State, busy s = true → exec .decStart s = .next { s with errBusy := true, cmdPend := false }) ∧
  (∀ s : State, busy s = false →
    ∃ mem, exec .decStart s = .next { s with
      rdRem := 0, nodeCount := 0, stack := [], root := none, cur := none, symAcc := 0, symCnt := 0, leafCount := 0,
      outCount := 0, fcode := .none, fstate := .idle, fsm := .hdrBit, cmdPend := false, nodes := mem })

/-- `43_control.md` R98: DEC_ABORT raises ABORTED while BUSY and does nothing otherwise. -/
def Obligations.DecAbortCommand : Prop :=
  encodedOnlyAs 0x02 0x00000200 .decAbort ∧
  (∀ s : State, busy s = true →
    exec .decAbort s = .next { s with fstate := s.fsm, fcode := .aborted, fsm := .fault, cmdPend := false }) ∧
  (∀ s : State, busy s = false → exec .decAbort s = .next { s with cmdPend := false })

/-- `43_control.md` R99: CLR_ERR clears the three error flags, BUSY or not, and touches nothing else. -/
def Obligations.ClrErrCommand : Prop :=
  encodedOnlyAs 0x30 0x00003000 .clrErr ∧
  ∀ s : State, exec .clrErr s = .next { s with
    errIllegal := false, errBusy := false, errOverrun := false, cmdPend := false }

/-- `43_control.md` R100, with `70_reset_and_hazards.md` R119: SOFT_RESET resets every block element, BUSY or not, and
leaves the host's streams alone. What node memory holds afterwards is unspecified, so the statement leaves it open. -/
def Obligations.SoftResetCommand : Prop :=
  encodedOnlyAs 0x3F 0x00003F00 .softReset ∧
  ∀ s : State, ∃ mem, exec .softReset s = .next { s with
    fsm := .idle, cur := none, root := none, stack := [], symAcc := 0, symCnt := 0, nodeCount := 0, leafCount := 0,
    outCount := 0, rdByte := 0, rdRem := 0, wrAcc := 0, wrCnt := 0, cmdPend := false, cmdWord := 0, rdata := 0,
    rvalid := false, errIllegal := false, errBusy := false, errOverrun := false, fcode := .none, fstate := .idle,
    nodes := mem }

/-- `40_bitstream_io.md` R71: RD_BIT's result in each case of the source, its rejections, and its hold, which has no
effect at all (`00_scope.md` R10). -/
def Obligations.RdBitCommand : Prop :=
  encodedOnlyAs 0x10 0x00001000 .rdBit ∧
  (∀ s : State, busy s = true → exec .rdBit s = .next { s with errBusy := true, cmdPend := false }) ∧
  (∀ s : State, busy s = false →
    (s.rdRem ≠ 0 → exec .rdBit s = .next { s with
      rdata := (if s.rdByte.getLsbD (match s.cfg.bitOrder with
        | .msbFirst => 7 - (8 - s.rdRem.val)
        | .lsbFirst => 8 - s.rdRem.val) then 0x001 else 0x000),
      rvalid := true, rdRem := s.rdRem - 1, cmdPend := false }) ∧
    (∀ v q, s.rdRem = 0 → s.srcQ = v :: q → exec .rdBit s = .next { s with
      rdata := (if v.getLsbD (match s.cfg.bitOrder with | .msbFirst => 7 | .lsbFirst => 0) then 0x001 else 0x000),
      rvalid := true, rdByte := v, rdRem := 7, srcQ := q, cmdPend := false }) ∧
    (s.rdRem = 0 → s.srcQ = [] → s.srcClosed = true →
      exec .rdBit s = .next { s with rdata := 0x100, rvalid := true, cmdPend := false }) ∧
    (s.rdRem = 0 → s.srcQ = [] → s.srcClosed = false → ∀ t, exec .rdBit s = .next t → t = s))

/-- `40_bitstream_io.md` R72: RD_BYTE's result in each case of the source; the partial byte is discarded, unless it
holds, which has no effect at all (`00_scope.md` R10). -/
def Obligations.RdByteCommand : Prop :=
  encodedOnlyAs 0x11 0x00001100 .rdByte ∧
  (∀ s : State, busy s = true → exec .rdByte s = .next { s with errBusy := true, cmdPend := false }) ∧
  (∀ s : State, busy s = false →
    (∀ v q, s.srcQ = v :: q → exec .rdByte s = .next { s with
      rdata := 0x200#10 ||| v.setWidth 10, rvalid := true, rdRem := 0, srcQ := q, cmdPend := false }) ∧
    (s.srcQ = [] → s.srcClosed = true →
      exec .rdByte s = .next { s with rdata := 0x300, rvalid := true, rdRem := 0, cmdPend := false }) ∧
    (s.srcQ = [] → s.srcClosed = false → ∀ t, exec .rdByte s = .next t → t = s))

/-- `40_bitstream_io.md` R73, with `20_memory.md` R46: WR_BIT writes OPD[0] at the writer's position, bit by bit, and
emits the byte when it is the eighth. -/
def Obligations.WrBitCommand : Prop :=
  (∀ (s : State) (b : Bool), s.cmdWord = 0x00002000 ||| (BitVec.ofBool b).setWidth 32 →
    commandStep s = exec (.wrBit ((BitVec.ofBool b).setWidth 8)) s) ∧
  (∀ s : State, opcOf s.cmdWord = 0x20 → (s.cmdWord.extractLsb' 1 7 ≠ 0 ∨ s.cmdWord.extractLsb' 16 16 ≠ 0) →
    commandStep s = .next { s with errIllegal := true, cmdPend := false }) ∧
  (∀ (s : State) (opd : Byte), busy s = true →
    exec (.wrBit opd) s = .next { s with errBusy := true, cmdPend := false }) ∧
  (∀ (s : State) (opd : Byte), busy s = false →
    ∃ acc : Byte,
      (∀ j, j < 8 → acc.getLsbD j =
        if j = (match s.cfg.bitOrder with | .msbFirst => 7 - s.wrCnt.val | .lsbFirst => s.wrCnt.val) then opd.getLsbD 0
        else s.wrAcc.getLsbD j) ∧
      (s.wrCnt ≠ 7 → exec (.wrBit opd) s = .next { s with wrAcc := acc, wrCnt := s.wrCnt + 1, cmdPend := false }) ∧
      (s.wrCnt = 7 → exec (.wrBit opd) s = .next { s with
        snk := s.snk ++ [acc], wrAcc := 0, wrCnt := 0, cmdPend := false }))

/-- `40_bitstream_io.md` R74, with `20_memory.md` R47: WR_BYTE emits the byte, after the padded partial byte when there
is one. -/
def Obligations.WrByteCommand : Prop :=
  (∀ (s : State) (v : Byte), s.cmdWord = 0x00002100 ||| v.setWidth 32 → commandStep s = exec (.wrByte v) s) ∧
  (∀ s : State, opcOf s.cmdWord = 0x21 → s.cmdWord.extractLsb' 16 16 ≠ 0 →
    commandStep s = .next { s with errIllegal := true, cmdPend := false }) ∧
  (∀ (s : State) (v : Byte), busy s = true →
    exec (.wrByte v) s = .next { s with errBusy := true, cmdPend := false }) ∧
  (∀ (s : State) (v : Byte), busy s = false →
    (s.wrCnt = 0 → exec (.wrByte v) s = .next { s with snk := s.snk ++ [v], cmdPend := false }) ∧
    (s.wrCnt ≠ 0 → exec (.wrByte v) s = .next { s with
      snk := s.snk ++ [s.wrAcc, v], wrAcc := 0, wrCnt := 0, cmdPend := false }))

/-- `40_bitstream_io.md` R75, with `20_memory.md` R48: WR_FLUSH emits the partial byte when there is one and changes
nothing otherwise. -/
def Obligations.WrFlushCommand : Prop :=
  encodedOnlyAs 0x22 0x00002200 .wrFlush ∧
  (∀ s : State, busy s = true → exec .wrFlush s = .next { s with errBusy := true, cmdPend := false }) ∧
  (∀ s : State, busy s = false →
    (s.wrCnt = 0 → exec .wrFlush s = .next { s with cmdPend := false }) ∧
    (s.wrCnt ≠ 0 → exec .wrFlush s = .next { s with
      snk := s.snk ++ [s.wrAcc], wrAcc := 0, wrCnt := 0, cmdPend := false }))

/-- `70_reset_and_hazards.md` R124: while BUSY the six stream commands only set ERR_BUSY. -/
def Obligations.DecodeExclusivity : Prop :=
  ∀ (s : State) (i : Instr), busy s = true → s.cmdPend = true → decodeCommand s.cmdWord = .ok i →
    (i = .decStart ∨ i = .rdBit ∨ i = .rdByte ∨ (∃ b, i = .wrBit b) ∨ (∃ v, i = .wrByte v) ∨ i = .wrFlush) →
    blockStep s = .next { s with errBusy := true, cmdPend := false }

/-! ### The header -/

/-- `41_tree_deserializer.md` R79, with R77 and R78: the HDR_BIT step on a hold, on END, on a leaf marker, and on a NODE
in each case of allocation and Attach. -/
def Obligations.HdrBitStep : Prop :=
  (∀ s : State, s.cmdPend = false → s.fsm = .hdrBit →
    (s.rdRem = 0 → s.srcQ = [] → s.srcClosed = false → ∀ t, blockStep s = .next t → t = s) ∧
    (s.rdRem = 0 → s.srcQ = [] → s.srcClosed = true →
      blockStep s = .next { s with fstate := .hdrBit, fcode := .malformedHeader, fsm := .fault }) ∧
    (∀ t, readBit s = .got true t → blockStep s = exec (.hdrLeaf .marker) t) ∧
    (∀ t, readBit s = .got false t → blockStep s = exec .hdrNode t)) ∧
  (∀ s : State, exec (.hdrLeaf .marker) s = .next { s with symAcc := 0, symCnt := 0, fsm := .hdrSym }) ∧
  (∀ s : State, s.nodeCount.toNat = s.cfg.nodeCap →
    exec .hdrNode s = .next { s with fstate := s.fsm, fcode := .treeOverflow, fsm := .fault }) ∧
  (∀ s : State, s.cfg.Legal → s.nodeCount.toNat < s.cfg.nodeCap →
    (s.root = none → exec .hdrNode s = .next { s with
      nodes := NodeMem.write s.nodes s.nodeCount.toNat ⟨.internal, 257, none, none⟩, nodeCount := s.nodeCount + 1,
      root := some s.nodeCount.toNat, stack := s.nodeCount.toNat :: s.stack }) ∧
    (∀ r top below p, s.root = some r → s.stack = top :: below → nodeRead s top = some p → p.left = none →
      exec .hdrNode s = .next { s with
        nodes := NodeMem.write (NodeMem.write s.nodes s.nodeCount.toNat ⟨.internal, 257, none, none⟩) top
          { p with left := some s.nodeCount.toNat },
        nodeCount := s.nodeCount + 1, stack := s.nodeCount.toNat :: top :: below }) ∧
    (∀ r top below p, s.root = some r → s.stack = top :: below → nodeRead s top = some p → p.left ≠ none →
      exec .hdrNode s = .next { s with
        nodes := NodeMem.write (NodeMem.write s.nodes s.nodeCount.toNat ⟨.internal, 257, none, none⟩) top
          { p with right := some s.nodeCount.toNat },
        nodeCount := s.nodeCount + 1, stack := s.nodeCount.toNat :: below }))

/-- `41_tree_deserializer.md` R80: the HDR_SYM step on a hold, on END, and on a field bit; the accumulator's new value
in numbers, and CompleteLeaf in the step of the last bit. -/
def Obligations.HdrSymStep : Prop :=
  (∀ s : State, s.cmdPend = false → s.fsm = .hdrSym →
    (s.rdRem = 0 → s.srcQ = [] → s.srcClosed = false → ∀ t, blockStep s = .next t → t = s) ∧
    (s.rdRem = 0 → s.srcQ = [] → s.srcClosed = true →
      blockStep s = .next { s with fstate := .hdrSym, fcode := .malformedHeader, fsm := .fault }) ∧
    (∀ b t, readBit s = .got b t → blockStep s = exec (.hdrLeaf (.field b)) t)) ∧
  (∀ (s : State) (b : Bool), s.cfg.Legal →
    (s.symCnt.val + 1 ≠ s.cfg.symBits → exec (.hdrLeaf (.field b)) s = .next { s with
      symAcc := BitVec.ofNat 15 ((2 * s.symAcc.toNat + b.toNat) % 2 ^ s.cfg.symBits), symCnt := s.symCnt + 1 }) ∧
    (s.symCnt.val + 1 = s.cfg.symBits → exec (.hdrLeaf (.field b)) s = completeLeaf { s with
      symAcc := BitVec.ofNat 15 ((2 * s.symAcc.toNat + b.toNat) % 2 ^ s.cfg.symBits), symCnt := s.symCnt + 1 }))

/-- `41_tree_deserializer.md` R81 and R82: what the step of a leaf's last field bit does: BAD_SYMBOL, TREE_OVERFLOW, the
leaf attached as root, left or right child, and the end of the header. `v` is the completed field. -/
def Obligations.LeafCompletion : Prop :=
  ∀ (s : State) (b : Bool) (v : Sym), s.cfg.Legal → s.symCnt.val + 1 = s.cfg.symBits →
    v.toNat = (2 * s.symAcc.toNat + b.toNat) % 2 ^ s.cfg.symBits →
    (256 < v.toNat → exec (.hdrLeaf (.field b)) s = .next { s with
      symAcc := v, symCnt := s.symCnt + 1, fstate := s.fsm, fcode := .badSymbol, fsm := .fault }) ∧
    (v.toNat ≤ 256 → s.nodeCount.toNat = s.cfg.nodeCap → exec (.hdrLeaf (.field b)) s = .next { s with
      symAcc := v, symCnt := s.symCnt + 1, fstate := s.fsm, fcode := .treeOverflow, fsm := .fault }) ∧
    (v.toNat ≤ 256 → s.nodeCount.toNat < s.cfg.nodeCap →
      (s.root = none → s.stack = [] → v.toNat = 256 → exec (.hdrLeaf (.field b)) s = .next { s with
        symAcc := v, symCnt := s.symCnt + 1, leafCount := s.leafCount + 1, nodeCount := s.nodeCount + 1,
        nodes := NodeMem.write s.nodes s.nodeCount.toNat ⟨.leaf, v, none, none⟩, root := some s.nodeCount.toNat,
        fsm := .done }) ∧
      (s.root = none → s.stack = [] → v.toNat < 256 → exec (.hdrLeaf (.field b)) s = .next { s with
        symAcc := v, symCnt := s.symCnt + 1, leafCount := s.leafCount + 1, nodeCount := s.nodeCount + 1,
        nodes := NodeMem.write s.nodes s.nodeCount.toNat ⟨.leaf, v, none, none⟩, root := some s.nodeCount.toNat,
        fstate := s.fsm, fcode := .degenerateTree, fsm := .fault }) ∧
      (∀ r top below p, s.root = some r → s.stack = top :: below → nodeRead s top = some p →
        (p.left = none → exec (.hdrLeaf (.field b)) s = .next { s with
          symAcc := v, symCnt := s.symCnt + 1, leafCount := s.leafCount + 1, nodeCount := s.nodeCount + 1,
          nodes := NodeMem.write (NodeMem.write s.nodes s.nodeCount.toNat ⟨.leaf, v, none, none⟩) top
            { p with left := some s.nodeCount.toNat },
          fsm := .hdrBit }) ∧
        (p.left ≠ none → below ≠ [] → exec (.hdrLeaf (.field b)) s = .next { s with
          symAcc := v, symCnt := s.symCnt + 1, leafCount := s.leafCount + 1, nodeCount := s.nodeCount + 1,
          nodes := NodeMem.write (NodeMem.write s.nodes s.nodeCount.toNat ⟨.leaf, v, none, none⟩) top
            { p with right := some s.nodeCount.toNat },
          stack := below, fsm := .hdrBit }) ∧
        (p.left ≠ none → below = [] → kindAt s r = some .internal → exec (.hdrLeaf (.field b)) s = .next { s with
          symAcc := v, symCnt := s.symCnt + 1, leafCount := s.leafCount + 1, nodeCount := s.nodeCount + 1,
          nodes := NodeMem.write (NodeMem.write s.nodes s.nodeCount.toNat ⟨.leaf, v, none, none⟩) top
            { p with right := some s.nodeCount.toNat },
          stack := [], fsm := .sep })))

/-- `30_encoding.md` R63: `SYM_BITS` field bits read one after another from 0 give the unsigned value whose first bit
is the most significant, with no sign extension; a value above 256 raises BAD_SYMBOL and a legal one does not. -/
def Obligations.SymbolFieldValue : Prop :=
  (∀ (n : Nat) (bits : List Bool), n ≤ 15 → bits.length = n →
    (bits.foldl (shiftSymbol n) 0).toNat = fieldValue bits) ∧
  (∀ (s : State) (bits : List Bool) (b : Bool), s.cfg.Legal → bits.length + 1 = s.cfg.symBits →
    s.symCnt.val = bits.length → s.symAcc = bits.foldl (shiftSymbol s.cfg.symBits) 0 →
    ∀ t, exec (.hdrLeaf (.field b)) s = .next t →
      t.symAcc.toNat = fieldValue (bits ++ [b]) ∧
      (256 < fieldValue (bits ++ [b]) → t.fsm = .fault ∧ t.fcode = .badSymbol ∧ t.nodeCount = s.nodeCount) ∧
      (fieldValue (bits ++ [b]) ≤ 256 → s.fcode ≠ .badSymbol → t.fcode ≠ .badSymbol)) ∧
  fieldValue [false, false, true, false, false, false, false, false, true] = 0x41 ∧
  fieldValue [true, false, false, false, false, false, false, false, false] = 256

/-- `41_tree_deserializer.md` R76 and R83, with `30_encoding.md` R61 and R64: from the start of a header, one step per
header bit builds exactly the tree the header serializes, in pre-order, at the bit where the header ends. That the block
steps when no move is left is the model's choice (assumption log 3). -/
def Obligations.HeaderBuildsTree : Prop :=
  ∀ (s : State) (t : Machine.Tree) (rest : List Bool),
    s.cfg.Legal → t.symbolsLegal = true → t.size ≤ s.cfg.nodeCap →
    s.sched = [] → s.cmdPend = false → s.fsm = .hdrBit → s.root = none → s.stack = [] → s.nodeCount = 0 →
    s.leafCount = 0 → unreadBits s = t.header s.cfg.symBits ++ rest →
    (t.header s.cfg.symBits).length = (2 * t.leaves - 1) + s.cfg.symBits * t.leaves ∧
    ∃ u : State, Sys2Proof.core.run (t.header s.cfg.symBits).length s = .next u ∧
      holdsTree u 0 t ∧ u.root = some 0 ∧ u.stack = [] ∧ unreadBits u = rest ∧
      u.nodeCount.toNat = 2 * t.leaves - 1 ∧ u.leafCount.toNat = t.leaves ∧
      (s.rdRem = 0 → u.rdRem.val = (8 - (t.header s.cfg.symBits).length % 8) % 8) ∧
      (t.isNode = true → u.fsm = .sep ∧ u.fcode = s.fcode) ∧
      (t = .leaf eosSym → u.fsm = .done ∧ u.fcode = s.fcode) ∧
      (t.isNode = false → t ≠ .leaf eosSym → u.fsm = .fault ∧ u.fcode = .degenerateTree ∧ u.fstate = .hdrSym) ∧
      u.snk = s.snk ∧ u.wrAcc = s.wrAcc ∧ u.wrCnt = s.wrCnt ∧ u.outCount = s.outCount ∧ u.cur = s.cur ∧
      u.srcClosed = s.srcClosed

/-- `41_tree_deserializer.md` R76 and `60_exceptions.md` R103: a closed source that ends inside the header raises
MALFORMED_HEADER in the step after its last bit, with nothing emitted. That the block
steps when no move is left is the model's choice (assumption log 3). -/
def Obligations.TruncatedHeader : Prop :=
  ∀ (s : State) (t : Machine.Tree) (bits rest : List Bool),
    s.cfg.Legal → t.symbolsLegal = true → t.size ≤ s.cfg.nodeCap →
    s.sched = [] → s.cmdPend = false → s.fsm = .hdrBit → s.root = none → s.stack = [] → s.nodeCount = 0 →
    s.srcClosed = true → unreadBits s = bits → rest ≠ [] → t.header s.cfg.symBits = bits ++ rest →
    ∃ u : State, Sys2Proof.core.run (bits.length + 1) s = .next u ∧ u.fsm = .fault ∧ u.fcode = .malformedHeader ∧
      (u.fstate = .hdrBit ∨ u.fstate = .hdrSym) ∧ unreadBits u = [] ∧ u.snk = s.snk

/-! ### The walk -/

/-- `42_tree_walker.md` R85, with `30_encoding.md` R65, R66: the SEP step on a hold, on END, and on any byte, whose
value has no effect. -/
def Obligations.SepStep : Prop :=
  (∀ s : State, s.cmdPend = false → s.fsm = .sep →
    (s.srcQ = [] → s.srcClosed = false → ∀ t, blockStep s = .next t → t = s) ∧
    (s.srcQ = [] → s.srcClosed = true →
      blockStep s = .next { s with rdRem := 0, fstate := .sep, fcode := .truncatedPayload, fsm := .fault }) ∧
    (∀ v q, s.srcQ = v :: q →
      blockStep s = .next { s with rdRem := 0, srcQ := q, cur := s.root, fsm := .walk })) ∧
  (∀ (s : State) (v : Byte), exec (.sep v) s = .next { s with cur := s.root, fsm := .walk })

/-- `42_tree_walker.md` R86, R87 and R88, with `20_memory.md` R47: the WALK step on a hold, on END, and on a bit: `n` is
the walker's node, `d` the child the bit chooses, and `m` its entry. -/
def Obligations.WalkStep : Prop :=
  (∀ s : State, s.cmdPend = false → s.fsm = .walk →
    (s.rdRem = 0 → s.srcQ = [] → s.srcClosed = false → ∀ t, blockStep s = .next t → t = s) ∧
    (s.rdRem = 0 → s.srcQ = [] → s.srcClosed = true →
      blockStep s = .next { s with fstate := .walk, fcode := .truncatedPayload, fsm := .fault }) ∧
    (∀ t, readBit s = .got false t → blockStep s = exec .payLeft t) ∧
    (∀ t, readBit s = .got true t → blockStep s = exec .payRight t)) ∧
  (∀ (s : State) (right : Bool) (c d : Nat) (n m : Node), s.cur = some c → nodeRead s c = some n →
    (if right then n.right else n.left) = some d → nodeRead s d = some m →
    (m.kind = .internal → exec (if right then .payRight else .payLeft) s = .next { s with cur := some d }) ∧
    (m.kind = .leaf → m.sym = 256 →
      exec (if right then .payRight else .payLeft) s = .next { s with cur := some d, fsm := .done }) ∧
    (m.kind = .leaf → m.sym ≠ 256 → s.wrCnt = 0 →
      exec (if right then .payRight else .payLeft) s = .next { s with
        snk := s.snk ++ [m.sym.setWidth 8], outCount := s.outCount + 1, cur := s.root }) ∧
    (m.kind = .leaf → m.sym ≠ 256 → s.wrCnt ≠ 0 →
      exec (if right then .payRight else .payLeft) s = .next { s with
        snk := s.snk ++ [s.wrAcc, m.sym.setWidth 8], wrAcc := 0, wrCnt := 0, outCount := s.outCount + 1,
        cur := s.root }))

/-- `30_encoding.md` R67 and `42_tree_walker.md` R86 to R88: reading a symbol's path from the root emits exactly its byte
and returns to the root, or ends the decode at EOS; a symbol's code is the path to its leaf, and no path to a leaf is a
prefix of another. That the block
steps when no move is left is the model's choice (assumption log 3). -/
def Obligations.PayloadCode : Prop :=
  (∀ (s : State) (t : Machine.Tree) (r : Nat) (p rest : List Bool) (sym : Sym),
    s.sched = [] → s.cmdPend = false → s.fsm = .walk → s.root = some r → s.cur = some r → holdsTree s r t →
    t.isNode = true → t.symbolAt p = some sym → unreadBits s = p ++ rest →
    ∃ u : State, Sys2Proof.core.run p.length s = .next u ∧ unreadBits u = rest ∧ u.nodes = s.nodes ∧
      u.nodeCount = s.nodeCount ∧ u.root = s.root ∧
      (sym ≠ eosSym → u.fsm = .walk ∧ u.cur = some r ∧ u.outCount = s.outCount + 1 ∧ u.wrCnt = 0 ∧
        u.snk = s.snk ++ (if s.wrCnt = 0 then [] else [s.wrAcc]) ++ [sym.setWidth 8]) ∧
      (sym = eosSym → u.fsm = .done ∧ u.outCount = s.outCount ∧ u.snk = s.snk ∧ u.wrCnt = s.wrCnt ∧
        ∃ c, u.cur = some c ∧ symAt u c = some eosSym)) ∧
  (∀ (t : Machine.Tree) (sym : Sym) (p : List Bool), t.code sym = some p → t.symbolAt p = some sym) ∧
  (∀ (t : Machine.Tree) (p q : List Bool) (x y : Sym), t.symbolAt p = some x → t.symbolAt (p ++ q) = some y → q = [])

/-- `42_tree_walker.md` R92 and R90, for every tree and not only the reference encoder's: from the DEC_START command, a
source that starts with the stream of a message decodes it to DONE, emits exactly the message, and leaves the reader
right after the first EOS code. The number of steps is one per header and payload bit, one for the separator, and the
command step. That the block
steps when no move is left is the model's choice (assumption log 3). -/
def Obligations.DecodesStream : Prop :=
  ∀ (s : State) (t : Machine.Tree) (separator : Byte) (message stream extra : List Byte) (body e : List Bool),
    s.cfg.Legal → t.isNode = true → t.symbolsLegal = true → t.size ≤ s.cfg.nodeCap →
    s.sched = [] → busy s = false → s.cmdPend = true → s.cmdWord = 0x00000100 → s.wrCnt = 0 →
    t.codes message = some body → t.code eosSym = some e → streamOf s.cfg t separator message = some stream →
    s.srcQ = stream ++ extra →
    ∃ u : State,
      Sys2Proof.core.run (1 + (t.header s.cfg.symBits).length + 1 + body.length + e.length) s = .next u ∧
      outputValid u ∧ u.snk = s.snk ++ message ∧ u.outCount = BitVec.ofNat 32 message.length ∧
      u.leafCount.toNat = t.leaves ∧ u.nodeCount.toNat = 2 * t.leaves - 1 ∧ holdsTree u 0 t ∧ u.fcode = .none ∧
      u.cmdPend = false ∧ u.errIllegal = s.errIllegal ∧ u.errBusy = s.errBusy ∧ u.errOverrun = s.errOverrun ∧
      ∃ z, z < 8 ∧ unreadBits u = e ++ List.replicate z false ++ extra.flatMap (byteBits s.cfg.bitOrder)

/-- `30_encoding.md` R69 and `41_tree_deserializer.md` R82: the stream of an empty message decodes to DONE with no
output, and the bytes after it are not read. That the block steps when no move is left is the model's choice (assumption
log 3). -/
def Obligations.DegenerateStream : Prop :=
  (∀ (s : State) (extra : List Byte), s.cfg.Legal → s.sched = [] → busy s = false → s.cmdPend = true →
    s.cmdWord = 0x00000100 → s.srcQ = degenerateStream s.cfg ++ extra →
    ∃ u : State, Sys2Proof.core.run (2 + s.cfg.symBits) s = .next u ∧ outputValid u ∧ u.snk = s.snk ∧
      u.outCount = 0 ∧ u.leafCount = 1 ∧ u.nodeCount = 1 ∧ u.cur = none ∧ u.srcQ = extra ∧
      u.rdRem.val = (8 - (1 + s.cfg.symBits) % 8) % 8) ∧
  degenerateStream Config.default = [0xC0, 0x00] ∧
  degenerateStream { Config.default with bitOrder := .lsbFirst } = [0x03, 0x00]

/-- `42_tree_walker.md` R91, for every tree and not only the reference encoder's: whole bytes cut off the end of a
stream, on a closed source, give DONE with exactly the message where the first EOS code is still whole, and otherwise
MALFORMED_HEADER or TRUNCATED_PAYLOAD with a prefix of the message. The latch is empty at that end, so it is the end of
the decode that the latched DEC_START began, and not the state before it. That the block steps when no move is left is
the model's choice (assumption log 3). -/
def Obligations.TruncatedStream : Prop :=
  ∀ (s : State) (t : Machine.Tree) (separator : Byte) (message kept lost : List Byte) (body e : List Bool),
    s.cfg.Legal → t.isNode = true → t.symbolsLegal = true → t.size ≤ s.cfg.nodeCap →
    s.sched = [] → busy s = false → s.cmdPend = true → s.cmdWord = 0x00000100 → s.wrCnt = 0 →
    t.codes message = some body → t.code eosSym = some e →
    streamOf s.cfg t separator message = some (kept ++ lost) → s.srcQ = kept → s.srcClosed = true →
    ∃ (k : Nat) (u : State), Sys2Proof.core.run k s = .next u ∧ u.cmdPend = false ∧
      (8 * (packBits s.cfg.bitOrder (t.header s.cfg.symBits)).length + 8 + body.length + e.length ≤ 8 * kept.length →
        u.fsm = .done ∧ u.snk = s.snk ++ message) ∧
      (8 * kept.length < 8 * (packBits s.cfg.bitOrder (t.header s.cfg.symBits)).length + 8 + body.length + e.length →
        u.fsm = .fault ∧ (u.fcode = .malformedHeader ∨ u.fcode = .truncatedPayload) ∧
        ∃ emitted rest, message = emitted ++ rest ∧ u.snk = s.snk ++ emitted)

/-! ### Faults and command errors -/

/-- `60_exceptions.md` R103 and R104: the fault of an empty closed source, by the state that needs a bit or a byte. -/
def Obligations.EndOfSourceFaults : Prop :=
  ∀ s : State, s.cmdPend = false → s.srcQ = [] → s.srcClosed = true →
    (s.fsm = .hdrBit ∨ s.fsm = .hdrSym → s.rdRem = 0 →
      blockStep s = .next { s with fstate := s.fsm, fcode := .malformedHeader, fsm := .fault }) ∧
    (s.fsm = .sep →
      blockStep s = .next { s with rdRem := 0, fstate := .sep, fcode := .truncatedPayload, fsm := .fault }) ∧
    (s.fsm = .walk → s.rdRem = 0 →
      blockStep s = .next { s with fstate := .walk, fcode := .truncatedPayload, fsm := .fault })

/-- `60_exceptions.md` R101 and R102, over all instructions: a block step that enters FAULT ran in a decode state, saves
that state in `fstate` and a code the table allows there in `fcode`, and keeps the walker, the counters of bytes, the
sink, the writer, RDATA and the error flags. -/
def Obligations.FaultEntry : Prop :=
  ∀ s t : State, blockStep s = .next t → s.fsm ≠ .fault → t.fsm = .fault →
    busy s = true ∧ t.fstate = s.fsm ∧ t.fcode.raisedIn s.fsm = true ∧ t.cur = s.cur ∧ t.outCount = s.outCount ∧
    t.snk = s.snk ∧ t.wrAcc = s.wrAcc ∧ t.wrCnt = s.wrCnt ∧ t.rdata = s.rdata ∧ t.rvalid = s.rvalid ∧
    t.errIllegal = s.errIllegal ∧ t.errBusy = s.errBusy ∧ t.errOverrun = s.errOverrun ∧
    (t.fcode ≠ .degenerateTree → t.nodes = s.nodes ∧ t.nodeCount = s.nodeCount ∧ t.root = s.root ∧
      t.stack = s.stack ∧ t.leafCount = s.leafCount)

/-- `42_tree_walker.md` R93: no FSM step in IDLE, DONE or FAULT, and DONE and FAULT are left only by DEC_START,
SOFT_RESET or RST. -/
def Obligations.TerminalStates : Prop :=
  (∀ s t : State, s.fsm = .idle ∨ s.fsm = .done ∨ s.fsm = .fault → s.cmdPend = false → blockStep s = .next t →
    t = s) ∧
  (∀ s t : State, s.fsm = .done ∨ s.fsm = .fault → step s = .next t → t.fsm ≠ s.fsm →
    runsCommand .decStart s ∨ runsCommand .softReset s ∨ resetTurn s = true)

/-- `60_exceptions.md` R111: how FAULT is left, where to, and that a fault record is never overwritten while in
FAULT. -/
def Obligations.LeavingFault : Prop :=
  ∀ s t : State, s.fsm = .fault → step s = .next t →
    (t.fsm = .fault ∧ t.fcode = s.fcode ∧ t.fstate = s.fstate) ∨
    (t.fcode = .none ∧ t.fstate = .idle ∧
      ((t.fsm = .hdrBit ∧ runsCommand .decStart s) ∨
        (t.fsm = .idle ∧ (runsCommand .softReset s ∨ resetTurn s = true))))

/-- `42_tree_walker.md` R88, `41_tree_deserializer.md` R82 and `60_exceptions.md` R112, over all instructions: DONE is
entered only at an EOS leaf, by a step that emits nothing. -/
def Obligations.DoneOnlyAtEos : Prop :=
  ∀ s t : State, step s = .next t → s.fsm ≠ .done → t.fsm = .done →
    blockTurn s = true ∧ s.cmdPend = false ∧ t.snk = s.snk ∧ t.outCount = s.outCount ∧
    ((s.fsm = .walk ∧ ∃ c, t.cur = some c ∧ kindAt t c = some .leaf ∧ symAt t c = some eosSym) ∨
     (s.fsm = .hdrSym ∧ ∃ r, t.root = some r ∧ kindAt t r = some .leaf ∧ symAt t r = some eosSym))

/-- `60_exceptions.md` R109: when each error flag is set, with no other effect, and that only CLR_ERR, SOFT_RESET and
RST clear one. -/
def Obligations.CommandErrors : Prop :=
  (∀ s r : State, blockView s = some r → s.cmdPend = true →
    (∀ e, decodeCommand s.cmdWord = .error e → step s = .next { r with errIllegal := true, cmdPend := false }) ∧
    (∀ i, decodeCommand s.cmdWord = .ok i → busyRejected i = true → busy s = true →
      step s = .next { r with errBusy := true, cmdPend := false })) ∧
  (∀ (s : State) (w : Word) (rest : List Move), s.sched = .writeReg .cmd w :: rest → s.cmdPend = true →
    step s = .next { s with errOverrun := true, sched := rest }) ∧
  (∀ s t : State, step s = .next t →
    (t.errIllegal = true → s.errIllegal = true ∨
      (blockTurn s = true ∧ s.cmdPend = true ∧ ∃ e, decodeCommand s.cmdWord = .error e)) ∧
    (t.errBusy = true → s.errBusy = true ∨
      (busy s = true ∧ ∃ i, busyRejected i = true ∧ runsCommand i s)) ∧
    (t.errOverrun = true → s.errOverrun = true ∨ (s.cmdPend = true ∧ cmdWriteTurn s)) ∧
    ((s.errIllegal = true ∧ t.errIllegal = false) ∨ (s.errBusy = true ∧ t.errBusy = false) ∨
      (s.errOverrun = true ∧ t.errOverrun = false) →
      runsCommand .clrErr s ∨ runsCommand .softReset s ∨ resetTurn s = true))

/-! ### The bit layer -/

/-- `20_memory.md` R42, R44 and R45: what SrcFetch, ReadBit and GetByte answer, and what they change, in each case. -/
def Obligations.ReaderPrimitives : Prop :=
  ∀ s : State,
    (∀ v q, s.srcQ = v :: q →
      srcFetch s = .got v { s with srcQ := q } ∧
      getByte s = .got v { s with srcQ := q, rdRem := 0 } ∧
      (s.rdRem = 0 → ∃ b : Bool, readBit s = .got b { s with srcQ := q, rdByte := v, rdRem := 7 } ∧
        (s.cfg.bitOrder = .msbFirst → b = v.getLsbD 7) ∧ (s.cfg.bitOrder = .lsbFirst → b = v.getLsbD 0))) ∧
    (s.srcQ = [] → s.srcClosed = true →
      srcFetch s = .eof s ∧ getByte s = .eof { s with rdRem := 0 } ∧ (s.rdRem = 0 → readBit s = .eof s)) ∧
    (s.srcQ = [] → s.srcClosed = false →
      srcFetch s = .hold ∧ getByte s = .hold ∧ (s.rdRem = 0 → readBit s = .hold)) ∧
    (s.rdRem ≠ 0 → ∃ b : Bool, readBit s = .got b { s with rdRem := s.rdRem - 1 } ∧
      (s.cfg.bitOrder = .msbFirst → b = s.rdByte.getLsbD (s.rdRem.val - 1)) ∧
      (s.cfg.bitOrder = .lsbFirst → b = s.rdByte.getLsbD (8 - s.rdRem.val)))

/-- `20_memory.md` R46, R47 and R48: what WriteBit, PutByte and Flush write, the accumulator bit by bit. -/
def Obligations.WriterPrimitives : Prop :=
  (∀ (s : State) (b : Bool), ∃ acc : Byte,
    (∀ j, j < 8 → acc.getLsbD j =
      if j = (match s.cfg.bitOrder with | .msbFirst => 7 - s.wrCnt.val | .lsbFirst => s.wrCnt.val) then b
      else s.wrAcc.getLsbD j) ∧
    (s.wrCnt.val + 1 < 8 → writeBit b s = { s with wrAcc := acc, wrCnt := s.wrCnt + 1 }) ∧
    (s.wrCnt.val + 1 = 8 → writeBit b s = { s with snk := s.snk ++ [acc], wrAcc := 0, wrCnt := 0 })) ∧
  (∀ (s : State) (v : Byte),
    (s.wrCnt = 0 → putByte v s = { s with snk := s.snk ++ [v] } ∧ flush s = s) ∧
    (s.wrCnt ≠ 0 → putByte v s = { s with snk := s.snk ++ [s.wrAcc, v], wrAcc := 0, wrCnt := 0 } ∧
      flush s = { s with snk := s.snk ++ [s.wrAcc], wrAcc := 0, wrCnt := 0 }))

/-- `20_memory.md` R49: what a writer writes, a reader of the emitted bytes reads back, bits and whole bytes alike; after
it come the zero padding bits of the writer's last partial byte, and then END. A writer with no bit pending has an empty
accumulator (`10_state.md` R21). -/
def Obligations.BitLayerRoundTrip : Prop :=
  ∀ (items : List StreamItem) (w r : State),
    w.wrCnt = 0 → w.wrAcc = 0 → r.cfg.bitOrder = w.cfg.bitOrder → r.rdRem = 0 → r.srcClosed = true →
    (flush (writeItems items w)).snk = w.snk ++ r.srcQ →
    ∃ u v : State, readItems items r = some (items, u) ∧
      readItems (List.replicate ((8 - (writeItems items w).wrCnt.val) % 8) (.bit false)) u =
        some (List.replicate ((8 - (writeItems items w).wrCnt.val) % 8) (.bit false), v) ∧
      readBit v = .eof v

/-! ### The host -/

/-- `43_control.md` R94: a CMD write latches the word in an empty latch, and is discarded as an overrun otherwise. -/
def Obligations.HostWriteCommand : Prop :=
  ∀ (s : State) (w : Word) (rest : List Move), s.sched = .writeReg .cmd w :: rest →
    (s.cmdPend = true → step s = .next { s with errOverrun := true, sched := rest }) ∧
    (s.cmdPend = false → w.extractLsb' 8 8 = 0x10#8 ∨ w.extractLsb' 8 8 = 0x11#8 →
      step s = .next { s with cmdWord := w, cmdPend := true, rvalid := false, sched := rest }) ∧
    (s.cmdPend = false → w.extractLsb' 8 8 ≠ 0x10#8 → w.extractLsb' 8 8 ≠ 0x11#8 →
      step s = .next { s with cmdWord := w, cmdPend := true, sched := rest })

/-- `10_state.md` R30: the fields of STATUS, with the values of R12 and `60_exceptions.md` R102, and its hardwired
zeros. -/
def Obligations.StatusFields : Prop :=
  (∀ s : State,
    (readReg s .status).extractLsb' 0 3 = s.fsm.code ∧ (readReg s .status).getLsbD 3 = false ∧
    (readReg s .status).getLsbD 4 = busy s ∧ (readReg s .status).getLsbD 5 = s.cmdPend ∧
    (readReg s .status).extractLsb' 6 2 = 0 ∧ (readReg s .status).extractLsb' 8 4 = s.fcode.code ∧
    (readReg s .status).getLsbD 12 = s.errIllegal ∧ (readReg s .status).getLsbD 13 = s.errBusy ∧
    (readReg s .status).getLsbD 14 = s.errOverrun ∧ (readReg s .status).getLsbD 15 = s.rvalid ∧
    (readReg s .status).extractLsb' 16 3 = s.fstate.code ∧ (readReg s .status).extractLsb' 19 13 = 0 ∧
    ((readReg s .status).extractLsb' 0 3).toNat ≤ 6 ∧ ((readReg s .status).extractLsb' 8 4).toNat ≤ 6) ∧
  Fsm.code .idle = 0 ∧ Fsm.code .hdrBit = 1 ∧ Fsm.code .hdrSym = 2 ∧ Fsm.code .sep = 3 ∧ Fsm.code .walk = 4 ∧
  Fsm.code .done = 5 ∧ Fsm.code .fault = 6 ∧ FaultCode.code .none = 0 ∧ FaultCode.code .malformedHeader = 1 ∧
  FaultCode.code .truncatedPayload = 2 ∧ FaultCode.code .badSymbol = 3 ∧ FaultCode.code .treeOverflow = 4 ∧
  FaultCode.code .degenerateTree = 5 ∧ FaultCode.code .aborted = 6

/-- `10_state.md` R29 and R31 to R36: what the other seven registers read as. -/
def Obligations.RegisterViews : Prop :=
  (∀ s : State,
    readReg s .cmd = 0 ∧ (readReg s .rdata).extractLsb' 0 10 = s.rdata ∧ (readReg s .rdata).extractLsb' 10 22 = 0 ∧
    readReg s .outCount = s.outCount ∧ readReg s .leafCount = s.leafCount ∧
    (readReg s .nodeCount).extractLsb' 0 16 = s.nodeCount ∧ (readReg s .nodeCount).extractLsb' 16 16 = 0 ∧
    ((readReg s .iostat).extractLsb' 0 4).toNat = s.rdRem.val ∧ (readReg s .iostat).extractLsb' 4 4 = 0 ∧
    ((readReg s .iostat).extractLsb' 8 4).toNat = s.wrCnt.val ∧ (readReg s .iostat).extractLsb' 12 4 = 0 ∧
    (readReg s .iostat).extractLsb' 16 8 = s.wrAcc ∧
    ((readReg s .iostat).extractLsb' 24 4).toNat = s.symCnt.val ∧ (readReg s .iostat).extractLsb' 28 4 = 0) ∧
  (∀ s : State, s.cfg.Legal →
    ((readReg s .config).getLsbD 0 = true ↔ s.cfg.bitOrder = .lsbFirst) ∧ (readReg s .config).extractLsb' 1 3 = 0 ∧
    ((readReg s .config).extractLsb' 4 4).toNat = s.cfg.symBits ∧ (readReg s .config).extractLsb' 8 8 = 0 ∧
    ((readReg s .config).extractLsb' 16 16).toNat = s.cfg.nodeCap) ∧
  configWord Config.default = 0x02010090

/-- `10_state.md` R28 and `20_memory.md` R40: the eight registers at their offsets from BASE; an admitted access is the
named register's, and the model refuses every other access inside the window; BASE is a multiple of 32 (`00_scope.md` R6). -/
def Obligations.RegisterWindow : Prop :=
  Config.base % 32 = 0 ∧
  Reg.offset .cmd = 0x00 ∧ Reg.offset .status = 0x04 ∧ Reg.offset .rdata = 0x08 ∧ Reg.offset .outCount = 0x0C ∧
  Reg.offset .leafCount = 0x10 ∧ Reg.offset .nodeCount = 0x14 ∧ Reg.offset .iostat = 0x18 ∧
  Reg.offset .config = 0x1C ∧
  (∀ (s : State) (a : BusAccess) (rest : List Move), s.sched = .bus a :: rest →
    (∀ r : Reg, a.addr = Config.base + r.offset → a.bits = 32 →
      (a.data = none → step s = step { s with sched := .readReg r :: rest }) ∧
      (∀ w, a.data = some w → step s = step { s with sched := .writeReg r w :: rest })) ∧
    (Config.base ≤ a.addr → a.addr < Config.base + 0x20 → a.bits ≠ 32 ∨ a.addr % 4 ≠ 0 →
      step s = .refused .accessNotAdmitted))

/-- `10_state.md` R37: a register read changes nothing of the block, the streams or the parameters, and neither does a
write to one of the seven read-only registers. -/
def Obligations.RegisterAccessEffects : Prop :=
  ∀ (s : State) (r : Reg) (rest : List Move),
    (s.sched = .readReg r :: rest → ∃ noted, step s = .next { s with sched := rest, seen := noted }) ∧
    (∀ w, s.sched = .writeReg r w :: rest → r ≠ .cmd → step s = .next { s with sched := rest })

/-- The host's moves on its streams and the moves the model refuses (`70_reset_and_hazards.md` R130, `20_memory.md` R40).
The model's choices in it: refusing an access outside the window, a replaced source in use and an emptied sink in use
(assumption log 9), the polls (log 8), what a read notes (log 10), the reading of "latched" (log 17), a second close
(log 18), and that a replaced source leaves the reader's partial byte (log 19). -/
def Obligations.HostMoves : Prop :=
  ∀ (s : State) (rest : List Move),
    (∀ a, s.sched = .bus a :: rest → a.addr < Config.base ∨ Config.base + 0x20 ≤ a.addr →
      step s = .refused .outsideWindow) ∧
    (∀ r, s.sched = .readReg r :: rest →
      step s = .next { s with sched := rest, seen := s.seen ++ [.reg r (readReg s r)] }) ∧
    (s.sched = .waitCmd :: rest →
      (s.cmdPend = false → step s = .next { s with sched := rest }) ∧
      (∀ t, s.cmdPend = true → blockStep { s with sched := rest } = .next t →
        step s = .next { t with sched := .waitCmd :: rest })) ∧
    (s.sched = .waitIdle :: rest →
      (s.cmdPend = false → busy s = false → step s = .next { s with sched := rest }) ∧
      (∀ t, s.cmdPend = true ∨ busy s = true → blockStep { s with sched := rest } = .next t →
        step s = .next { t with sched := .waitIdle :: rest })) ∧
    (∀ bs, s.sched = .push bs :: rest →
      (s.srcClosed = false → step s = .next { s with sched := rest, srcQ := s.srcQ ++ bs }) ∧
      (s.srcClosed = true → step s = .refused .pushAfterClose)) ∧
    (s.sched = .close :: rest → step s = .next { s with sched := rest, srcClosed := true }) ∧
    (∀ bs c, s.sched = .newSource bs c :: rest →
      ((busy s = true ∨ (s.cmdPend = true ∧
          (decodeCommand s.cmdWord = .ok .rdBit ∨ decodeCommand s.cmdWord = .ok .rdByte))) →
        step s = .refused .sourceInUse) ∧
      (busy s = false → (s.cmdPend = true →
          decodeCommand s.cmdWord ≠ .ok .rdBit ∧ decodeCommand s.cmdWord ≠ .ok .rdByte) →
        step s = .next { s with sched := rest, srcQ := bs, srcClosed := c })) ∧
    (s.sched = .readSink :: rest → step s = .next { s with sched := rest, seen := s.seen ++ [.sink s.snk] }) ∧
    (s.sched = .clearSink :: rest →
      ((busy s = true ∨ (s.cmdPend = true ∧ ((∃ b, decodeCommand s.cmdWord = .ok (.wrBit b)) ∨
          (∃ v, decodeCommand s.cmdWord = .ok (.wrByte v)) ∨ decodeCommand s.cmdWord = .ok .wrFlush))) →
        step s = .refused .sinkInUse) ∧
      (busy s = false → (s.cmdPend = true → (∀ b, decodeCommand s.cmdWord ≠ .ok (.wrBit b)) ∧
          (∀ v, decodeCommand s.cmdWord ≠ .ok (.wrByte v)) ∧ decodeCommand s.cmdWord ≠ .ok .wrFlush) →
        step s = .next { s with sched := rest, snk := [] }))

/-- `70_reset_and_hazards.md` R126: a holding RD stays latched, every CMD write meanwhile is an overrun, and only a pushed
byte, a close or RST releases it. -/
def Obligations.HeldReadBlocksCommands : Prop :=
  ∀ s : State, heldRead s →
    (∀ t, blockStep s = .next t → t = s) ∧
    (∀ w rest, s.sched = .writeReg .cmd w :: rest → step s = .next { s with sched := rest, errOverrun := true }) ∧
    (∀ t, step s = .next t → heldRead t ∨ (∃ v q rest, s.sched = .push (v :: q) :: rest) ∨
      (∃ rest, s.sched = .close :: rest) ∨ resetTurn s = true) ∧
    (∀ t, step s = .next t → (∃ v q rest, s.sched = .push (v :: q) :: rest) ∨ (∃ rest, s.sched = .close :: rest) →
      ∃ u, blockStep t = .next u ∧ u.cmdPend = false ∧ u.rvalid = true) ∧
    (∀ t, step s = .next t → resetTurn s = true → t.cmdPend = false)

/-- `20_memory.md` R42, R51 and `70_reset_and_hazards.md` R125: a decode that needs a byte of an empty open source holds
without limit and with no effect, and a pushed byte enables the same step again. That a holding step is a step to
the same state is the model's choice (assumption log 7). -/
def Obligations.EmptyOpenSourceHolds : Prop :=
  ∀ s : State, s.sched = [] → s.cmdPend = false → busy s = true → s.srcQ = [] → s.srcClosed = false →
    (s.fsm = .sep ∨ s.rdRem = 0) →
    (∀ k, Sys2Proof.core.run k s = .next s) ∧
    (s.fsm ≠ .sep → ∀ v, ∃ b t, readBit { s with srcQ := [v] } = .got b t ∧ t.srcQ = [] ∧ t.rdRem = 7) ∧
    (s.fsm = .sep → ∀ v, ∃ t, getByte { s with srcQ := [v] } = .got v t ∧ t.srcQ = [] ∧ t.rdRem = 0)

/-! ### Reset -/

/-- `70_reset_and_hazards.md` R118 and R119: RST at any time, and SOFT_RESET, put every block element at its reset value
and leave the parameters and the host's streams alone. What node memory holds afterwards is unspecified, so the statement
leaves it open. -/
def Obligations.RstStep : Prop :=
  ∀ s : State, ∃ mem : NodeMem,
    (∀ rest, s.sched = .rst :: rest → step s = .next { s with
      fsm := .idle, cur := none, root := none, stack := [], symAcc := 0, symCnt := 0, nodeCount := 0, leafCount := 0,
      outCount := 0, rdByte := 0, rdRem := 0, wrAcc := 0, wrCnt := 0, cmdPend := false, cmdWord := 0, rdata := 0,
      rvalid := false, errIllegal := false, errBusy := false, errOverrun := false, fcode := .none, fstate := .idle,
      nodes := mem, sched := rest }) ∧
    (∀ r, blockView s = some r → s.cmdPend = true → s.cmdWord = 0x00003F00 → step s = .next { r with
      fsm := .idle, cur := none, root := none, stack := [], symAcc := 0, symCnt := 0, nodeCount := 0, leafCount := 0,
      outCount := 0, rdByte := 0, rdRem := 0, wrAcc := 0, wrCnt := 0, cmdPend := false, cmdWord := 0, rdata := 0,
      rvalid := false, errIllegal := false, errBusy := false, errOverrun := false, fcode := .none, fstate := .idle,
      nodes := mem })

/-- `70_reset_and_hazards.md` R120: what the registers read after any reset, and in the state the model starts from. -/
def Obligations.StateAfterReset : Prop :=
  (∀ (s t : State) (rest : List Move), s.sched = .rst :: rest → step s = .next t →
    t.fsm = .idle ∧ readReg t .cmd = 0 ∧ readReg t .status = 0x00000000 ∧ readReg t .rdata = 0x00000000 ∧
    readReg t .outCount = 0x00000000 ∧ readReg t .leafCount = 0x00000000 ∧ readReg t .nodeCount = 0x00000000 ∧
    readReg t .iostat = 0x00000000 ∧ readReg t .config = readReg s .config) ∧
  (∀ s : State, s.cfg = Config.default → readReg s .config = 0x02010090) ∧
  State.reset.fsm = .idle ∧ ∀ r : Reg, r ≠ .config → readReg State.reset r = 0

/-! ### Invariants and rules of the whole machine -/

/-- The invariants of `10_state.md` R38 hold at reset. -/
def Obligations.InvHoldsAtReset : Prop := Machine.Inv State.reset

/-- Every step keeps the invariants of `10_state.md` R38, from every state that meets them. -/
def Obligations.StepKeepsInv : Prop :=
  ∀ s t : State, Machine.Inv s → step s = .next t → Machine.Inv t

/-- In a state that meets the invariants the block step always answers a next state, and no step uses node memory outside
what `20_memory.md` R41 allows: the model's own faults are never reached. That a hold, and the turn of a block that has no
step (`42_tree_walker.md` R93), answer a next state at all, the same one, is the model's choice (assumption log 7; for
the spec they are no step). The faults themselves are the model's (assumption log 6). -/
def Obligations.NoModelFault : Prop :=
  ∀ s : State, Machine.Inv s → (∃ t, blockStep s = .next t) ∧ ∀ f, step s ≠ .fault f

/-- `10_state.md` R27, `20_memory.md` R42, R43, R51 and `70_reset_and_hazards.md` R118, over all instructions: a block
step takes at most one byte, off the front of the source; appends at most two, at the end of the sink; and changes neither
the close flag nor the parameters, which no step at all changes. -/
def Obligations.BlockStepOnStreams : Prop :=
  (∀ s t : State, blockStep s = .next t →
    t.srcClosed = s.srcClosed ∧ t.sched = s.sched ∧ t.seen = s.seen ∧
    (t.srcQ = s.srcQ ∨ ∃ v, s.srcQ = v :: t.srcQ) ∧ ∃ bs : List Byte, t.snk = s.snk ++ bs ∧ bs.length ≤ 2) ∧
  (∀ s t : State, step s = .next t → t.cfg = s.cfg ∧ readReg t .config = readReg s .config)

/-- `20_memory.md` R53 and R41: only an FSM step in HDR_BIT or HDR_SYM writes node memory, and nothing changes the
walker's tree but a reset. That RST, SOFT_RESET and DEC_START keep the old, unallocated entries is the model's choice
(assumption log 5): the spec leaves what node memory holds after them unspecified (`10_state.md` R15,
`70_reset_and_hazards.md` R119). -/
def Obligations.NodeMemoryWrittenOnlyByHeader : Prop :=
  ∀ s t : State, step s = .next t →
    (t.nodes ≠ s.nodes → blockTurn s = true ∧ s.cmdPend = false ∧ (s.fsm = .hdrBit ∨ s.fsm = .hdrSym)) ∧
    (s.fsm = .walk → (t.nodes = s.nodes ∧ t.nodeCount = s.nodeCount ∧ t.root = s.root) ∨
      runsCommand .softReset s ∨ resetTurn s = true) ∧
    (t.nodeCount ≠ s.nodeCount → t.nodeCount = s.nodeCount + 1 ∨ t.nodeCount = 0)

/-- `70_reset_and_hazards.md` R132: with a closed source, every decode ends in DONE or FAULT, after at most one step per
unread bit and one more. That the block steps when no move is left is the model's choice (assumption log 3). -/
def Obligations.StepBound : Prop :=
  ∀ s : State, Machine.Inv s → s.sched = [] → s.cmdPend = false → s.srcClosed = true → busy s = true →
    ∃ (k : Nat) (t : State), k ≤ 8 * s.srcQ.length + s.rdRem.val + 1 ∧ Sys2Proof.core.run k s = .next t ∧
      (t.fsm = .done ∨ t.fsm = .fault)

/-! ### Frames -/

/-- `40_bitstream_io.md` R71 to R75, "State written": what a bit-stream I/O command can change. The sink only grows, and
every byte already there stays; node memory is not written. -/
def Obligations.BitIoFrame : Prop :=
  ∀ s t : State,
    (exec .rdBit s = .next t → t = { s with
      rdata := t.rdata, rvalid := t.rvalid, rdByte := t.rdByte, rdRem := t.rdRem, srcQ := t.srcQ,
      cmdPend := t.cmdPend, errBusy := t.errBusy }) ∧
    (exec .rdByte s = .next t → t = { s with
      rdata := t.rdata, rvalid := t.rvalid, rdRem := t.rdRem, srcQ := t.srcQ, cmdPend := t.cmdPend,
      errBusy := t.errBusy }) ∧
    (∀ opd, exec (.wrBit opd) s = .next t ∨ exec (.wrByte opd) s = .next t ∨ exec .wrFlush s = .next t →
      t = { s with
        wrAcc := t.wrAcc, wrCnt := t.wrCnt, snk := t.snk, cmdPend := false, errBusy := t.errBusy } ∧
      (∀ i, i < s.snk.length → t.snk[i]? = s.snk[i]?) ∧ ∀ i, nodeRead t i = nodeRead s i)

/-- `43_control.md` R96 to R99, "State written": what a control command other than SOFT_RESET can change. That DEC_START
leaves the unallocated entries of node memory as they were is the model's choice (assumption log 5). -/
def Obligations.ControlFrame : Prop :=
  ∀ s t : State,
    (exec .nop s = .next t → t = { s with cmdPend := false }) ∧
    (exec .clrErr s = .next t → t = { s with
      cmdPend := false, errIllegal := t.errIllegal, errBusy := t.errBusy, errOverrun := t.errOverrun }) ∧
    (exec .decAbort s = .next t → t = { s with
      cmdPend := false, fsm := t.fsm, fcode := t.fcode, fstate := t.fstate }) ∧
    (exec .decStart s = .next t → t = { s with
      cmdPend := false, errBusy := t.errBusy, rdRem := t.rdRem, nodeCount := t.nodeCount, stack := t.stack,
      root := t.root, cur := t.cur, symAcc := t.symAcc, symCnt := t.symCnt, leafCount := t.leafCount,
      outCount := t.outCount, fcode := t.fcode, fstate := t.fstate, fsm := t.fsm }) ∧
    (exec .softReset s = .next t →
      t.srcQ = s.srcQ ∧ t.srcClosed = s.srcClosed ∧ t.snk = s.snk ∧ t.cfg = s.cfg)

/-- `41_tree_deserializer.md` R77 to R82, "State written": what a header token can change. Of node memory, only the entry
allocated (that of index `node_count`) and, when a node is attached, the entry on top of the stack. -/
def Obligations.HeaderFrame : Prop :=
  (∀ s t : State, exec .hdrNode s = .next t →
    t = { s with
      nodes := t.nodes, nodeCount := t.nodeCount, root := t.root, stack := t.stack, fsm := t.fsm, fcode := t.fcode,
      fstate := t.fstate } ∧
    ∀ i, i ≠ s.nodeCount.toNat → s.stack.head? ≠ some i → NodeMem.read t.nodes i = NodeMem.read s.nodes i) ∧
  (∀ s t : State, exec (.hdrLeaf .marker) s = .next t →
    t = { s with symAcc := t.symAcc, symCnt := t.symCnt, fsm := t.fsm }) ∧
  (∀ (s t : State) (b : Bool), exec (.hdrLeaf (.field b)) s = .next t →
    t = { s with
      symAcc := t.symAcc, symCnt := t.symCnt, nodes := t.nodes, nodeCount := t.nodeCount, root := t.root,
      stack := t.stack, leafCount := t.leafCount, fsm := t.fsm, fcode := t.fcode, fstate := t.fstate } ∧
    (∀ i, i ≠ s.nodeCount.toNat → s.stack.head? ≠ some i → NodeMem.read t.nodes i = NodeMem.read s.nodes i))

/-- `42_tree_walker.md` R85 to R88, "State written": what the separator and the payload tokens can change. Node memory is
not written, and every byte already in the sink stays. -/
def Obligations.WalkFrame : Prop :=
  (∀ (s t : State) (v : Byte), exec (.sep v) s = .next t → t = { s with cur := t.cur, fsm := t.fsm }) ∧
  (∀ s t : State, exec .payLeft s = .next t ∨ exec .payRight s = .next t →
    t = { s with
      cur := t.cur, fsm := t.fsm, snk := t.snk, wrAcc := t.wrAcc, wrCnt := t.wrCnt, outCount := t.outCount } ∧
    (∀ i, i < s.snk.length → t.snk[i]? = s.snk[i]?) ∧ ∀ i, nodeRead t i = nodeRead s i)
end

