-- ==== Sys2Proof/Laws/Decode.lean ====
section
/-! SUPPORT. What a command word can decode to (`30_encoding.md` R56), each case once. -/

namespace Sys2Proof

/-- A command that takes no operand. -/
theorem noOperand_ok (i j : Instr) (opd : Byte) : noOperand i opd = .ok j ↔ opd = 0 ∧ j = i := by
  unfold noOperand; split
  · rename_i h; rw [Except.ok.injEq]; exact ⟨fun e => ⟨h, e.symm⟩, fun e => e.2.symm⟩
  · rename_i h; exact ⟨fun e => (nomatch e), fun e => absurd e.1 h⟩

/-- WR_BIT. -/
theorem bitOperand_ok (opd : Byte) (j : Instr) :
    bitOperand opd = .ok j ↔ (Instr.wrBit opd).wellFormed = true ∧ j = .wrBit opd := by
  unfold bitOperand; split
  · rename_i h; rw [Except.ok.injEq]; exact ⟨fun e => ⟨h, e.symm⟩, fun e => e.2.symm⟩
  · rename_i h; simp [h]

/-- Everything a legal command word can be (`30_encoding.md` R56). -/
theorem decodeCommand_ok (w : Word) (i : Instr) (h : decodeCommand w = .ok i) :
    rsvdOf w = 0 ∧
      ((opcOf w = 0x00 ∧ opdOf w = 0 ∧ i = .nop) ∨
       (opcOf w = 0x01 ∧ opdOf w = 0 ∧ i = .decStart) ∨
       (opcOf w = 0x02 ∧ opdOf w = 0 ∧ i = .decAbort) ∨
       (opcOf w = 0x10 ∧ opdOf w = 0 ∧ i = .rdBit) ∨
       (opcOf w = 0x11 ∧ opdOf w = 0 ∧ i = .rdByte) ∨
       (opcOf w = 0x20 ∧ (Instr.wrBit (opdOf w)).wellFormed = true ∧ i = .wrBit (opdOf w)) ∨
       (opcOf w = 0x21 ∧ i = .wrByte (opdOf w)) ∨
       (opcOf w = 0x22 ∧ opdOf w = 0 ∧ i = .wrFlush) ∨
       (opcOf w = 0x30 ∧ opdOf w = 0 ∧ i = .clrErr) ∨
       (opcOf w = 0x3F ∧ opdOf w = 0 ∧ i = .softReset)) := by
  unfold decodeCommand at h
  split at h
  · rename_i hr
    refine ⟨hr, ?_⟩
    unfold decodeOpcode at h
    split at h
    · rename_i hc; exact .inl ⟨hc, (noOperand_ok ..).mp h⟩
    refine .inr ?_
    split at h
    · rename_i hc; exact .inl ⟨hc, (noOperand_ok ..).mp h⟩
    refine .inr ?_
    split at h
    · rename_i hc; exact .inl ⟨hc, (noOperand_ok ..).mp h⟩
    refine .inr ?_
    split at h
    · rename_i hc; exact .inl ⟨hc, (noOperand_ok ..).mp h⟩
    refine .inr ?_
    split at h
    · rename_i hc; exact .inl ⟨hc, (noOperand_ok ..).mp h⟩
    refine .inr ?_
    split at h
    · rename_i hc; exact .inl ⟨hc, (bitOperand_ok ..).mp h⟩
    refine .inr ?_
    split at h
    · rename_i hc; exact .inl ⟨hc, (Except.ok.inj h).symm⟩
    refine .inr ?_
    split at h
    · rename_i hc; exact .inl ⟨hc, (noOperand_ok ..).mp h⟩
    refine .inr ?_
    split at h
    · rename_i hc; exact .inl ⟨hc, (noOperand_ok ..).mp h⟩
    refine .inr ?_
    split at h
    · rename_i hc; exact ⟨hc, (noOperand_ok ..).mp h⟩
    · cases h
  · cases h

/-- A legal command word never decodes to a stream token. -/
theorem decodeCommand_not_token (w : Word) (i : Instr) (h : decodeCommand w = .ok i) :
    i ≠ .hdrNode ∧ (∀ p, i ≠ .hdrLeaf p) ∧ (∀ v, i ≠ .sep v) ∧ i ≠ .payLeft ∧ i ≠ .payRight := by
  obtain ⟨-, h | h | h | h | h | h | h | h | h | h⟩ := decodeCommand_ok w i h <;> simp [h]

end Sys2Proof
end

