-- ==== Sys2Proof/Laws/NodeMem.lean ====
section
/-! SUPPORT. The basic laws of node memory (`20_memory.md` R41): read after write, and the canonical form kept. -/

namespace Sys2Proof.Machine

open Sys2Proof

/-- An empty node memory is in canonical form. -/
theorem NodeMem.wf_nil : NodeMem.wf [] = true := rfl

/-- The canonical form of a memory with a first entry: the next index is higher, and the rest is canonical. -/
theorem NodeMem.wf_cons (i : Nat) (n : Node) (m : NodeMem) :
    NodeMem.wf ((i, n) :: m) = true ↔ (∀ p ∈ m.head?, i < p.1) ∧ NodeMem.wf m = true := by
  cases m with
  | nil => simp [NodeMem.wf]
  | cons p rest => obtain ⟨j, q⟩ := p; simp [NodeMem.wf]

/-- A read of the entry just written returns it. -/
theorem NodeMem.read_write_same (m : NodeMem) (i : Nat) (n : Node) :
    NodeMem.read (NodeMem.write m i n) i = some n := by
  induction m with
  | nil => simp [NodeMem.write, NodeMem.read]
  | cons p rest ih =>
    obtain ⟨k, q⟩ := p
    simp only [NodeMem.write]
    split
    · simp [NodeMem.read]
    · split
      · simp [NodeMem.read]
      · simp [NodeMem.read, *]

/-- A write leaves every other entry alone. -/
theorem NodeMem.read_write_other (m : NodeMem) (i j : Nat) (n : Node) (h : j ≠ i) :
    NodeMem.read (NodeMem.write m i n) j = NodeMem.read m j := by
  induction m with
  | nil => simp [NodeMem.write, NodeMem.read, h]
  | cons p rest ih =>
    obtain ⟨k, q⟩ := p
    simp only [NodeMem.write]
    split
    · simp [NodeMem.read, h]
    · split
      · rename_i hk; subst hk; simp [NodeMem.read, h]
      · simp [NodeMem.read, ih]

/-- The first index of a memory after a write is the written one or the old first one. -/
theorem NodeMem.head_write (m : NodeMem) (i : Nat) (n : Node) (p : Nat × Node)
    (h : p ∈ (NodeMem.write m i n).head?) : p.1 = i ∨ ∃ q ∈ m.head?, p.1 = q.1 := by
  cases m with
  | nil => simp [NodeMem.write] at h; simp [← h]
  | cons q rest =>
    obtain ⟨k, b⟩ := q
    simp only [NodeMem.write] at h
    split at h
    · simp at h; simp [← h]
    · split at h <;> simp at h <;> simp [← h]

/-- A write keeps the canonical form. -/
theorem NodeMem.write_wf (m : NodeMem) (i : Nat) (n : Node) (h : NodeMem.wf m = true) :
    NodeMem.wf (NodeMem.write m i n) = true := by
  induction m with
  | nil => rfl
  | cons p rest ih =>
    obtain ⟨k, q⟩ := p
    obtain ⟨hlt, hrest⟩ := (NodeMem.wf_cons k q rest).mp h
    simp only [NodeMem.write]
    split
    · exact (NodeMem.wf_cons ..).mpr ⟨by simp_all, h⟩
    · split
      · rename_i hk; subst hk; exact (NodeMem.wf_cons ..).mpr ⟨hlt, hrest⟩
      · refine (NodeMem.wf_cons ..).mpr ⟨?_, ih hrest⟩
        intro r hr
        obtain h1 | ⟨q', h1, h2⟩ := NodeMem.head_write rest i n r hr
        · omega
        · have := hlt q' h1; omega

/-- `NodeRead` of an allocated entry is the memory's entry. -/
theorem nodeRead_of_lt (s : State) (i : Nat) (h : i < s.nodeCount.toNat) :
    nodeRead s i = NodeMem.read s.nodes i := by simp [nodeRead, h]

/-- `NodeRead` answers only for allocated entries (`20_memory.md` R41). -/
theorem lt_of_nodeRead (s : State) (i : Nat) (n : Node) (h : nodeRead s i = some n) : i < s.nodeCount.toNat := by
  unfold nodeRead at h; split at h
  · assumption
  · simp at h

end Sys2Proof.Machine
end

