-- ==== Sys2Proof/Laws/State.lean ====
section
/-! SUPPORT. What each named update of the state does to each field: one lemma per field per update, all by `rfl`, so that
no later proof unfolds an update. -/

namespace Sys2Proof.Machine

open Sys2Proof

@[simp] theorem retire_cfg (s : State) : (retire s).cfg = s.cfg := rfl
@[simp] theorem retire_fsm (s : State) : (retire s).fsm = s.fsm := rfl
@[simp] theorem retire_cur (s : State) : (retire s).cur = s.cur := rfl
@[simp] theorem retire_symAcc (s : State) : (retire s).symAcc = s.symAcc := rfl
@[simp] theorem retire_symCnt (s : State) : (retire s).symCnt = s.symCnt := rfl
@[simp] theorem retire_nodes (s : State) : (retire s).nodes = s.nodes := rfl
@[simp] theorem retire_nodeCount (s : State) : (retire s).nodeCount = s.nodeCount := rfl
@[simp] theorem retire_stack (s : State) : (retire s).stack = s.stack := rfl
@[simp] theorem retire_root (s : State) : (retire s).root = s.root := rfl
@[simp] theorem retire_leafCount (s : State) : (retire s).leafCount = s.leafCount := rfl
@[simp] theorem retire_outCount (s : State) : (retire s).outCount = s.outCount := rfl
@[simp] theorem retire_rdByte (s : State) : (retire s).rdByte = s.rdByte := rfl
@[simp] theorem retire_rdRem (s : State) : (retire s).rdRem = s.rdRem := rfl
@[simp] theorem retire_wrAcc (s : State) : (retire s).wrAcc = s.wrAcc := rfl
@[simp] theorem retire_wrCnt (s : State) : (retire s).wrCnt = s.wrCnt := rfl
@[simp] theorem retire_cmdPend (s : State) : (retire s).cmdPend = false := rfl
@[simp] theorem retire_cmdWord (s : State) : (retire s).cmdWord = s.cmdWord := rfl
@[simp] theorem retire_rdata (s : State) : (retire s).rdata = s.rdata := rfl
@[simp] theorem retire_rvalid (s : State) : (retire s).rvalid = s.rvalid := rfl
@[simp] theorem retire_errIllegal (s : State) : (retire s).errIllegal = s.errIllegal := rfl
@[simp] theorem retire_errBusy (s : State) : (retire s).errBusy = s.errBusy := rfl
@[simp] theorem retire_errOverrun (s : State) : (retire s).errOverrun = s.errOverrun := rfl
@[simp] theorem retire_fcode (s : State) : (retire s).fcode = s.fcode := rfl
@[simp] theorem retire_fstate (s : State) : (retire s).fstate = s.fstate := rfl
@[simp] theorem retire_srcQ (s : State) : (retire s).srcQ = s.srcQ := rfl
@[simp] theorem retire_srcClosed (s : State) : (retire s).srcClosed = s.srcClosed := rfl
@[simp] theorem retire_snk (s : State) : (retire s).snk = s.snk := rfl
@[simp] theorem retire_sched (s : State) : (retire s).sched = s.sched := rfl
@[simp] theorem retire_seen (s : State) : (retire s).seen = s.seen := rfl

@[simp] theorem rejectIllegal_cfg (s : State) : (rejectIllegal s).cfg = s.cfg := rfl
@[simp] theorem rejectIllegal_fsm (s : State) : (rejectIllegal s).fsm = s.fsm := rfl
@[simp] theorem rejectIllegal_cur (s : State) : (rejectIllegal s).cur = s.cur := rfl
@[simp] theorem rejectIllegal_symAcc (s : State) : (rejectIllegal s).symAcc = s.symAcc := rfl
@[simp] theorem rejectIllegal_symCnt (s : State) : (rejectIllegal s).symCnt = s.symCnt := rfl
@[simp] theorem rejectIllegal_nodes (s : State) : (rejectIllegal s).nodes = s.nodes := rfl
@[simp] theorem rejectIllegal_nodeCount (s : State) : (rejectIllegal s).nodeCount = s.nodeCount := rfl
@[simp] theorem rejectIllegal_stack (s : State) : (rejectIllegal s).stack = s.stack := rfl
@[simp] theorem rejectIllegal_root (s : State) : (rejectIllegal s).root = s.root := rfl
@[simp] theorem rejectIllegal_leafCount (s : State) : (rejectIllegal s).leafCount = s.leafCount := rfl
@[simp] theorem rejectIllegal_outCount (s : State) : (rejectIllegal s).outCount = s.outCount := rfl
@[simp] theorem rejectIllegal_rdByte (s : State) : (rejectIllegal s).rdByte = s.rdByte := rfl
@[simp] theorem rejectIllegal_rdRem (s : State) : (rejectIllegal s).rdRem = s.rdRem := rfl
@[simp] theorem rejectIllegal_wrAcc (s : State) : (rejectIllegal s).wrAcc = s.wrAcc := rfl
@[simp] theorem rejectIllegal_wrCnt (s : State) : (rejectIllegal s).wrCnt = s.wrCnt := rfl
@[simp] theorem rejectIllegal_cmdPend (s : State) : (rejectIllegal s).cmdPend = false := rfl
@[simp] theorem rejectIllegal_cmdWord (s : State) : (rejectIllegal s).cmdWord = s.cmdWord := rfl
@[simp] theorem rejectIllegal_rdata (s : State) : (rejectIllegal s).rdata = s.rdata := rfl
@[simp] theorem rejectIllegal_rvalid (s : State) : (rejectIllegal s).rvalid = s.rvalid := rfl
@[simp] theorem rejectIllegal_errIllegal (s : State) : (rejectIllegal s).errIllegal = true := rfl
@[simp] theorem rejectIllegal_errBusy (s : State) : (rejectIllegal s).errBusy = s.errBusy := rfl
@[simp] theorem rejectIllegal_errOverrun (s : State) : (rejectIllegal s).errOverrun = s.errOverrun := rfl
@[simp] theorem rejectIllegal_fcode (s : State) : (rejectIllegal s).fcode = s.fcode := rfl
@[simp] theorem rejectIllegal_fstate (s : State) : (rejectIllegal s).fstate = s.fstate := rfl
@[simp] theorem rejectIllegal_srcQ (s : State) : (rejectIllegal s).srcQ = s.srcQ := rfl
@[simp] theorem rejectIllegal_srcClosed (s : State) : (rejectIllegal s).srcClosed = s.srcClosed := rfl
@[simp] theorem rejectIllegal_snk (s : State) : (rejectIllegal s).snk = s.snk := rfl
@[simp] theorem rejectIllegal_sched (s : State) : (rejectIllegal s).sched = s.sched := rfl
@[simp] theorem rejectIllegal_seen (s : State) : (rejectIllegal s).seen = s.seen := rfl

@[simp] theorem rejectBusy_cfg (s : State) : (rejectBusy s).cfg = s.cfg := rfl
@[simp] theorem rejectBusy_fsm (s : State) : (rejectBusy s).fsm = s.fsm := rfl
@[simp] theorem rejectBusy_cur (s : State) : (rejectBusy s).cur = s.cur := rfl
@[simp] theorem rejectBusy_symAcc (s : State) : (rejectBusy s).symAcc = s.symAcc := rfl
@[simp] theorem rejectBusy_symCnt (s : State) : (rejectBusy s).symCnt = s.symCnt := rfl
@[simp] theorem rejectBusy_nodes (s : State) : (rejectBusy s).nodes = s.nodes := rfl
@[simp] theorem rejectBusy_nodeCount (s : State) : (rejectBusy s).nodeCount = s.nodeCount := rfl
@[simp] theorem rejectBusy_stack (s : State) : (rejectBusy s).stack = s.stack := rfl
@[simp] theorem rejectBusy_root (s : State) : (rejectBusy s).root = s.root := rfl
@[simp] theorem rejectBusy_leafCount (s : State) : (rejectBusy s).leafCount = s.leafCount := rfl
@[simp] theorem rejectBusy_outCount (s : State) : (rejectBusy s).outCount = s.outCount := rfl
@[simp] theorem rejectBusy_rdByte (s : State) : (rejectBusy s).rdByte = s.rdByte := rfl
@[simp] theorem rejectBusy_rdRem (s : State) : (rejectBusy s).rdRem = s.rdRem := rfl
@[simp] theorem rejectBusy_wrAcc (s : State) : (rejectBusy s).wrAcc = s.wrAcc := rfl
@[simp] theorem rejectBusy_wrCnt (s : State) : (rejectBusy s).wrCnt = s.wrCnt := rfl
@[simp] theorem rejectBusy_cmdPend (s : State) : (rejectBusy s).cmdPend = false := rfl
@[simp] theorem rejectBusy_cmdWord (s : State) : (rejectBusy s).cmdWord = s.cmdWord := rfl
@[simp] theorem rejectBusy_rdata (s : State) : (rejectBusy s).rdata = s.rdata := rfl
@[simp] theorem rejectBusy_rvalid (s : State) : (rejectBusy s).rvalid = s.rvalid := rfl
@[simp] theorem rejectBusy_errIllegal (s : State) : (rejectBusy s).errIllegal = s.errIllegal := rfl
@[simp] theorem rejectBusy_errBusy (s : State) : (rejectBusy s).errBusy = true := rfl
@[simp] theorem rejectBusy_errOverrun (s : State) : (rejectBusy s).errOverrun = s.errOverrun := rfl
@[simp] theorem rejectBusy_fcode (s : State) : (rejectBusy s).fcode = s.fcode := rfl
@[simp] theorem rejectBusy_fstate (s : State) : (rejectBusy s).fstate = s.fstate := rfl
@[simp] theorem rejectBusy_srcQ (s : State) : (rejectBusy s).srcQ = s.srcQ := rfl
@[simp] theorem rejectBusy_srcClosed (s : State) : (rejectBusy s).srcClosed = s.srcClosed := rfl
@[simp] theorem rejectBusy_snk (s : State) : (rejectBusy s).snk = s.snk := rfl
@[simp] theorem rejectBusy_sched (s : State) : (rejectBusy s).sched = s.sched := rfl
@[simp] theorem rejectBusy_seen (s : State) : (rejectBusy s).seen = s.seen := rfl

@[simp] theorem rejectOverrun_cfg (s : State) : (rejectOverrun s).cfg = s.cfg := rfl
@[simp] theorem rejectOverrun_fsm (s : State) : (rejectOverrun s).fsm = s.fsm := rfl
@[simp] theorem rejectOverrun_cur (s : State) : (rejectOverrun s).cur = s.cur := rfl
@[simp] theorem rejectOverrun_symAcc (s : State) : (rejectOverrun s).symAcc = s.symAcc := rfl
@[simp] theorem rejectOverrun_symCnt (s : State) : (rejectOverrun s).symCnt = s.symCnt := rfl
@[simp] theorem rejectOverrun_nodes (s : State) : (rejectOverrun s).nodes = s.nodes := rfl
@[simp] theorem rejectOverrun_nodeCount (s : State) : (rejectOverrun s).nodeCount = s.nodeCount := rfl
@[simp] theorem rejectOverrun_stack (s : State) : (rejectOverrun s).stack = s.stack := rfl
@[simp] theorem rejectOverrun_root (s : State) : (rejectOverrun s).root = s.root := rfl
@[simp] theorem rejectOverrun_leafCount (s : State) : (rejectOverrun s).leafCount = s.leafCount := rfl
@[simp] theorem rejectOverrun_outCount (s : State) : (rejectOverrun s).outCount = s.outCount := rfl
@[simp] theorem rejectOverrun_rdByte (s : State) : (rejectOverrun s).rdByte = s.rdByte := rfl
@[simp] theorem rejectOverrun_rdRem (s : State) : (rejectOverrun s).rdRem = s.rdRem := rfl
@[simp] theorem rejectOverrun_wrAcc (s : State) : (rejectOverrun s).wrAcc = s.wrAcc := rfl
@[simp] theorem rejectOverrun_wrCnt (s : State) : (rejectOverrun s).wrCnt = s.wrCnt := rfl
@[simp] theorem rejectOverrun_cmdPend (s : State) : (rejectOverrun s).cmdPend = s.cmdPend := rfl
@[simp] theorem rejectOverrun_cmdWord (s : State) : (rejectOverrun s).cmdWord = s.cmdWord := rfl
@[simp] theorem rejectOverrun_rdata (s : State) : (rejectOverrun s).rdata = s.rdata := rfl
@[simp] theorem rejectOverrun_rvalid (s : State) : (rejectOverrun s).rvalid = s.rvalid := rfl
@[simp] theorem rejectOverrun_errIllegal (s : State) : (rejectOverrun s).errIllegal = s.errIllegal := rfl
@[simp] theorem rejectOverrun_errBusy (s : State) : (rejectOverrun s).errBusy = s.errBusy := rfl
@[simp] theorem rejectOverrun_errOverrun (s : State) : (rejectOverrun s).errOverrun = true := rfl
@[simp] theorem rejectOverrun_fcode (s : State) : (rejectOverrun s).fcode = s.fcode := rfl
@[simp] theorem rejectOverrun_fstate (s : State) : (rejectOverrun s).fstate = s.fstate := rfl
@[simp] theorem rejectOverrun_srcQ (s : State) : (rejectOverrun s).srcQ = s.srcQ := rfl
@[simp] theorem rejectOverrun_srcClosed (s : State) : (rejectOverrun s).srcClosed = s.srcClosed := rfl
@[simp] theorem rejectOverrun_snk (s : State) : (rejectOverrun s).snk = s.snk := rfl
@[simp] theorem rejectOverrun_sched (s : State) : (rejectOverrun s).sched = s.sched := rfl
@[simp] theorem rejectOverrun_seen (s : State) : (rejectOverrun s).seen = s.seen := rfl

@[simp] theorem clearErrors_cfg (s : State) : (clearErrors s).cfg = s.cfg := rfl
@[simp] theorem clearErrors_fsm (s : State) : (clearErrors s).fsm = s.fsm := rfl
@[simp] theorem clearErrors_cur (s : State) : (clearErrors s).cur = s.cur := rfl
@[simp] theorem clearErrors_symAcc (s : State) : (clearErrors s).symAcc = s.symAcc := rfl
@[simp] theorem clearErrors_symCnt (s : State) : (clearErrors s).symCnt = s.symCnt := rfl
@[simp] theorem clearErrors_nodes (s : State) : (clearErrors s).nodes = s.nodes := rfl
@[simp] theorem clearErrors_nodeCount (s : State) : (clearErrors s).nodeCount = s.nodeCount := rfl
@[simp] theorem clearErrors_stack (s : State) : (clearErrors s).stack = s.stack := rfl
@[simp] theorem clearErrors_root (s : State) : (clearErrors s).root = s.root := rfl
@[simp] theorem clearErrors_leafCount (s : State) : (clearErrors s).leafCount = s.leafCount := rfl
@[simp] theorem clearErrors_outCount (s : State) : (clearErrors s).outCount = s.outCount := rfl
@[simp] theorem clearErrors_rdByte (s : State) : (clearErrors s).rdByte = s.rdByte := rfl
@[simp] theorem clearErrors_rdRem (s : State) : (clearErrors s).rdRem = s.rdRem := rfl
@[simp] theorem clearErrors_wrAcc (s : State) : (clearErrors s).wrAcc = s.wrAcc := rfl
@[simp] theorem clearErrors_wrCnt (s : State) : (clearErrors s).wrCnt = s.wrCnt := rfl
@[simp] theorem clearErrors_cmdPend (s : State) : (clearErrors s).cmdPend = s.cmdPend := rfl
@[simp] theorem clearErrors_cmdWord (s : State) : (clearErrors s).cmdWord = s.cmdWord := rfl
@[simp] theorem clearErrors_rdata (s : State) : (clearErrors s).rdata = s.rdata := rfl
@[simp] theorem clearErrors_rvalid (s : State) : (clearErrors s).rvalid = s.rvalid := rfl
@[simp] theorem clearErrors_errIllegal (s : State) : (clearErrors s).errIllegal = false := rfl
@[simp] theorem clearErrors_errBusy (s : State) : (clearErrors s).errBusy = false := rfl
@[simp] theorem clearErrors_errOverrun (s : State) : (clearErrors s).errOverrun = false := rfl
@[simp] theorem clearErrors_fcode (s : State) : (clearErrors s).fcode = s.fcode := rfl
@[simp] theorem clearErrors_fstate (s : State) : (clearErrors s).fstate = s.fstate := rfl
@[simp] theorem clearErrors_srcQ (s : State) : (clearErrors s).srcQ = s.srcQ := rfl
@[simp] theorem clearErrors_srcClosed (s : State) : (clearErrors s).srcClosed = s.srcClosed := rfl
@[simp] theorem clearErrors_snk (s : State) : (clearErrors s).snk = s.snk := rfl
@[simp] theorem clearErrors_sched (s : State) : (clearErrors s).sched = s.sched := rfl
@[simp] theorem clearErrors_seen (s : State) : (clearErrors s).seen = s.seen := rfl

@[simp] theorem deliver_cfg (s : State) (kind : Bool) (eof : Bool) (value : Byte) : (deliver kind eof value s).cfg = s.cfg := rfl
@[simp] theorem deliver_fsm (s : State) (kind : Bool) (eof : Bool) (value : Byte) : (deliver kind eof value s).fsm = s.fsm := rfl
@[simp] theorem deliver_cur (s : State) (kind : Bool) (eof : Bool) (value : Byte) : (deliver kind eof value s).cur = s.cur := rfl
@[simp] theorem deliver_symAcc (s : State) (kind : Bool) (eof : Bool) (value : Byte) : (deliver kind eof value s).symAcc = s.symAcc := rfl
@[simp] theorem deliver_symCnt (s : State) (kind : Bool) (eof : Bool) (value : Byte) : (deliver kind eof value s).symCnt = s.symCnt := rfl
@[simp] theorem deliver_nodes (s : State) (kind : Bool) (eof : Bool) (value : Byte) : (deliver kind eof value s).nodes = s.nodes := rfl
@[simp] theorem deliver_nodeCount (s : State) (kind : Bool) (eof : Bool) (value : Byte) : (deliver kind eof value s).nodeCount = s.nodeCount := rfl
@[simp] theorem deliver_stack (s : State) (kind : Bool) (eof : Bool) (value : Byte) : (deliver kind eof value s).stack = s.stack := rfl
@[simp] theorem deliver_root (s : State) (kind : Bool) (eof : Bool) (value : Byte) : (deliver kind eof value s).root = s.root := rfl
@[simp] theorem deliver_leafCount (s : State) (kind : Bool) (eof : Bool) (value : Byte) : (deliver kind eof value s).leafCount = s.leafCount := rfl
@[simp] theorem deliver_outCount (s : State) (kind : Bool) (eof : Bool) (value : Byte) : (deliver kind eof value s).outCount = s.outCount := rfl
@[simp] theorem deliver_rdByte (s : State) (kind : Bool) (eof : Bool) (value : Byte) : (deliver kind eof value s).rdByte = s.rdByte := rfl
@[simp] theorem deliver_rdRem (s : State) (kind : Bool) (eof : Bool) (value : Byte) : (deliver kind eof value s).rdRem = s.rdRem := rfl
@[simp] theorem deliver_wrAcc (s : State) (kind : Bool) (eof : Bool) (value : Byte) : (deliver kind eof value s).wrAcc = s.wrAcc := rfl
@[simp] theorem deliver_wrCnt (s : State) (kind : Bool) (eof : Bool) (value : Byte) : (deliver kind eof value s).wrCnt = s.wrCnt := rfl
@[simp] theorem deliver_cmdPend (s : State) (kind : Bool) (eof : Bool) (value : Byte) : (deliver kind eof value s).cmdPend = s.cmdPend := rfl
@[simp] theorem deliver_cmdWord (s : State) (kind : Bool) (eof : Bool) (value : Byte) : (deliver kind eof value s).cmdWord = s.cmdWord := rfl
@[simp] theorem deliver_rdata (s : State) (kind : Bool) (eof : Bool) (value : Byte) : (deliver kind eof value s).rdata = rdataOf kind eof value := rfl
@[simp] theorem deliver_rvalid (s : State) (kind : Bool) (eof : Bool) (value : Byte) : (deliver kind eof value s).rvalid = true := rfl
@[simp] theorem deliver_errIllegal (s : State) (kind : Bool) (eof : Bool) (value : Byte) : (deliver kind eof value s).errIllegal = s.errIllegal := rfl
@[simp] theorem deliver_errBusy (s : State) (kind : Bool) (eof : Bool) (value : Byte) : (deliver kind eof value s).errBusy = s.errBusy := rfl
@[simp] theorem deliver_errOverrun (s : State) (kind : Bool) (eof : Bool) (value : Byte) : (deliver kind eof value s).errOverrun = s.errOverrun := rfl
@[simp] theorem deliver_fcode (s : State) (kind : Bool) (eof : Bool) (value : Byte) : (deliver kind eof value s).fcode = s.fcode := rfl
@[simp] theorem deliver_fstate (s : State) (kind : Bool) (eof : Bool) (value : Byte) : (deliver kind eof value s).fstate = s.fstate := rfl
@[simp] theorem deliver_srcQ (s : State) (kind : Bool) (eof : Bool) (value : Byte) : (deliver kind eof value s).srcQ = s.srcQ := rfl
@[simp] theorem deliver_srcClosed (s : State) (kind : Bool) (eof : Bool) (value : Byte) : (deliver kind eof value s).srcClosed = s.srcClosed := rfl
@[simp] theorem deliver_snk (s : State) (kind : Bool) (eof : Bool) (value : Byte) : (deliver kind eof value s).snk = s.snk := rfl
@[simp] theorem deliver_sched (s : State) (kind : Bool) (eof : Bool) (value : Byte) : (deliver kind eof value s).sched = s.sched := rfl
@[simp] theorem deliver_seen (s : State) (kind : Bool) (eof : Bool) (value : Byte) : (deliver kind eof value s).seen = s.seen := rfl

@[simp] theorem raiseFault_cfg (s : State) (code : FaultCode) : (raiseFault code s).cfg = s.cfg := rfl
@[simp] theorem raiseFault_fsm (s : State) (code : FaultCode) : (raiseFault code s).fsm = .fault := rfl
@[simp] theorem raiseFault_cur (s : State) (code : FaultCode) : (raiseFault code s).cur = s.cur := rfl
@[simp] theorem raiseFault_symAcc (s : State) (code : FaultCode) : (raiseFault code s).symAcc = s.symAcc := rfl
@[simp] theorem raiseFault_symCnt (s : State) (code : FaultCode) : (raiseFault code s).symCnt = s.symCnt := rfl
@[simp] theorem raiseFault_nodes (s : State) (code : FaultCode) : (raiseFault code s).nodes = s.nodes := rfl
@[simp] theorem raiseFault_nodeCount (s : State) (code : FaultCode) : (raiseFault code s).nodeCount = s.nodeCount := rfl
@[simp] theorem raiseFault_stack (s : State) (code : FaultCode) : (raiseFault code s).stack = s.stack := rfl
@[simp] theorem raiseFault_root (s : State) (code : FaultCode) : (raiseFault code s).root = s.root := rfl
@[simp] theorem raiseFault_leafCount (s : State) (code : FaultCode) : (raiseFault code s).leafCount = s.leafCount := rfl
@[simp] theorem raiseFault_outCount (s : State) (code : FaultCode) : (raiseFault code s).outCount = s.outCount := rfl
@[simp] theorem raiseFault_rdByte (s : State) (code : FaultCode) : (raiseFault code s).rdByte = s.rdByte := rfl
@[simp] theorem raiseFault_rdRem (s : State) (code : FaultCode) : (raiseFault code s).rdRem = s.rdRem := rfl
@[simp] theorem raiseFault_wrAcc (s : State) (code : FaultCode) : (raiseFault code s).wrAcc = s.wrAcc := rfl
@[simp] theorem raiseFault_wrCnt (s : State) (code : FaultCode) : (raiseFault code s).wrCnt = s.wrCnt := rfl
@[simp] theorem raiseFault_cmdPend (s : State) (code : FaultCode) : (raiseFault code s).cmdPend = s.cmdPend := rfl
@[simp] theorem raiseFault_cmdWord (s : State) (code : FaultCode) : (raiseFault code s).cmdWord = s.cmdWord := rfl
@[simp] theorem raiseFault_rdata (s : State) (code : FaultCode) : (raiseFault code s).rdata = s.rdata := rfl
@[simp] theorem raiseFault_rvalid (s : State) (code : FaultCode) : (raiseFault code s).rvalid = s.rvalid := rfl
@[simp] theorem raiseFault_errIllegal (s : State) (code : FaultCode) : (raiseFault code s).errIllegal = s.errIllegal := rfl
@[simp] theorem raiseFault_errBusy (s : State) (code : FaultCode) : (raiseFault code s).errBusy = s.errBusy := rfl
@[simp] theorem raiseFault_errOverrun (s : State) (code : FaultCode) : (raiseFault code s).errOverrun = s.errOverrun := rfl
@[simp] theorem raiseFault_fcode (s : State) (code : FaultCode) : (raiseFault code s).fcode = code := rfl
@[simp] theorem raiseFault_fstate (s : State) (code : FaultCode) : (raiseFault code s).fstate = s.fsm := rfl
@[simp] theorem raiseFault_srcQ (s : State) (code : FaultCode) : (raiseFault code s).srcQ = s.srcQ := rfl
@[simp] theorem raiseFault_srcClosed (s : State) (code : FaultCode) : (raiseFault code s).srcClosed = s.srcClosed := rfl
@[simp] theorem raiseFault_snk (s : State) (code : FaultCode) : (raiseFault code s).snk = s.snk := rfl
@[simp] theorem raiseFault_sched (s : State) (code : FaultCode) : (raiseFault code s).sched = s.sched := rfl
@[simp] theorem raiseFault_seen (s : State) (code : FaultCode) : (raiseFault code s).seen = s.seen := rfl

@[simp] theorem startDecode_cfg (s : State) : (startDecode s).cfg = s.cfg := rfl
@[simp] theorem startDecode_fsm (s : State) : (startDecode s).fsm = .hdrBit := rfl
@[simp] theorem startDecode_cur (s : State) : (startDecode s).cur = none := rfl
@[simp] theorem startDecode_symAcc (s : State) : (startDecode s).symAcc = 0 := rfl
@[simp] theorem startDecode_symCnt (s : State) : (startDecode s).symCnt = 0 := rfl
@[simp] theorem startDecode_nodes (s : State) : (startDecode s).nodes = s.nodes := rfl
@[simp] theorem startDecode_nodeCount (s : State) : (startDecode s).nodeCount = 0 := rfl
@[simp] theorem startDecode_stack (s : State) : (startDecode s).stack = [] := rfl
@[simp] theorem startDecode_root (s : State) : (startDecode s).root = none := rfl
@[simp] theorem startDecode_leafCount (s : State) : (startDecode s).leafCount = 0 := rfl
@[simp] theorem startDecode_outCount (s : State) : (startDecode s).outCount = 0 := rfl
@[simp] theorem startDecode_rdByte (s : State) : (startDecode s).rdByte = s.rdByte := rfl
@[simp] theorem startDecode_rdRem (s : State) : (startDecode s).rdRem = 0 := rfl
@[simp] theorem startDecode_wrAcc (s : State) : (startDecode s).wrAcc = s.wrAcc := rfl
@[simp] theorem startDecode_wrCnt (s : State) : (startDecode s).wrCnt = s.wrCnt := rfl
@[simp] theorem startDecode_cmdPend (s : State) : (startDecode s).cmdPend = s.cmdPend := rfl
@[simp] theorem startDecode_cmdWord (s : State) : (startDecode s).cmdWord = s.cmdWord := rfl
@[simp] theorem startDecode_rdata (s : State) : (startDecode s).rdata = s.rdata := rfl
@[simp] theorem startDecode_rvalid (s : State) : (startDecode s).rvalid = s.rvalid := rfl
@[simp] theorem startDecode_errIllegal (s : State) : (startDecode s).errIllegal = s.errIllegal := rfl
@[simp] theorem startDecode_errBusy (s : State) : (startDecode s).errBusy = s.errBusy := rfl
@[simp] theorem startDecode_errOverrun (s : State) : (startDecode s).errOverrun = s.errOverrun := rfl
@[simp] theorem startDecode_fcode (s : State) : (startDecode s).fcode = .none := rfl
@[simp] theorem startDecode_fstate (s : State) : (startDecode s).fstate = .idle := rfl
@[simp] theorem startDecode_srcQ (s : State) : (startDecode s).srcQ = s.srcQ := rfl
@[simp] theorem startDecode_srcClosed (s : State) : (startDecode s).srcClosed = s.srcClosed := rfl
@[simp] theorem startDecode_snk (s : State) : (startDecode s).snk = s.snk := rfl
@[simp] theorem startDecode_sched (s : State) : (startDecode s).sched = s.sched := rfl
@[simp] theorem startDecode_seen (s : State) : (startDecode s).seen = s.seen := rfl

@[simp] theorem resetBlock_cfg (s : State) : (resetBlock s).cfg = s.cfg := rfl
@[simp] theorem resetBlock_fsm (s : State) : (resetBlock s).fsm = .idle := rfl
@[simp] theorem resetBlock_cur (s : State) : (resetBlock s).cur = none := rfl
@[simp] theorem resetBlock_symAcc (s : State) : (resetBlock s).symAcc = 0 := rfl
@[simp] theorem resetBlock_symCnt (s : State) : (resetBlock s).symCnt = 0 := rfl
@[simp] theorem resetBlock_nodes (s : State) : (resetBlock s).nodes = s.nodes := rfl
@[simp] theorem resetBlock_nodeCount (s : State) : (resetBlock s).nodeCount = 0 := rfl
@[simp] theorem resetBlock_stack (s : State) : (resetBlock s).stack = [] := rfl
@[simp] theorem resetBlock_root (s : State) : (resetBlock s).root = none := rfl
@[simp] theorem resetBlock_leafCount (s : State) : (resetBlock s).leafCount = 0 := rfl
@[simp] theorem resetBlock_outCount (s : State) : (resetBlock s).outCount = 0 := rfl
@[simp] theorem resetBlock_rdByte (s : State) : (resetBlock s).rdByte = 0 := rfl
@[simp] theorem resetBlock_rdRem (s : State) : (resetBlock s).rdRem = 0 := rfl
@[simp] theorem resetBlock_wrAcc (s : State) : (resetBlock s).wrAcc = 0 := rfl
@[simp] theorem resetBlock_wrCnt (s : State) : (resetBlock s).wrCnt = 0 := rfl
@[simp] theorem resetBlock_cmdPend (s : State) : (resetBlock s).cmdPend = false := rfl
@[simp] theorem resetBlock_cmdWord (s : State) : (resetBlock s).cmdWord = 0 := rfl
@[simp] theorem resetBlock_rdata (s : State) : (resetBlock s).rdata = 0 := rfl
@[simp] theorem resetBlock_rvalid (s : State) : (resetBlock s).rvalid = false := rfl
@[simp] theorem resetBlock_errIllegal (s : State) : (resetBlock s).errIllegal = false := rfl
@[simp] theorem resetBlock_errBusy (s : State) : (resetBlock s).errBusy = false := rfl
@[simp] theorem resetBlock_errOverrun (s : State) : (resetBlock s).errOverrun = false := rfl
@[simp] theorem resetBlock_fcode (s : State) : (resetBlock s).fcode = .none := rfl
@[simp] theorem resetBlock_fstate (s : State) : (resetBlock s).fstate = .idle := rfl
@[simp] theorem resetBlock_srcQ (s : State) : (resetBlock s).srcQ = s.srcQ := rfl
@[simp] theorem resetBlock_srcClosed (s : State) : (resetBlock s).srcClosed = s.srcClosed := rfl
@[simp] theorem resetBlock_snk (s : State) : (resetBlock s).snk = s.snk := rfl
@[simp] theorem resetBlock_sched (s : State) : (resetBlock s).sched = s.sched := rfl
@[simp] theorem resetBlock_seen (s : State) : (resetBlock s).seen = s.seen := rfl

@[simp] theorem nodeWrite_cfg (s : State) (i : Nat) (n : Node) : (nodeWrite s i n).cfg = s.cfg := rfl
@[simp] theorem nodeWrite_fsm (s : State) (i : Nat) (n : Node) : (nodeWrite s i n).fsm = s.fsm := rfl
@[simp] theorem nodeWrite_cur (s : State) (i : Nat) (n : Node) : (nodeWrite s i n).cur = s.cur := rfl
@[simp] theorem nodeWrite_symAcc (s : State) (i : Nat) (n : Node) : (nodeWrite s i n).symAcc = s.symAcc := rfl
@[simp] theorem nodeWrite_symCnt (s : State) (i : Nat) (n : Node) : (nodeWrite s i n).symCnt = s.symCnt := rfl
@[simp] theorem nodeWrite_nodes (s : State) (i : Nat) (n : Node) : (nodeWrite s i n).nodes = NodeMem.write s.nodes i n := rfl
@[simp] theorem nodeWrite_nodeCount (s : State) (i : Nat) (n : Node) : (nodeWrite s i n).nodeCount = s.nodeCount := rfl
@[simp] theorem nodeWrite_stack (s : State) (i : Nat) (n : Node) : (nodeWrite s i n).stack = s.stack := rfl
@[simp] theorem nodeWrite_root (s : State) (i : Nat) (n : Node) : (nodeWrite s i n).root = s.root := rfl
@[simp] theorem nodeWrite_leafCount (s : State) (i : Nat) (n : Node) : (nodeWrite s i n).leafCount = s.leafCount := rfl
@[simp] theorem nodeWrite_outCount (s : State) (i : Nat) (n : Node) : (nodeWrite s i n).outCount = s.outCount := rfl
@[simp] theorem nodeWrite_rdByte (s : State) (i : Nat) (n : Node) : (nodeWrite s i n).rdByte = s.rdByte := rfl
@[simp] theorem nodeWrite_rdRem (s : State) (i : Nat) (n : Node) : (nodeWrite s i n).rdRem = s.rdRem := rfl
@[simp] theorem nodeWrite_wrAcc (s : State) (i : Nat) (n : Node) : (nodeWrite s i n).wrAcc = s.wrAcc := rfl
@[simp] theorem nodeWrite_wrCnt (s : State) (i : Nat) (n : Node) : (nodeWrite s i n).wrCnt = s.wrCnt := rfl
@[simp] theorem nodeWrite_cmdPend (s : State) (i : Nat) (n : Node) : (nodeWrite s i n).cmdPend = s.cmdPend := rfl
@[simp] theorem nodeWrite_cmdWord (s : State) (i : Nat) (n : Node) : (nodeWrite s i n).cmdWord = s.cmdWord := rfl
@[simp] theorem nodeWrite_rdata (s : State) (i : Nat) (n : Node) : (nodeWrite s i n).rdata = s.rdata := rfl
@[simp] theorem nodeWrite_rvalid (s : State) (i : Nat) (n : Node) : (nodeWrite s i n).rvalid = s.rvalid := rfl
@[simp] theorem nodeWrite_errIllegal (s : State) (i : Nat) (n : Node) : (nodeWrite s i n).errIllegal = s.errIllegal := rfl
@[simp] theorem nodeWrite_errBusy (s : State) (i : Nat) (n : Node) : (nodeWrite s i n).errBusy = s.errBusy := rfl
@[simp] theorem nodeWrite_errOverrun (s : State) (i : Nat) (n : Node) : (nodeWrite s i n).errOverrun = s.errOverrun := rfl
@[simp] theorem nodeWrite_fcode (s : State) (i : Nat) (n : Node) : (nodeWrite s i n).fcode = s.fcode := rfl
@[simp] theorem nodeWrite_fstate (s : State) (i : Nat) (n : Node) : (nodeWrite s i n).fstate = s.fstate := rfl
@[simp] theorem nodeWrite_srcQ (s : State) (i : Nat) (n : Node) : (nodeWrite s i n).srcQ = s.srcQ := rfl
@[simp] theorem nodeWrite_srcClosed (s : State) (i : Nat) (n : Node) : (nodeWrite s i n).srcClosed = s.srcClosed := rfl
@[simp] theorem nodeWrite_snk (s : State) (i : Nat) (n : Node) : (nodeWrite s i n).snk = s.snk := rfl
@[simp] theorem nodeWrite_sched (s : State) (i : Nat) (n : Node) : (nodeWrite s i n).sched = s.sched := rfl
@[simp] theorem nodeWrite_seen (s : State) (i : Nat) (n : Node) : (nodeWrite s i n).seen = s.seen := rfl

@[simp] theorem emit_cfg (s : State) (v : Byte) : (emit v s).cfg = s.cfg := rfl
@[simp] theorem emit_fsm (s : State) (v : Byte) : (emit v s).fsm = s.fsm := rfl
@[simp] theorem emit_cur (s : State) (v : Byte) : (emit v s).cur = s.cur := rfl
@[simp] theorem emit_symAcc (s : State) (v : Byte) : (emit v s).symAcc = s.symAcc := rfl
@[simp] theorem emit_symCnt (s : State) (v : Byte) : (emit v s).symCnt = s.symCnt := rfl
@[simp] theorem emit_nodes (s : State) (v : Byte) : (emit v s).nodes = s.nodes := rfl
@[simp] theorem emit_nodeCount (s : State) (v : Byte) : (emit v s).nodeCount = s.nodeCount := rfl
@[simp] theorem emit_stack (s : State) (v : Byte) : (emit v s).stack = s.stack := rfl
@[simp] theorem emit_root (s : State) (v : Byte) : (emit v s).root = s.root := rfl
@[simp] theorem emit_leafCount (s : State) (v : Byte) : (emit v s).leafCount = s.leafCount := rfl
@[simp] theorem emit_outCount (s : State) (v : Byte) : (emit v s).outCount = s.outCount := rfl
@[simp] theorem emit_rdByte (s : State) (v : Byte) : (emit v s).rdByte = s.rdByte := rfl
@[simp] theorem emit_rdRem (s : State) (v : Byte) : (emit v s).rdRem = s.rdRem := rfl
@[simp] theorem emit_wrAcc (s : State) (v : Byte) : (emit v s).wrAcc = s.wrAcc := rfl
@[simp] theorem emit_wrCnt (s : State) (v : Byte) : (emit v s).wrCnt = s.wrCnt := rfl
@[simp] theorem emit_cmdPend (s : State) (v : Byte) : (emit v s).cmdPend = s.cmdPend := rfl
@[simp] theorem emit_cmdWord (s : State) (v : Byte) : (emit v s).cmdWord = s.cmdWord := rfl
@[simp] theorem emit_rdata (s : State) (v : Byte) : (emit v s).rdata = s.rdata := rfl
@[simp] theorem emit_rvalid (s : State) (v : Byte) : (emit v s).rvalid = s.rvalid := rfl
@[simp] theorem emit_errIllegal (s : State) (v : Byte) : (emit v s).errIllegal = s.errIllegal := rfl
@[simp] theorem emit_errBusy (s : State) (v : Byte) : (emit v s).errBusy = s.errBusy := rfl
@[simp] theorem emit_errOverrun (s : State) (v : Byte) : (emit v s).errOverrun = s.errOverrun := rfl
@[simp] theorem emit_fcode (s : State) (v : Byte) : (emit v s).fcode = s.fcode := rfl
@[simp] theorem emit_fstate (s : State) (v : Byte) : (emit v s).fstate = s.fstate := rfl
@[simp] theorem emit_srcQ (s : State) (v : Byte) : (emit v s).srcQ = s.srcQ := rfl
@[simp] theorem emit_srcClosed (s : State) (v : Byte) : (emit v s).srcClosed = s.srcClosed := rfl
@[simp] theorem emit_snk (s : State) (v : Byte) : (emit v s).snk = s.snk ++ [v] := rfl
@[simp] theorem emit_sched (s : State) (v : Byte) : (emit v s).sched = s.sched := rfl
@[simp] theorem emit_seen (s : State) (v : Byte) : (emit v s).seen = s.seen := rfl

@[simp] theorem endOfStream_cfg (s : State) (c : Nat) : (endOfStream c s).cfg = s.cfg := rfl
@[simp] theorem endOfStream_fsm (s : State) (c : Nat) : (endOfStream c s).fsm = .done := rfl
@[simp] theorem endOfStream_cur (s : State) (c : Nat) : (endOfStream c s).cur = some c := rfl
@[simp] theorem endOfStream_symAcc (s : State) (c : Nat) : (endOfStream c s).symAcc = s.symAcc := rfl
@[simp] theorem endOfStream_symCnt (s : State) (c : Nat) : (endOfStream c s).symCnt = s.symCnt := rfl
@[simp] theorem endOfStream_nodes (s : State) (c : Nat) : (endOfStream c s).nodes = s.nodes := rfl
@[simp] theorem endOfStream_nodeCount (s : State) (c : Nat) : (endOfStream c s).nodeCount = s.nodeCount := rfl
@[simp] theorem endOfStream_stack (s : State) (c : Nat) : (endOfStream c s).stack = s.stack := rfl
@[simp] theorem endOfStream_root (s : State) (c : Nat) : (endOfStream c s).root = s.root := rfl
@[simp] theorem endOfStream_leafCount (s : State) (c : Nat) : (endOfStream c s).leafCount = s.leafCount := rfl
@[simp] theorem endOfStream_outCount (s : State) (c : Nat) : (endOfStream c s).outCount = s.outCount := rfl
@[simp] theorem endOfStream_rdByte (s : State) (c : Nat) : (endOfStream c s).rdByte = s.rdByte := rfl
@[simp] theorem endOfStream_rdRem (s : State) (c : Nat) : (endOfStream c s).rdRem = s.rdRem := rfl
@[simp] theorem endOfStream_wrAcc (s : State) (c : Nat) : (endOfStream c s).wrAcc = s.wrAcc := rfl
@[simp] theorem endOfStream_wrCnt (s : State) (c : Nat) : (endOfStream c s).wrCnt = s.wrCnt := rfl
@[simp] theorem endOfStream_cmdPend (s : State) (c : Nat) : (endOfStream c s).cmdPend = s.cmdPend := rfl
@[simp] theorem endOfStream_cmdWord (s : State) (c : Nat) : (endOfStream c s).cmdWord = s.cmdWord := rfl
@[simp] theorem endOfStream_rdata (s : State) (c : Nat) : (endOfStream c s).rdata = s.rdata := rfl
@[simp] theorem endOfStream_rvalid (s : State) (c : Nat) : (endOfStream c s).rvalid = s.rvalid := rfl
@[simp] theorem endOfStream_errIllegal (s : State) (c : Nat) : (endOfStream c s).errIllegal = s.errIllegal := rfl
@[simp] theorem endOfStream_errBusy (s : State) (c : Nat) : (endOfStream c s).errBusy = s.errBusy := rfl
@[simp] theorem endOfStream_errOverrun (s : State) (c : Nat) : (endOfStream c s).errOverrun = s.errOverrun := rfl
@[simp] theorem endOfStream_fcode (s : State) (c : Nat) : (endOfStream c s).fcode = s.fcode := rfl
@[simp] theorem endOfStream_fstate (s : State) (c : Nat) : (endOfStream c s).fstate = s.fstate := rfl
@[simp] theorem endOfStream_srcQ (s : State) (c : Nat) : (endOfStream c s).srcQ = s.srcQ := rfl
@[simp] theorem endOfStream_srcClosed (s : State) (c : Nat) : (endOfStream c s).srcClosed = s.srcClosed := rfl
@[simp] theorem endOfStream_snk (s : State) (c : Nat) : (endOfStream c s).snk = s.snk := rfl
@[simp] theorem endOfStream_sched (s : State) (c : Nat) : (endOfStream c s).sched = s.sched := rfl
@[simp] theorem endOfStream_seen (s : State) (c : Nat) : (endOfStream c s).seen = s.seen := rfl

@[simp] theorem observe_cfg (s : State) (o : Seen) : (observe o s).cfg = s.cfg := rfl
@[simp] theorem observe_fsm (s : State) (o : Seen) : (observe o s).fsm = s.fsm := rfl
@[simp] theorem observe_cur (s : State) (o : Seen) : (observe o s).cur = s.cur := rfl
@[simp] theorem observe_symAcc (s : State) (o : Seen) : (observe o s).symAcc = s.symAcc := rfl
@[simp] theorem observe_symCnt (s : State) (o : Seen) : (observe o s).symCnt = s.symCnt := rfl
@[simp] theorem observe_nodes (s : State) (o : Seen) : (observe o s).nodes = s.nodes := rfl
@[simp] theorem observe_nodeCount (s : State) (o : Seen) : (observe o s).nodeCount = s.nodeCount := rfl
@[simp] theorem observe_stack (s : State) (o : Seen) : (observe o s).stack = s.stack := rfl
@[simp] theorem observe_root (s : State) (o : Seen) : (observe o s).root = s.root := rfl
@[simp] theorem observe_leafCount (s : State) (o : Seen) : (observe o s).leafCount = s.leafCount := rfl
@[simp] theorem observe_outCount (s : State) (o : Seen) : (observe o s).outCount = s.outCount := rfl
@[simp] theorem observe_rdByte (s : State) (o : Seen) : (observe o s).rdByte = s.rdByte := rfl
@[simp] theorem observe_rdRem (s : State) (o : Seen) : (observe o s).rdRem = s.rdRem := rfl
@[simp] theorem observe_wrAcc (s : State) (o : Seen) : (observe o s).wrAcc = s.wrAcc := rfl
@[simp] theorem observe_wrCnt (s : State) (o : Seen) : (observe o s).wrCnt = s.wrCnt := rfl
@[simp] theorem observe_cmdPend (s : State) (o : Seen) : (observe o s).cmdPend = s.cmdPend := rfl
@[simp] theorem observe_cmdWord (s : State) (o : Seen) : (observe o s).cmdWord = s.cmdWord := rfl
@[simp] theorem observe_rdata (s : State) (o : Seen) : (observe o s).rdata = s.rdata := rfl
@[simp] theorem observe_rvalid (s : State) (o : Seen) : (observe o s).rvalid = s.rvalid := rfl
@[simp] theorem observe_errIllegal (s : State) (o : Seen) : (observe o s).errIllegal = s.errIllegal := rfl
@[simp] theorem observe_errBusy (s : State) (o : Seen) : (observe o s).errBusy = s.errBusy := rfl
@[simp] theorem observe_errOverrun (s : State) (o : Seen) : (observe o s).errOverrun = s.errOverrun := rfl
@[simp] theorem observe_fcode (s : State) (o : Seen) : (observe o s).fcode = s.fcode := rfl
@[simp] theorem observe_fstate (s : State) (o : Seen) : (observe o s).fstate = s.fstate := rfl
@[simp] theorem observe_srcQ (s : State) (o : Seen) : (observe o s).srcQ = s.srcQ := rfl
@[simp] theorem observe_srcClosed (s : State) (o : Seen) : (observe o s).srcClosed = s.srcClosed := rfl
@[simp] theorem observe_snk (s : State) (o : Seen) : (observe o s).snk = s.snk := rfl
@[simp] theorem observe_sched (s : State) (o : Seen) : (observe o s).sched = s.sched := rfl
@[simp] theorem observe_seen (s : State) (o : Seen) : (observe o s).seen = s.seen ++ [o] := rfl

end Sys2Proof.Machine
end

