-- ==== Sys2Proof/Laws/Tree.lean ====
section
/-! SUPPORT. What allocation and Attach do (`41_tree_deserializer.md` R77, R78), each case one equation, and what node
memory reads as afterwards. -/

namespace Sys2Proof.Machine

open Sys2Proof

/-- The state after an allocation with room (`41_tree_deserializer.md` R78). -/
def allocated (kind : NodeKind) (sym : Sym) (s : State) : State :=
  { nodeWrite s s.nodeCount.toNat { kind := kind, sym := sym, left := none, right := none } with
    nodeCount := s.nodeCount + 1 }

/-- Counting one more node does not wrap below 65535. -/
theorem nodeCount_succ (c : BitVec 16) (h : c.toNat < 65535) : (c + 1).toNat = c.toNat + 1 := by
  rw [BitVec.toNat_add]; simp; omega

/-- A full node memory raises TREE_OVERFLOW and allocates nothing. -/
theorem allocNode_full (kind : NodeKind) (sym : Sym) (s : State) (k : Nat → State → Out)
    (h : s.nodeCount.toNat = s.cfg.nodeCap) : allocNode kind sym s k = .next (raiseFault .treeOverflow s) := by
  simp [allocNode, h]

/-- With room, the next entry is taken. -/
theorem allocNode_room (kind : NodeKind) (sym : Sym) (s : State) (k : Nat → State → Out)
    (h : s.nodeCount.toNat < s.cfg.nodeCap) :
    allocNode kind sym s k = k s.nodeCount.toNat (allocated kind sym s) := by
  simp [allocNode, h, Nat.ne_of_lt h, allocated]

/-- The first node of a decode becomes the root. -/
theorem attach_root (n : Nat) (s : State) (k : State → Out) (h : s.root = none) :
    attach n s k = k { s with root := some n } := by
  simp [attach, h]

/-- A parent without a left child gets it. -/
theorem attach_left (n t : Nat) (below : List Nat) (p : Node) (s : State) (k : State → Out) (hr : s.root ≠ none)
    (hs : s.stack = t :: below) (hp : nodeRead s t = some p) (hl : p.left = none) :
    attach n s k = k (nodeWrite s t { p with left := some n }) := by
  obtain ⟨r, hr⟩ := Option.ne_none_iff_exists'.mp hr
  unfold attach
  rw [hr, hs]
  simp only [withNode, hp]
  simp [hl]

/-- A parent with a left child gets its right child and is popped. -/
theorem attach_right (n t : Nat) (below : List Nat) (p : Node) (s : State) (k : State → Out) (hr : s.root ≠ none)
    (hs : s.stack = t :: below) (hp : nodeRead s t = some p) (hl : p.left ≠ none) :
    attach n s k = k { nodeWrite s t { p with right := some n } with stack := below } := by
  obtain ⟨r, hr⟩ := Option.ne_none_iff_exists'.mp hr
  unfold attach
  rw [hr, hs]
  simp only [withNode, hp]
  simp [hl]

@[simp] theorem allocated_nodeCount (kind : NodeKind) (sym : Sym) (s : State) :
    (allocated kind sym s).nodeCount = s.nodeCount + 1 := rfl
@[simp] theorem allocated_cfg (kind : NodeKind) (sym : Sym) (s : State) : (allocated kind sym s).cfg = s.cfg := rfl
@[simp] theorem allocated_root (kind : NodeKind) (sym : Sym) (s : State) : (allocated kind sym s).root = s.root := rfl
@[simp] theorem allocated_stack (kind : NodeKind) (sym : Sym) (s : State) : (allocated kind sym s).stack = s.stack := rfl

/-- The new entry reads as it was written. -/
theorem nodeRead_allocated_new (kind : NodeKind) (sym : Sym) (s : State) (h : s.nodeCount.toNat < 65535) :
    nodeRead (allocated kind sym s) s.nodeCount.toNat =
      some { kind := kind, sym := sym, left := none, right := none } := by
  rw [nodeRead_of_lt]
  · exact NodeMem.read_write_same ..
  · simp only [allocated_nodeCount, nodeCount_succ _ h]; omega

/-- The entries allocated before read as before. -/
theorem nodeRead_allocated_old (kind : NodeKind) (sym : Sym) (s : State) (i : Nat) (h : s.nodeCount.toNat < 65535)
    (hi : i < s.nodeCount.toNat) : nodeRead (allocated kind sym s) i = nodeRead s i := by
  rw [nodeRead_of_lt s i hi, nodeRead_of_lt]
  · exact NodeMem.read_write_other _ _ _ _ (by omega)
  · simp only [allocated_nodeCount, nodeCount_succ _ h]; omega

/-- A rewritten entry reads as rewritten. -/
theorem nodeRead_nodeWrite_same (s : State) (t : Nat) (n : Node) (h : t < s.nodeCount.toNat) :
    nodeRead (nodeWrite s t n) t = some n := by
  rw [nodeRead_of_lt _ _ (by simpa using h)]
  exact NodeMem.read_write_same ..

/-- The other entries read as before. -/
theorem nodeRead_nodeWrite_other (s : State) (t i : Nat) (n : Node) (h : i ≠ t) :
    nodeRead (nodeWrite s t n) i = nodeRead s i := by
  by_cases hi : i < s.nodeCount.toNat
  · rw [nodeRead_of_lt s i hi, nodeRead_of_lt _ i (by simpa using hi)]
    exact NodeMem.read_write_other _ _ _ _ h
  · simp [nodeRead, hi]

/-- `NodeRead` looks only at node memory and the node count. -/
theorem nodeRead_congr (s t : State) (i : Nat) (hn : t.nodes = s.nodes) (hc : t.nodeCount = s.nodeCount) :
    nodeRead t i = nodeRead s i := by simp [nodeRead, hn, hc]

end Sys2Proof.Machine
end

