-- ==== Sys2Proof/Laws/Invariant.lean ====
section
/-! SUPPORT. The tree invariant under growth by one node, and which fields each part of the invariant looks at. -/

namespace Sys2Proof.Machine

open Sys2Proof

/-- The tree invariant looks only at the tree's fields. -/
theorem TreeInv.congr {s t : State} (h : TreeInv s) (hcfg : t.cfg = s.cfg) (hn : t.nodes = s.nodes)
    (hc : t.nodeCount = s.nodeCount) (hs : t.stack = s.stack) (hr : t.root = s.root)
    (hl : t.leafCount = s.leafCount) : TreeInv t := by
  have hread : ∀ i, nodeRead t i = nodeRead s i := fun i => nodeRead_congr s t i hn hc
  have hk : ∀ i, kindAt t i = kindAt s i := fun i => by simp [kindAt, hread]
  have hy : ∀ i, symAt t i = symAt s i := fun i => by simp [symAt, hread]
  have hle : ∀ i, leftAt t i = leftAt s i := fun i => by simp [leftAt, hread]
  have hri : ∀ i, rightAt t i = rightAt s i := fun i => by simp [rightAt, hread]
  have hp : ∀ i, parentsOf t i = parentsOf s i := fun i => by simp [parentsOf, hle, hri, hc]
  have hlf : leafEntries t = leafEntries s := by simp [leafEntries, hk, hc]
  exact {
    canonical := by rw [hn]; exact h.canonical
    countBounded := by rw [hc, hcfg]; exact h.countBounded
    written := by simpa [hread, hc] using h.written
    rootIsEntryZero := by rw [hr, hc]; exact h.rootIsEntryZero
    leafShape := by simpa only [hk, hy, hle, hri, hc] using h.leafShape
    internalShape := by simpa only [hk, hy, hc] using h.internalShape
    leftAllocated := by simpa only [hle, hc] using h.leftAllocated
    rightAllocated := by simpa only [hri, hc] using h.rightAllocated
    stackOpen := by simpa only [hk, hri, hs] using h.stackOpen
    stackNodup := by rw [hs]; exact h.stackNodup
    offStackComplete := by simpa only [hk, hle, hri, hs, hc] using h.offStackComplete
    oneParent := by simpa only [hp, hc] using h.oneParent
    leafCountExact := by rw [hl, hlf]; exact h.leafCountExact }

/-- An empty tree: no node, no stack, no root (`43_control.md` R97, `70_reset_and_hazards.md` R119). -/
theorem TreeInv.empty {s : State} (hw : NodeMem.wf s.nodes = true) (hc : s.nodeCount = 0) (hs : s.stack = [])
    (hr : s.root = none) (hl : s.leafCount = 0) : TreeInv s := by
  refine ⟨hw, ?_, ?_, ?_, ?_, ?_, ?_, ?_, ?_, ?_, ?_, ?_, ?_⟩ <;> simp [hc, hs, hr, hl, leafEntries]

/-- How one new node of kind `kind` and symbol `sym` was linked: as the root, as a left child, or as a right child
(`41_tree_deserializer.md` R77). `l` and `r` name the parent whose left or right child it became. -/
structure Grown (kind : NodeKind) (sym : Sym) (l r : Option Nat) (s t : State) : Prop where
  cfg : t.cfg = s.cfg
  count : t.nodeCount.toNat = s.nodeCount.toNat + 1
  canonical : NodeMem.wf t.nodes = true
  root : t.root = some 0
  new : nodeRead t s.nodeCount.toNat = some { kind := kind, sym := sym, left := none, right := none }
  kinds : ∀ i < s.nodeCount.toNat, kindAt t i = kindAt s i
  syms : ∀ i < s.nodeCount.toNat, symAt t i = symAt s i
  lefts : ∀ i < s.nodeCount.toNat, leftAt t i = if l = some i then some s.nodeCount.toNat else leftAt s i
  rights : ∀ i < s.nodeCount.toNat, rightAt t i = if r = some i then some s.nodeCount.toNat else rightAt s i
  link : (s.nodeCount.toNat = 0 ∧ l = none ∧ r = none ∧ t.stack = (if kind = .internal then [0] else [])) ∨
    (∃ p below, l = some p ∧ r = none ∧ s.stack = p :: below ∧ leftAt s p = none ∧
      t.stack = (if kind = .internal then s.nodeCount.toNat :: p :: below else p :: below)) ∨
    (∃ p below, l = none ∧ r = some p ∧ s.stack = p :: below ∧ (leftAt s p).isSome = true ∧
      t.stack = (if kind = .internal then s.nodeCount.toNat :: below else below))
  leaves : t.leafCount = if kind = .leaf then s.leafCount + 1 else s.leafCount

/-- An allocated index of a stack entry. -/
theorem TreeInv.stack_lt {s : State} (h : TreeInv s) {p : Nat} (hp : p ∈ s.stack) : p < s.nodeCount.toNat := by
  have := (h.stackOpen p hp).1
  simp only [kindAt, Option.map_eq_some_iff] at this
  obtain ⟨n, hn, -⟩ := this
  exact lt_of_nodeRead s p n hn

/-- Growth by one node keeps the tree invariant. -/
theorem TreeInv.grown {s t : State} {kind : NodeKind} {sym : Sym} {l r : Option Nat} (h : TreeInv s)
    (hcap : s.nodeCount.toNat < s.cfg.nodeCap) (hlegal : s.cfg.nodeCap ≤ 65535)
    (hsym : (kind = .leaf ∧ sym ≤ eosSym) ∨ (kind = .internal ∧ sym = nas)) (g : Grown kind sym l r s t) :
    TreeInv t := by
  have hkn : kindAt t s.nodeCount.toNat = some kind := by simp [kindAt, g.new]
  have hyn : symAt t s.nodeCount.toNat = some sym := by simp [symAt, g.new]
  have hln : leftAt t s.nodeCount.toNat = none := by simp [leftAt, g.new]
  have hrn : rightAt t s.nodeCount.toNat = none := by simp [rightAt, g.new]
  -- what the parent was before: `l` had no left child, `r` had no right child, both are on the stack
  have hl0 : ∀ p, l = some p → p ∈ s.stack ∧ leftAt s p = none := by
    intro p hp
    obtain ⟨-, h1, -⟩ | ⟨q, b, h1, -, h2, h3, -⟩ | ⟨q, b, h1, -⟩ := g.link <;> simp_all
  have hr0 : ∀ p, r = some p → p ∈ s.stack ∧ (leftAt s p).isSome = true := by
    intro p hp
    obtain ⟨-, -, h1, -⟩ | ⟨q, b, -, h1, -⟩ | ⟨q, b, -, h1, h2, h3, -⟩ := g.link <;> simp_all
  have hstk : ∀ p ∈ t.stack, p = s.nodeCount.toNat ∧ kind = .internal ∨ p ∈ s.stack ∧ r ≠ some p := by
    intro p hp
    obtain ⟨h0, -, hr, hs⟩ | ⟨q, b, -, hr, hss, -, hs⟩ | ⟨q, b, -, hr, hss, -, hs⟩ := g.link
    · rw [hs] at hp; split at hp <;> simp_all
    · rw [hs] at hp; rw [hss]; split at hp <;> simp_all
    · have hnd := h.stackNodup
      rw [hss] at hnd
      have hqb : q ∉ b := (List.nodup_cons.mp hnd).1
      rw [hs] at hp; rw [hss, hr]
      have key : p ∈ b → q ≠ p := fun hb e => hqb (e ▸ hb)
      split at hp
      · simp only [List.mem_cons] at hp
        rcases hp with h1 | h1
        · exact .inl ⟨h1, by assumption⟩
        · exact .inr ⟨by simp [h1], by simpa using key h1⟩
      · exact .inr ⟨by simp [hp], by simpa using key hp⟩
  have hoff : ∀ i < s.nodeCount.toNat, i ∉ t.stack → i ∉ s.stack ∨ r = some i := by
    intro i hi hni
    obtain ⟨h0, -⟩ | ⟨q, b, -, hr, hss, -, hs⟩ | ⟨q, b, -, hr, hss, -, hs⟩ := g.link
    · omega
    · refine .inl fun hm => hni ?_
      rw [hss] at hm; rw [hs]; split
      · exact List.mem_cons_of_mem _ hm
      · exact hm
    · rw [hs] at hni; rw [hss, hr]
      by_cases hq : q = i
      · simp [hq]
      · refine .inl fun hm => hni ?_
        have hb : i ∈ b := (List.mem_cons.mp hm).resolve_left (fun e => hq e.symm)
        split
        · exact List.mem_cons_of_mem _ hb
        · exact hb
  have hlt : ∀ i, i < t.nodeCount.toNat → i < s.nodeCount.toNat ∨ i = s.nodeCount.toNat := by
    intro i hi; rw [g.count] at hi; omega
  have hpar : ∀ i < s.nodeCount.toNat, parentsOf t i = parentsOf s i := by
    intro i hi
    simp only [parentsOf, g.count, List.range_succ, List.filter_append]
    have e2 : List.filter (fun p => decide (leftAt t p = some i) || decide (rightAt t p = some i))
        [s.nodeCount.toNat] = [] := by simp [hln, hrn]
    rw [e2, List.append_nil]
    apply List.filter_congr
    intro p hp
    have hp := List.mem_range.mp hp
    rw [g.lefts p hp, g.rights p hp]
    by_cases h1 : l = some p
    · have := (hl0 p h1).2
      by_cases h2 : r = some p
      · have := (hr0 p h2).2; simp_all
      · simp [h1, h2, this]; omega
    · by_cases h2 : r = some p
      · have := (h.stackOpen p (hr0 p h2).1).2
        simp [h1, h2, this]; omega
      · simp [h1, h2]
  refine ⟨g.canonical, ?_, ?_, ?_, ?_, ?_, ?_, ?_, ?_, ?_, ?_, ?_, ?_⟩
  · rw [g.count, g.cfg]; omega
  · intro i hi
    obtain hi | rfl := hlt i hi
    · have h1 := h.written i hi
      have h2 := g.kinds i hi
      simp only [kindAt] at h2
      cases h3 : nodeRead t i <;> simp_all
    · simp [g.new]
  · rw [g.root, if_neg]
    intro hz; have := g.count; rw [hz] at this; simp at this
  · intro i hi hk
    obtain hi | rfl := hlt i hi
    · rw [g.kinds i hi] at hk
      obtain ⟨a, b, c⟩ := h.leafShape i hi hk
      have hns : i ∉ s.stack := fun hm => by have := (h.stackOpen i hm).1; simp_all
      refine ⟨?_, ?_, by rw [g.syms i hi]; exact c⟩
      · rw [g.lefts i hi, if_neg (fun e => hns (hl0 i e).1)]; exact a
      · rw [g.rights i hi, if_neg (fun e => hns (hr0 i e).1)]; exact b
    · refine ⟨hln, hrn, ?_⟩
      rw [hyn]
      rw [hkn] at hk
      rcases hsym with ⟨_, h2⟩ | ⟨h1, _⟩
      · simpa using h2
      · simp_all
  · intro i hi hk
    obtain hi | rfl := hlt i hi
    · rw [g.syms i hi]; rw [g.kinds i hi] at hk; exact h.internalShape i hi hk
    · rw [hkn] at hk; rw [hyn]
      rcases hsym with ⟨h1, _⟩ | ⟨_, h2⟩
      · simp_all
      · rw [h2]
  · intro i hi c hc
    rw [g.count]
    obtain hi | rfl := hlt i hi
    · rw [g.lefts i hi] at hc
      split at hc
      · simp at hc; omega
      · have := h.leftAllocated i hi c hc; omega
    · rw [hln] at hc; simp at hc
  · intro i hi c hc
    rw [g.count]
    obtain hi | rfl := hlt i hi
    · rw [g.rights i hi] at hc
      split at hc
      · simp at hc; omega
      · have := h.rightAllocated i hi c hc; omega
    · rw [hrn] at hc; simp at hc
  · intro p hp
    obtain ⟨rfl, rfl⟩ | ⟨hp, hr⟩ := hstk p hp
    · exact ⟨hkn, hrn⟩
    · have hlt := h.stack_lt hp
      rw [g.kinds p hlt, g.rights p hlt, if_neg hr]
      exact h.stackOpen p hp
  · have hnew : s.nodeCount.toNat ∉ s.stack := fun hm => by have := h.stack_lt hm; omega
    have hnd := h.stackNodup
    obtain ⟨-, -, -, hs⟩ | ⟨q, b, -, -, hss, -, hs⟩ | ⟨q, b, -, -, hss, -, hs⟩ := g.link
    · rw [hs]; split <;> simp
    · rw [hs]; rw [hss] at hnd hnew; split
      · exact List.nodup_cons.mpr ⟨hnew, hnd⟩
      · exact hnd
    · rw [hs]; rw [hss] at hnd hnew
      have hb := (List.nodup_cons.mp hnd).2
      split
      · exact List.nodup_cons.mpr ⟨fun hm => hnew (by simp [hm]), hb⟩
      · exact hb
  · intro i hi hk hni
    obtain hi | rfl := hlt i hi
    · rw [g.kinds i hi] at hk
      rw [g.lefts i hi, g.rights i hi]
      obtain hns | hri := hoff i hi hni
      · have := h.offStackComplete i hi hk hns
        refine ⟨?_, ?_⟩
        · split <;> simp [this]
        · split <;> simp [this]
      · have h1 := (hr0 i hri).2
        have h2 : l ≠ some i := fun e => by have := (hl0 i e).2; simp_all
        simp [hri, h2, h1]
    · exfalso
      rw [hkn] at hk
      have hk : kind = .internal := by simpa using hk
      apply hni
      obtain ⟨h0, -, -, hs⟩ | ⟨q, b, -, -, -, -, hs⟩ | ⟨q, b, -, -, -, -, hs⟩ := g.link <;> rw [hs] <;> simp [*]
  · intro i hi h0
    obtain hi | rfl := hlt i hi
    · rw [hpar i hi]; exact h.oneParent i hi h0
    · -- the new node's only parent is the one it was linked to
      have hlinked : ∃ p, p < s.nodeCount.toNat ∧ (l = some p ∧ r = none ∨ l = none ∧ r = some p) := by
        obtain ⟨hz, -⟩ | ⟨q, b, h1, h2, hss, -⟩ | ⟨q, b, h1, h2, hss, -⟩ := g.link
        · omega
        · exact ⟨q, h.stack_lt (by simp [hss]), .inl ⟨h1, h2⟩⟩
        · exact ⟨q, h.stack_lt (by simp [hss]), .inr ⟨h1, h2⟩⟩
      obtain ⟨q, hq, hlr⟩ := hlinked
      simp only [parentsOf, g.count, List.range_succ, List.filter_append]
      have e2 : List.filter (fun p => decide (leftAt t p = some s.nodeCount.toNat) ||
          decide (rightAt t p = some s.nodeCount.toNat)) [s.nodeCount.toNat] = [] := by simp [hln, hrn]
      rw [e2, List.append_nil]
      have e1 : List.filter (fun p => decide (leftAt t p = some s.nodeCount.toNat) ||
          decide (rightAt t p = some s.nodeCount.toNat)) (List.range s.nodeCount.toNat) =
          List.filter (fun p => decide (p = q)) (List.range s.nodeCount.toNat) := by
        apply List.filter_congr
        intro p hp
        have hp := List.mem_range.mp hp
        have a : leftAt s p ≠ some s.nodeCount.toNat := fun e => by
          have := h.leftAllocated p hp _ e; omega
        have b : rightAt s p ≠ some s.nodeCount.toNat := fun e => by
          have := h.rightAllocated p hp _ e; omega
        rw [g.lefts p hp, g.rights p hp]
        have hc : (q = p) = (p = q) := propext eq_comm
        rcases hlr with ⟨h1, h2⟩ | ⟨h1, h2⟩ <;> by_cases e : p = q <;> simp [h1, h2, hc, e, a, b]
      rw [e1]
      have : List.filter (fun p => decide (p = q)) (List.range s.nodeCount.toNat) = [q] := by
        have h1 := List.filter_eq (l := List.range s.nodeCount.toNat) q
        rw [h1, List.count_eq_one_of_mem List.nodup_range (List.mem_range.mpr hq)]; rfl
      simp [this]
  · have hle : leafEntries t = leafEntries s ++ (if kind = .leaf then [s.nodeCount.toNat] else []) := by
      simp only [leafEntries, g.count, List.range_succ, List.filter_append]
      congr 1
      · apply List.filter_congr
        intro p hp; rw [g.kinds p (List.mem_range.mp hp)]
      · cases kind <;> simp [hkn]
    rw [hle, g.leaves]
    have hb : (leafEntries s).length ≤ s.nodeCount.toNat := by
      have := List.length_filter_le (fun i => decide (kindAt s i = some .leaf)) (List.range s.nodeCount.toNat)
      simpa [leafEntries] using this
    have := h.leafCountExact
    cases kind <;> simp
    · exact this
    · omega

/-- What node memory reads as after a new entry is written and its parent `p` rewritten as `q`. -/
theorem nodeRead_linked {s t : State} {kind : NodeKind} {sym : Sym} {p : Nat} {q : Node}
    (h65 : s.nodeCount.toNat < 65535) (hp : p < s.nodeCount.toNat)
    (hn : t.nodes = NodeMem.write (allocated kind sym s).nodes p q) (hc : t.nodeCount = s.nodeCount + 1) :
    nodeRead t s.nodeCount.toNat = some { kind := kind, sym := sym, left := none, right := none } ∧
      ∀ i < s.nodeCount.toNat, nodeRead t i = if i = p then some q else nodeRead s i := by
  have e : ∀ i, nodeRead t i = nodeRead (nodeWrite (allocated kind sym s) p q) i :=
    fun i => nodeRead_congr _ _ i hn hc
  refine ⟨?_, fun i hi => ?_⟩
  · rw [e, nodeRead_nodeWrite_other _ _ _ _ (by omega)]; exact nodeRead_allocated_new kind sym s h65
  · rw [e]; split
    · rename_i hip; subst hip
      exact nodeRead_nodeWrite_same _ _ _ (by rw [allocated_nodeCount, nodeCount_succ _ h65]; omega)
    · rename_i hip
      rw [nodeRead_nodeWrite_other _ _ _ _ hip]; exact nodeRead_allocated_old kind sym s i h65 hi

/-- Growth by a left child of the node on top of the stack. -/
theorem Grown.ofLeft {s t : State} {kind : NodeKind} {sym : Sym} {p : Nat} {below : List Nat} {nd : Node}
    (h : TreeInv s) (h65 : s.nodeCount.toNat < 65535) (hs : s.stack = p :: below) (hnd : nodeRead s p = some nd)
    (hl : nd.left = none) (hr : s.root = some 0) (hcfg : t.cfg = s.cfg)
    (hn : t.nodes = NodeMem.write (allocated kind sym s).nodes p { nd with left := some s.nodeCount.toNat })
    (hc : t.nodeCount = s.nodeCount + 1) (hroot : t.root = s.root)
    (hst : t.stack = if kind = .internal then s.nodeCount.toNat :: s.stack else s.stack)
    (hlc : t.leafCount = if kind = .leaf then s.leafCount + 1 else s.leafCount) :
    Grown kind sym (some p) none s t := by
  obtain ⟨hnew, hold⟩ := nodeRead_linked h65 (lt_of_nodeRead _ _ _ hnd) hn hc
  refine ⟨hcfg, by rw [hc, nodeCount_succ _ h65], hn ▸ NodeMem.write_wf _ _ _
    (NodeMem.write_wf _ _ _ h.canonical), by rw [hroot, hr], hnew, ?_, ?_, ?_, ?_,
    .inr (.inl ⟨p, below, rfl, rfl, hs, by simp [leftAt, hnd, hl], by rw [hst, hs]⟩), hlc⟩
  all_goals
    intro i hi
    by_cases hip : i = p
    · subst hip; simp [kindAt, symAt, leftAt, rightAt, hold i hi, hnd]
    · have : p ≠ i := Ne.symm hip
      simp [kindAt, symAt, leftAt, rightAt, hold i hi, hip, this]

/-- Growth by a right child of the node on top of the stack, which is popped. -/
theorem Grown.ofRight {s t : State} {kind : NodeKind} {sym : Sym} {p : Nat} {below : List Nat} {nd : Node}
    (h : TreeInv s) (h65 : s.nodeCount.toNat < 65535) (hs : s.stack = p :: below) (hnd : nodeRead s p = some nd)
    (hl : nd.left ≠ none) (hr : s.root = some 0) (hcfg : t.cfg = s.cfg)
    (hn : t.nodes = NodeMem.write (allocated kind sym s).nodes p { nd with right := some s.nodeCount.toNat })
    (hc : t.nodeCount = s.nodeCount + 1) (hroot : t.root = s.root)
    (hst : t.stack = if kind = .internal then s.nodeCount.toNat :: below else below)
    (hlc : t.leafCount = if kind = .leaf then s.leafCount + 1 else s.leafCount) :
    Grown kind sym none (some p) s t := by
  obtain ⟨hnew, hold⟩ := nodeRead_linked h65 (lt_of_nodeRead _ _ _ hnd) hn hc
  refine ⟨hcfg, by rw [hc, nodeCount_succ _ h65], hn ▸ NodeMem.write_wf _ _ _
    (NodeMem.write_wf _ _ _ h.canonical), by rw [hroot, hr], hnew, ?_, ?_, ?_, ?_,
    .inr (.inr ⟨p, below, rfl, rfl, hs, by simp [leftAt, hnd, Option.isSome_iff_ne_none, hl], hst⟩), hlc⟩
  all_goals
    intro i hi
    by_cases hip : i = p
    · subst hip; simp [kindAt, symAt, leftAt, rightAt, hold i hi, hnd]
    · have : p ≠ i := Ne.symm hip
      simp [kindAt, symAt, leftAt, rightAt, hold i hi, hip, this]

/-- Allocation with room and Attach, on a tree that is still open: the one state they lead to, and how it has grown
(`41_tree_deserializer.md` R77, R78). `lc` is the leaf count the caller sets in between. -/
theorem attach_grows (kind : NodeKind) (sym : Sym) (lc : Word) {s : State} (h : TreeInv s)
    (hcap : s.nodeCount.toNat < s.cfg.nodeCap) (hlegal : s.cfg.nodeCap ≤ 65535)
    (hopen : s.root ≠ none → s.stack ≠ []) (hlc : lc = if kind = .leaf then s.leafCount + 1 else s.leafCount) :
    ∃ nd st rt l r,
      (∀ k : State → Out, attach s.nodeCount.toNat { allocated kind sym s with leafCount := lc } k =
        k { s with nodes := nd, nodeCount := s.nodeCount + 1, stack := st, root := rt, leafCount := lc }) ∧
      Grown kind sym l r s { s with
        nodes := nd
        nodeCount := s.nodeCount + 1
        stack := if kind = .internal then s.nodeCount.toNat :: st else st
        root := rt
        leafCount := lc } := by
  have h65 : s.nodeCount.toNat < 65535 := by omega
  by_cases hr : s.root = none
  · have hz : s.nodeCount.toNat = 0 := by
      have := h.rootIsEntryZero
      rw [hr] at this
      split at this
      · rename_i hz; simp [hz]
      · simp at this
    have hst : s.stack = [] := by
      cases hs : s.stack with
      | nil => rfl
      | cons p b => have := h.stack_lt (p := p) (by simp [hs]); omega
    refine ⟨_, s.stack, some s.nodeCount.toNat, none, none, fun k => attach_root _ _ _ hr, ?_⟩
    refine ⟨rfl, nodeCount_succ _ h65, NodeMem.write_wf _ _ _ h.canonical, by simp [hz], ?_, by omega, by omega,
      by omega, by omega, .inl ⟨hz, rfl, rfl, by simp [hz, hst]⟩, hlc⟩
    exact nodeRead_allocated_new kind sym s h65
  · obtain ⟨p, below, hs⟩ : ∃ p below, s.stack = p :: below := by
      cases hs : s.stack with
      | nil => exact absurd hs (hopen hr)
      | cons p b => exact ⟨p, b, rfl⟩
    have hp : p < s.nodeCount.toNat := h.stack_lt (by simp [hs])
    obtain ⟨nd, hnd⟩ := Option.isSome_iff_exists.mp (h.written p hp)
    have hroot : s.root = some 0 := by
      have := h.rootIsEntryZero; split at this
      · exact absurd this hr
      · exact this
    have hpread : nodeRead { allocated kind sym s with leafCount := lc } p = some nd := by
      rw [← hnd]; exact nodeRead_allocated_old kind sym s p h65 hp
    by_cases hl : nd.left = none
    · exact ⟨_, s.stack, s.root, some p, none, fun k => attach_left _ p below nd _ _ hr hs hpread hl,
        Grown.ofLeft h h65 hs hnd hl hroot rfl rfl rfl rfl rfl hlc⟩
    · exact ⟨_, below, s.root, none, some p, fun k => attach_right _ p below nd _ _ hr hs hpread hl,
        Grown.ofRight h h65 hs hnd hl hroot rfl rfl rfl rfl rfl hlc⟩

/-- The sequencer's invariants look only at the fields named. -/
theorem PhaseInv.congr {s t : State} (h : PhaseInv s) (hacc : t.symAcc = s.symAcc) (hcfg : t.cfg = s.cfg)
    (hfsm : t.fsm = s.fsm) (hcnt : t.symCnt = s.symCnt) (hr : t.root = s.root) (hs : t.stack = s.stack)
    (hn : t.nodes = s.nodes) (hc : t.nodeCount = s.nodeCount) (hcur : t.cur = s.cur) : PhaseInv t := by
  have hread : ∀ i, nodeRead t i = nodeRead s i := fun i => nodeRead_congr s t i hn hc
  have hk : ∀ i, kindAt t i = kindAt s i := fun i => by simp [kindAt, hread]
  have hy : ∀ i, symAt t i = symAt s i := fun i => by simp [symAt, hread]
  exact {
    symbolFits := by rw [hacc, hcfg]; exact h.symbolFits
    fieldOpen := by rw [hfsm, hcnt, hcfg]; exact h.fieldOpen
    headerOpen := by rw [hfsm, hr, hs]; exact h.headerOpen
    walkerParked := by rw [hfsm, hcur]; exact h.walkerParked
    treeComplete := by rw [hfsm, hs, hk]; exact h.treeComplete
    walkerInside := by rw [hfsm]; simpa only [hcur, hk] using h.walkerInside
    doneAtEos := by rw [hfsm]; simpa only [hcur, hk, hy] using h.doneAtEos }

/-- The invariant looks only at the fields named: not at the latch, the RDATA result, the error flags, the counters of
emitted bytes, the reader, the streams or the host's lists. -/
theorem Inv.congr {s t : State} (h : Inv s) (hacc : t.symAcc = s.symAcc) (hcfg : t.cfg = s.cfg)
    (hfsm : t.fsm = s.fsm) (hcnt : t.symCnt = s.symCnt) (hr : t.root = s.root) (hs : t.stack = s.stack)
    (hn : t.nodes = s.nodes) (hc : t.nodeCount = s.nodeCount) (hcur : t.cur = s.cur)
    (hl : t.leafCount = s.leafCount) (hwa : t.wrAcc = s.wrAcc) (hwc : t.wrCnt = s.wrCnt)
    (hfc : t.fcode = s.fcode) (hfs : t.fstate = s.fstate) : Inv t where
  legal := by rw [hcfg]; exact h.legal
  tree := h.tree.congr hcfg hn hc hs hr hl
  phase := h.phase.congr hacc hcfg hfsm hcnt hr hs hn hc hcur
  writerPadding := by rw [hcfg, hwa, hwc]; exact h.writerPadding
  faultRecord := by
    have := h.faultRecord
    unfold FaultRecordOk at *
    rw [hfsm, hfc, hfs]; exact this

end Sys2Proof.Machine
end

