-- ==== Sys2Proof/Laws/PerInstr.lean ====
section
/-! SUPPORT. Statements about each instruction as syntax, one lemma per constructor. -/

namespace Sys2Proof.Laws.TableRow

open Sys2Proof

/-- The encoding of the instruction, where it is a command word, is well-formed only as a word of the row of
`30_encoding.md` R56 that has its mnemonic; a stream token has no command word. -/
def Statement (i : Instr) : Prop :=
  ∀ w, i.wellFormed = true → encode i = .command w → ∃ r ∈ commandTable, r.mnemonic = i.mnemonic ∧ r.matchesWord w = true

theorem nop : Statement .nop := fun w _ h => by
  cases h; exact ⟨⟨"NOP", 0x00000000, 0xFFFFFFFF⟩, by decide, rfl, rfl⟩
theorem decStart : Statement .decStart := fun w _ h => by
  cases h; exact ⟨⟨"DEC_START", 0x00000100, 0xFFFFFFFF⟩, by decide, rfl, rfl⟩
theorem decAbort : Statement .decAbort := fun w _ h => by
  cases h; exact ⟨⟨"DEC_ABORT", 0x00000200, 0xFFFFFFFF⟩, by decide, rfl, rfl⟩
theorem rdBit : Statement .rdBit := fun w _ h => by
  cases h; exact ⟨⟨"RD_BIT", 0x00001000, 0xFFFFFFFF⟩, by decide, rfl, rfl⟩
theorem rdByte : Statement .rdByte := fun w _ h => by
  cases h; exact ⟨⟨"RD_BYTE", 0x00001100, 0xFFFFFFFF⟩, by decide, rfl, rfl⟩
theorem wrBit (opd : Byte) : Statement (.wrBit opd) := fun w hw h => by
  cases h
  refine ⟨⟨"WR_BIT", 0x00002000, 0xFFFFFFFE⟩, by decide, rfl, ?_⟩
  revert hw; revert opd; decide
theorem wrByte (opd : Byte) : Statement (.wrByte opd) := fun w _ h => by
  cases h
  refine ⟨⟨"WR_BYTE", 0x00002100, 0xFFFFFF00⟩, by decide, rfl, ?_⟩
  revert opd; decide
theorem wrFlush : Statement .wrFlush := fun w _ h => by
  cases h; exact ⟨⟨"WR_FLUSH", 0x00002200, 0xFFFFFFFF⟩, by decide, rfl, rfl⟩
theorem clrErr : Statement .clrErr := fun w _ h => by
  cases h; exact ⟨⟨"CLR_ERR", 0x00003000, 0xFFFFFFFF⟩, by decide, rfl, rfl⟩
theorem softReset : Statement .softReset := fun w _ h => by
  cases h; exact ⟨⟨"SOFT_RESET", 0x00003F00, 0xFFFFFFFF⟩, by decide, rfl, rfl⟩
theorem hdrNode : Statement .hdrNode := fun w _ h => by cases h
theorem hdrLeaf (part : LeafPart) : Statement (.hdrLeaf part) := fun w _ h => by cases part <;> cases h
theorem sep (v : Byte) : Statement (.sep v) := fun w _ h => by cases h
theorem payLeft : Statement .payLeft := fun w _ h => by cases h
theorem payRight : Statement .payRight := fun w _ h => by cases h

end Sys2Proof.Laws.TableRow
end

