-- ==== Sys2Proof/Laws/Reader.lean ====
section
/-! SUPPORT. The reader's specification: what `SrcFetch`, `ReadBit` and `GetByte` answer in each case (`20_memory.md`
R42, R44, R45), and reading as taking bits off `unreadBits`. -/

namespace Sys2Proof.Machine

open Sys2Proof

theorem srcFetch_cons (s : State) (v : Byte) (q : List Byte) (h : s.srcQ = v :: q) :
    srcFetch s = .got v { s with srcQ := q } := by simp [srcFetch, h]

theorem srcFetch_end (s : State) (h : s.srcQ = []) (hc : s.srcClosed = true) : srcFetch s = .eof s := by
  simp [srcFetch, h, hc]

theorem srcFetch_hold (s : State) (h : s.srcQ = []) (hc : s.srcClosed = false) : srcFetch s = .hold := by
  simp [srcFetch, h, hc]

/-- The source is empty or has a first byte. -/
theorem source_cases (s : State) : s.srcQ = [] ∨ ∃ v q, s.srcQ = v :: q := by
  cases s.srcQ <;> simp

/-- A bit of the partial byte. -/
theorem readBit_partial (s : State) (h : s.rdRem ≠ 0) :
    readBit s = .got (streamBit s.cfg.bitOrder s.rdByte (8 - s.rdRem.val))
      { s with rdRem := Fin.ofNat 8 (s.rdRem.val - 1) } := by simp [readBit, takeBit, h]

/-- The first bit of a fresh byte. -/
theorem readBit_fetch (s : State) (v : Byte) (q : List Byte) (h : s.rdRem = 0) (hq : s.srcQ = v :: q) :
    readBit s = .got (streamBit s.cfg.bitOrder v 0) { s with rdByte := v, rdRem := 7, srcQ := q } := by
  simp [readBit, takeBit, h, srcFetch_cons s v q hq]

theorem readBit_end (s : State) (h : s.rdRem = 0) (hq : s.srcQ = []) (hc : s.srcClosed = true) :
    readBit s = .eof s := by simp [readBit, h, srcFetch_end s hq hc]

theorem readBit_hold (s : State) (h : s.rdRem = 0) (hq : s.srcQ = []) (hc : s.srcClosed = false) :
    readBit s = .hold := by simp [readBit, h, srcFetch_hold s hq hc]

/-- Everything a bit read can do. -/
theorem readBit_cases (s : State) :
    (s.rdRem = 0 ∧ s.srcQ = [] ∧ s.srcClosed = false ∧ readBit s = .hold) ∨
    (s.rdRem = 0 ∧ s.srcQ = [] ∧ s.srcClosed = true ∧ readBit s = .eof s) ∨
    (∃ b v r q, readBit s = .got b { s with rdByte := v, rdRem := r, srcQ := q } ∧
      8 * q.length + r.val + 1 = 8 * s.srcQ.length + s.rdRem.val) := by
  by_cases h : s.rdRem = 0
  · cases hq : s.srcQ with
    | nil => cases hc : s.srcClosed with
      | false => simp [h, readBit_hold s h hq hc]
      | true => simp [h, readBit_end s h hq hc]
    | cons v q =>
      refine .inr (.inr ⟨_, v, 7, q, readBit_fetch s v q h hq, ?_⟩)
      simp [h]; omega
  · refine .inr (.inr ⟨_, s.rdByte, _, s.srcQ, readBit_partial s h, ?_⟩)
    have : s.rdRem.val ≠ 0 := fun hz => h (Fin.ext hz)
    have := s.rdRem.isLt
    simp [Fin.ofNat]; omega

/-- Everything a byte read can do. -/
theorem getByte_cases (s : State) :
    (s.srcQ = [] ∧ s.srcClosed = false ∧ getByte s = .hold) ∨
    (s.srcQ = [] ∧ s.srcClosed = true ∧ getByte s = .eof { s with rdRem := 0 }) ∨
    (∃ v q, s.srcQ = v :: q ∧ getByte s = .got v { s with rdRem := 0, srcQ := q }) := by
  obtain hq | ⟨v, q, hq⟩ := source_cases s
  · obtain hc | hc := Bool.eq_false_or_eq_true s.srcClosed
    · exact .inr (.inl ⟨hq, hc, by rw [getByte, srcFetch_end s hq hc]⟩)
    · exact .inl ⟨hq, hc, by rw [getByte, srcFetch_hold s hq hc]⟩
  · exact .inr (.inr ⟨v, q, hq, by rw [getByte, srcFetch_cons s v q hq]⟩)

/-- The unread bits of a partial byte, one by one. -/
theorem byteBits_drop (o : BitOrder) (v : Byte) (r : Fin 8) (h : r ≠ 0) :
    (byteBits o v).drop (8 - r.val) =
      streamBit o v (8 - r.val) :: (byteBits o v).drop (8 - (Fin.ofNat 8 (r.val - 1)).val) := by
  obtain ⟨r, hr⟩ := r
  have : r ≠ 0 := fun hz => h (Fin.ext hz)
  have : r = 1 ∨ r = 2 ∨ r = 3 ∨ r = 4 ∨ r = 5 ∨ r = 6 ∨ r = 7 := by omega
  obtain rfl | rfl | rfl | rfl | rfl | rfl | rfl := this <;> rfl

/-- A bit read takes the first unread bit. -/
theorem unreadBits_of_readBit (s t : State) (b : Bool) (h : readBit s = .got b t) :
    unreadBits s = b :: unreadBits t := by
  by_cases hr : s.rdRem = 0
  · cases hq : s.srcQ with
    | nil => cases hc : s.srcClosed with
      | false => simp [readBit_hold s hr hq hc] at h
      | true => simp [readBit_end s hr hq hc] at h
    | cons v q =>
      rw [readBit_fetch s v q hr hq] at h
      cases h
      simp [unreadBits, hr, hq, byteBits]
  · rw [readBit_partial s hr] at h
    cases h
    simp only [unreadBits]
    rw [byteBits_drop _ _ _ hr]; rfl

/-- With an unread bit left, a bit read gets it. -/
theorem readBit_of_unreadBits (s : State) (b : Bool) (rest : List Bool) (h : unreadBits s = b :: rest) :
    ∃ v r q, readBit s = .got b { s with rdByte := v, rdRem := r, srcQ := q } ∧
      unreadBits { s with rdByte := v, rdRem := r, srcQ := q } = rest ∧
      8 * q.length + r.val + 1 = 8 * s.srcQ.length + s.rdRem.val := by
  obtain ⟨hr, hq, -, -⟩ | ⟨hr, hq, -, -⟩ | ⟨b', v, r, q, hg, hl⟩ := readBit_cases s
  · simp [unreadBits, hr, hq, byteBits] at h
  · simp [unreadBits, hr, hq, byteBits] at h
  · have := unreadBits_of_readBit _ _ _ hg
    rw [h] at this
    injection this with h1 h2
    subst h1
    exact ⟨v, r, q, hg, h2.symm, hl⟩

/-- No unread bit is left exactly when the reader has no partial byte and the source is empty. -/
theorem unreadBits_nil (s : State) : unreadBits s = [] ↔ s.rdRem = 0 ∧ s.srcQ = [] := by
  constructor
  · intro h
    by_cases hr : s.rdRem = 0
    · cases hq : s.srcQ with
      | nil => simp [hr]
      | cons v q => simp [unreadBits, hr, hq, byteBits] at h
    · simp only [unreadBits] at h
      rw [byteBits_drop _ _ _ hr] at h
      simp at h
  · rintro ⟨hr, hq⟩
    simp [unreadBits, hr, hq, byteBits]

end Sys2Proof.Machine
end

