-- ==== Sys2Proof/Laws/Writer.lean ====
section
/-! SUPPORT. The writer's specification (`20_memory.md` R46 to R48) and the bits of a byte: setting one, packing them, and
reading them back in stream order. -/

namespace Sys2Proof.Machine

open Sys2Proof

/-- A bit position of a byte stays a bit position. -/
theorem bitPosition_lt (o : BitOrder) (i : Nat) (h : i < 8) : bitPosition o i < 8 := by
  cases o <;> simp [bitPosition] <;> omega

/-- Different stream indices have different places. -/
theorem bitPosition_inj (o : BitOrder) (i j : Nat) (hi : i < 8) (hj : j < 8)
    (h : bitPosition o i = bitPosition o j) : i = j := by
  cases o <;> simp [bitPosition] at h <;> omega

/-- Bit `q` of a byte whose bit `p` was set. -/
theorem getLsbD_setBit (v : Byte) (p q : Nat) (b : Bool) (hq : q < 8) :
    (setBit v p b).getLsbD q = if q = p then b else v.getLsbD q := by
  unfold setBit
  cases b <;> simp [hq] <;> by_cases h : q = p <;> simp [h] <;> omega

/-- Reading back the stream bits of a byte in which one was set. -/
theorem streamBit_setStreamBit (o : BitOrder) (v : Byte) (i j : Nat) (b : Bool) (hi : i < 8) (hj : j < 8) :
    streamBit o (setStreamBit o v i b) j = if j = i then b else streamBit o v j := by
  unfold streamBit setStreamBit
  rw [getLsbD_setBit _ _ _ _ (bitPosition_lt o j hj)]
  by_cases h : j = i
  · simp [h]
  · have : bitPosition o j ≠ bitPosition o i := fun e => h (bitPosition_inj o j i hj hi e)
    simp [h, this]

/-- A byte is its stream bits. -/
theorem eq_of_streamBits (o : BitOrder) (v w : Byte) (h : ∀ i < 8, streamBit o v i = streamBit o w i) : v = w := by
  apply BitVec.eq_of_getLsbD_eq
  intro i hi
  cases o
  · have := h (7 - i) (by omega)
    simp only [streamBit, bitPosition] at this
    rwa [show 7 - (7 - i) = i from by omega] at this
  · exact h i hi

/-- The stream bits of a byte made of bits. -/
theorem streamBit_byteOfBits (o : BitOrder) (l : List Bool) (k j : Nat) (hl : k + l.length ≤ 8) (hj : j < 8) :
    streamBit o (byteOfBits o l k) j = if k ≤ j then l.getD (j - k) false else false := by
  induction l generalizing k with
  | nil => cases o <;> simp [byteOfBits, streamBit]
  | cons b rest ih =>
    simp only [List.length_cons] at hl
    simp only [byteOfBits]
    rw [streamBit_setStreamBit o _ k j b (by omega) hj, ih (k + 1) (by omega)]
    by_cases h1 : j = k
    · simp [h1]
    · by_cases h2 : k ≤ j
      · have : j - k = (j - (k + 1)) + 1 := by omega
        simp [h1, h2, this, show k + 1 ≤ j by omega]
      · simp [h1, h2, show ¬ k + 1 ≤ j by omega]

/-- A byte made of at most eight bits reads back as them and zero padding. -/
theorem byteBits_byteOfBits (o : BitOrder) (l : List Bool) (hl : l.length ≤ 8) :
    byteBits o (byteOfBits o l 0) = l ++ List.replicate (8 - l.length) false := by
  apply List.ext_getElem
  · simp [byteBits]; omega
  · intro i h1 h2
    have hi : i < 8 := by simpa [byteBits] using h1
    have hb : (byteBits o (byteOfBits o l 0))[i] = streamBit o (byteOfBits o l 0) i := by
      simp only [byteBits, List.getElem_map]
      congr 1
      have : i = 0 ∨ i = 1 ∨ i = 2 ∨ i = 3 ∨ i = 4 ∨ i = 5 ∨ i = 6 ∨ i = 7 := by omega
      obtain rfl | rfl | rfl | rfl | rfl | rfl | rfl | rfl := this <;> rfl
    refine Eq.trans hb ?_
    rw [streamBit_byteOfBits o l 0 i (by omega) hi]
    simp [List.getElem_append]
    split <;> simp [*]

/-- Packed bits read back as themselves and less than one byte of zero padding (`30_encoding.md` R65, R68). -/
theorem flatMap_byteBits_packBits (o : BitOrder) (l : List Bool) :
    ∃ k, k < 8 ∧ (packBits o l).flatMap (byteBits o) = l ++ List.replicate k false := by
  induction l using packBits.induct with
  | case1 b0 b1 b2 b3 b4 b5 b6 b7 rest ih =>
    obtain ⟨k, hk, h⟩ := ih
    refine ⟨k, hk, ?_⟩
    simp [packBits, h, byteBits_byteOfBits]
  | case2 => exact ⟨0, by omega, rfl⟩
  | case3 l h1 h2 =>
    have hlen : l.length < 8 := by
      match l, h1 with
      | b0 :: b1 :: b2 :: b3 :: b4 :: b5 :: b6 :: b7 :: rest, h1 => exact absurd rfl (h1 b0 b1 b2 b3 b4 b5 b6 b7 rest)
      | [], _ | [_], _ | [_, _], _ | [_, _, _], _ | [_, _, _, _], _ | [_, _, _, _, _], _ | [_, _, _, _, _, _], _
      | [_, _, _, _, _, _, _], _ => simp
    have hpos : l ≠ [] := h2
    refine ⟨8 - l.length, ?_, ?_⟩
    · have := List.length_pos_of_ne_nil hpos; omega
    · rw [packBits.eq_3 o l h1 h2]
      simp [byteBits_byteOfBits o l (by omega)]

/-- `Flush` with bits pending (`20_memory.md` R48). -/
theorem flush_pending (s : State) (h : s.wrCnt ≠ 0) :
    flush s = { s with snk := s.snk ++ [s.wrAcc], wrAcc := 0, wrCnt := 0 } := by simp [flush, h, emit]

/-- `Flush` with none pending emits nothing (`20_memory.md` R48). -/
theorem flush_empty (s : State) (h : s.wrCnt = 0) : flush s = s := by simp [flush, h]

/-- `PutByte` on an aligned writer (`20_memory.md` R47). -/
theorem putByte_aligned (v : Byte) (s : State) (h : s.wrCnt = 0) :
    putByte v s = { s with snk := s.snk ++ [v] } := by simp [putByte, flush_empty s h, emit]

/-- `PutByte` on a partial byte (`20_memory.md` R47). -/
theorem putByte_pending (v : Byte) (s : State) (h : s.wrCnt ≠ 0) :
    putByte v s = { s with snk := s.snk ++ [s.wrAcc, v], wrAcc := 0, wrCnt := 0 } := by
  simp [putByte, flush_pending s h, emit]

/-- `PutByte` in one equation. -/
theorem putByte_eq (v : Byte) (s : State) :
    putByte v s = { s with
      snk := s.snk ++ (if s.wrCnt = 0 then [v] else [s.wrAcc, v])
      wrAcc := if s.wrCnt = 0 then s.wrAcc else 0
      wrCnt := 0 } := by
  by_cases h : s.wrCnt = 0
  · rw [putByte_aligned v s h]; simp [h]
  · rw [putByte_pending v s h]; simp [h]

/-- `WriteBit` that completes a byte (`20_memory.md` R46). -/
theorem writeBit_last (b : Bool) (s : State) (h : s.wrCnt = 7) :
    writeBit b s = { s with snk := s.snk ++ [setStreamBit s.cfg.bitOrder s.wrAcc 7 b], wrAcc := 0, wrCnt := 0 } := by
  simp [writeBit, h, emit]

/-- `WriteBit` that does not (`20_memory.md` R46). -/
theorem writeBit_more (b : Bool) (s : State) (h : s.wrCnt ≠ 7) :
    writeBit b s = { s with wrAcc := setStreamBit s.cfg.bitOrder s.wrAcc s.wrCnt b, wrCnt := s.wrCnt + 1 } := by
  simp [writeBit, h]

end Sys2Proof.Machine
end

