-- ==== Sys2Proof/Tests/Slice0.lean ====
section
/-! SUPPORT. Tests. Expected values are the spec's: the encodings of `30_encoding.md`, the examples of the instruction
rules, and the vectors of `95_test_vectors.md`, named at each test. After them, one witness for each statement of
`Certificates/Slice0/Obligations.lean` that has hypotheses: a state and operands that meet them. -/

namespace Sys2Proof.Tests

open Sys2Proof Sys2Proof.Machine

/-! ### Small states -/

/-- Does the outcome give a next state that passes? -/
def gives (o : Out) (p : State → Bool) : Bool :=
  match o with
  | .next t => p t
  | .fault _ => false
  | .refused _ => false

/-- IDLE, with these source bytes. -/
def withSource (q : List Byte) (closed : Bool) : State := { State.reset with srcQ := q, srcClosed := closed }

/-- Waiting for the first header bit. -/
def inHeader (q : List Byte) (closed : Bool) : State := { withSource q closed with fsm := .hdrBit }

/-- In a header after its first NODE (V-HDR-1, step 1). -/
def oneNode : State :=
  { inHeader [] false with
    nodes := [(0, ⟨.internal, 257, none, none⟩)], nodeCount := 1, root := some 0, stack := [0] }

/-- At the last bit of a leaf's field, whose first eight bits are `acc`. -/
def lastFieldBit (acc : Sym) : State := { inHeader [] false with fsm := .hdrSym, symAcc := acc, symCnt := 8 }

/-- The same inside a tree whose open node is 0. -/
def lastFieldBitIn (left : Option Nat) (below : List Nat) (acc : Sym) : State :=
  { lastFieldBit acc with
    nodes := [(0, ⟨.internal, 257, left, none⟩), (1, ⟨.leaf, 66, none, none⟩)], nodeCount := 2, root := some 0,
    stack := 0 :: below }

/-- Walking the AAAB tree (V-HDR-1) from its root. -/
def walking (q : List Byte) (closed : Bool) : State :=
  { withSource q closed with
    fsm := .walk, cur := some 0, root := some 0, nodeCount := 5, leafCount := 3
    nodes := [(0, ⟨.internal, 257, some 1, some 4⟩), (1, ⟨.internal, 257, some 2, some 3⟩),
      (2, ⟨.leaf, 66, none, none⟩), (3, ⟨.leaf, 256, none, none⟩), (4, ⟨.leaf, 65, none, none⟩)] }

/-- With this command word latched. -/
def latched (w : Word) (s : State) : State := { s with cmdPend := true, cmdWord := w }

/-- A writer with three bits placed (V-IO-4, row 3). -/
def threeBits : State := { State.reset with wrAcc := 0xA0, wrCnt := 3 }

/-- The smallest tree with a byte and EOS (V-DEC-8). -/
def treeA : Machine.Tree := .node (.leaf 65) (.leaf 256)

/-! ### Well-formedness and decoding -/

/-- `30_encoding.md` R57: WR_BIT with OPD[7:1] ≠ 0 is ill-formed, and its word is refused. -/
theorem test_wellFormed_refuses_wide_bit : (Instr.wrBit 0x02).wellFormed = false := by decide
theorem test_wellFormed_refuses_widest_bit : (Instr.wrBit 0x80).wellFormed = false := by decide
theorem test_wellFormed_admits_bit : (Instr.wrBit 0x01).wellFormed = true := by decide
theorem test_reject_wide_bit : decode (.command 0x00002002) = .error .bitOperandTooWide := rfl

/-- The words of `30_encoding.md` R56, and its reserved neighbours. -/
theorem test_decode_nop : decode (.command 0x00000000) = .ok .nop := rfl
theorem test_decode_decStart : decode (.command 0x00000100) = .ok .decStart := rfl
theorem test_decode_decAbort : decode (.command 0x00000200) = .ok .decAbort := rfl
theorem test_decode_rdBit : decode (.command 0x00001000) = .ok .rdBit := rfl
theorem test_decode_rdByte : decode (.command 0x00001100) = .ok .rdByte := rfl
theorem test_decode_wrBit : decode (.command 0x00002001) = .ok (.wrBit 1) := rfl
theorem test_decode_wrByte : decode (.command 0x0000213C) = .ok (.wrByte 0x3C) := rfl
theorem test_decode_wrByte_zero : decode (.command 0x00002100) = .ok (.wrByte 0x00) := rfl
theorem test_decode_wrFlush : decode (.command 0x00002200) = .ok .wrFlush := rfl
theorem test_decode_clrErr : decode (.command 0x00003000) = .ok .clrErr := rfl
theorem test_decode_softReset : decode (.command 0x00003F00) = .ok .softReset := rfl
theorem test_decode_hdrNode : decode (.bit .hdrBit false) = .ok .hdrNode := rfl
theorem test_decode_hdrLeaf : decode (.bit .hdrBit true) = .ok (.hdrLeaf .marker) := rfl
theorem test_decode_field : decode (.bit .hdrSym true) = .ok (.hdrLeaf (.field true)) := rfl
theorem test_decode_sep : decode (.separator 0xFF) = .ok (.sep 0xFF) := rfl
theorem test_decode_payLeft : decode (.bit .walk false) = .ok .payLeft := rfl
theorem test_decode_payRight : decode (.bit .walk true) = .ok .payRight := rfl
theorem test_reject_rsvd : decode (.command 0x00010000) = .error .rsvdNotZero := rfl
theorem test_reject_opcode : decode (.command 0x00004000) = .error .reservedOpcode := rfl
theorem test_reject_operand : decode (.command 0x00000101) = .error .operandNotZero := rfl
theorem test_encode_wrByte : encode (.wrByte 0x41) = .command 0x00002141 := by decide
theorem test_tableWord_command : decodeTableWord 32 0x00002001 = some (.wrBit 1) := by decide
theorem test_tableWord_node : decodeTableWord 8 0 = some .hdrNode := by decide
theorem test_tableWord_leaf : decodeTableWord 16 0x300 = some (.hdrLeaf .marker) := by decide
theorem test_withFetchWord_runs :
    gives (step (State.reset.withFetchWord 32 0x00002001)) (fun t => t.wrAcc == 0x80 && t.wrCnt == 1) = true := by decide
theorem test_withFetchWord_token :
    gives (step (State.reset.withFetchWord 16 0x300)) (fun t => t.fsm == .hdrSym && t.rdRem == 7) = true := by decide

/-! ### One step of each instruction -/

/-- V-IO-1, row 1; and row 5. -/
theorem test_rdBit : gives (exec .rdBit (withSource [0xC1, 0x3C] true))
    (fun t => t.rdata == 0x001 && t.rdRem == 7 && t.srcQ == [0x3C]) = true := by decide
theorem test_rdBit_end : gives (exec .rdBit (withSource [] true)) (fun t => t.rdata == 0x100 && t.rvalid) = true := by
  decide
/-- V-IO-1, row 4; and row 6. -/
theorem test_rdByte : gives (exec .rdByte { withSource [0x3C] true with rdByte := 0xC1, rdRem := 5 })
    (fun t => t.rdata == 0x23C && t.rdRem == 0 && t.srcQ == []) = true := by decide
theorem test_rdByte_end : gives (exec .rdByte (withSource [] true)) (fun t => t.rdata == 0x300) = true := by decide
/-- V-IO-4, row 3, in both bit orders. -/
theorem test_wrBit : gives (exec (.wrBit 1) { State.reset with wrAcc := 0x80, wrCnt := 2 })
    (fun t => t.wrAcc == 0xA0 && t.wrCnt == 3) = true := by decide
theorem test_wrBit_lsb : gives (exec (.wrBit 1)
    { State.reset with cfg := { Config.default with bitOrder := .lsbFirst }, wrAcc := 0x01, wrCnt := 2 })
    (fun t => t.wrAcc == 0x05 && t.wrCnt == 3) = true := by decide
/-- V-IO-4, row 4; V-IO-6. -/
theorem test_wrByte : gives (exec (.wrByte 0x3C) threeBits) (fun t => t.snk == [0xA0,
  0x3C] && t.wrCnt == 0) = true := by
  decide
theorem test_wrByte_aligned : gives (exec (.wrByte 0) State.reset) (fun t => t.snk == [0]) = true := by decide
/-- V-IO-4, rows 6 and 7. -/
theorem test_wrFlush : gives (exec .wrFlush { State.reset with wrAcc := 0x80, wrCnt := 1 })
    (fun t => t.snk == [0x80] && t.wrAcc == 0) = true := by decide
theorem test_wrFlush_empty : gives (exec .wrFlush State.reset) (fun t => t.snk == []) = true := by decide
/-- The example of `43_control.md` R96. -/
theorem test_nop : gives (exec .nop (latched 0 State.reset)) (fun t => !t.cmdPend) = true := by decide
/-- The example of `43_control.md` R97. -/
theorem test_decStart : gives (exec .decStart
    { State.reset with fsm := .fault, fcode := .truncatedPayload, rdRem := 3 })
    (fun t => t.fsm == .hdrBit && t.fcode == .none && t.nodeCount == 0 && t.rdRem == 0) = true := by decide
/-- The example of `43_control.md` R98, and its corner case. -/
theorem test_decAbort : gives (exec .decAbort (walking [] false))
    (fun t => t.fsm == .fault && t.fcode.code == 6 && t.fstate.code == 4) = true := by decide
theorem test_decAbort_done : gives (exec .decAbort { State.reset with fsm := .done }) (fun t => t.fsm == .done) = true := by
  decide
/-- The example of `43_control.md` R99. -/
theorem test_clrErr : gives (exec .clrErr { State.reset with errBusy := true }) (fun t => !t.errBusy) = true := by decide
/-- The example of `43_control.md` R100. -/
theorem test_softReset : gives (exec .softReset { walking [] false with outCount := 3, wrCnt := 2 })
    (fun t => t.fsm == .idle && t.outCount == 0 && t.wrCnt == 0 && readReg t .status == 0) = true := by decide
/-- V-HDR-1, step 2. -/
theorem test_hdrNode : gives (exec .hdrNode oneNode) (fun t => t.stack == [1, 0] && leftAt t 0 == some 1) = true := by
  decide
/-- V-HDR-1, steps 3 and 12. -/
theorem test_hdrLeaf_marker : gives (exec (.hdrLeaf .marker) oneNode) (fun t => t.fsm == .hdrSym && t.nodeCount == 1) =
    true := by decide
theorem test_hdrLeaf_field : gives (exec (.hdrLeaf (.field false)) { lastFieldBitIn none [] 33 with nodeCount := 1 })
    (fun t => t.symAcc == 66 && symAt t 1 == some 66 && leftAt t 0 == some 1 && t.fsm == .hdrBit) = true := by decide
/-- V-DEC-1, step 33. -/
theorem test_sep : gives (exec (.sep 0) { walking [] false with fsm := .sep, cur := none })
    (fun t => t.cur == some 0 && t.fsm == .walk) = true := by decide
/-- V-DEC-1, step 37; and step 40. -/
theorem test_payLeft : gives (exec .payLeft (walking [] false)) (fun t => t.cur == some 1 && t.fsm == .walk) = true := by
  decide
theorem test_payRight_eos : gives (exec .payRight { walking [] false with cur := some 1 })
    (fun t => t.cur == some 3 && t.fsm == .done) = true := by decide
/-- V-DEC-1, step 34. -/
theorem test_payRight : gives (exec .payRight (walking [] false))
    (fun t => t.snk == [0x41] && t.outCount == 1 && t.cur == some 0) = true := by decide

/-! ### Formats -/

/-- E-SRC-1: the AAAB stream, in both bit orders (V-DEC-1, V-DEC-2). -/
def treeAAAB : Machine.Tree := .node (.node (.leaf 66) (.leaf 256)) (.leaf 65)
theorem test_streamOf_msb : streamOf Config.default treeAAAB 0 [65, 65, 65, 66] =
    some [0x24, 0x2c, 0x02, 0x41, 0x00, 0xe2, 0x80] := by decide
theorem test_streamOf_lsb : streamOf { Config.default with bitOrder := .lsbFirst } treeAAAB 0 [65, 65, 65, 66] =
    some [0x24, 0x34, 0x40, 0x82, 0x00, 0x47, 0x01] := by decide
/-- V-IO-3, row 1: STATUS of a holding RD_BIT. -/
theorem test_status : statusWord (latched 0x00001000 State.reset) = 0x00000020 := by decide
/-- V-DEC-1: IOSTAT at the end. -/
theorem test_iostat : iostatWord { State.reset with symCnt := 9, rdRem := 1 } = 0x09000001 := by decide

/-! ### Witnesses: states and operands that meet the hypotheses of the statements, clause by clause -/

theorem witness_DecodeEncodeAgree :
    decode (.command 0x00002001) = .ok (.wrBit 1) ∧ (Instr.wrBit 1).wellFormed = true ∧
      encode (.wrBit 1) = .command 0x00002001 := ⟨rfl, by decide, by decide⟩

theorem witness_TableRowsDecideLegality :
    decodeCommand 0x000021FF = .ok (.wrByte 0xFF) ∧
      ∃ r : CommandRow, r ∈ commandTable ∧ 0x000021FF#32 &&& r.mask = r.pattern :=
  ⟨rfl, ⟨"WR_BYTE", 0x00002100, 0xFFFFFF00⟩, by decide, by decide⟩

theorem witness_IllegalWords :
    (∃ w : Word, w.extractLsb' 16 16 ≠ 0) ∧ (∃ w : Word, w.extractLsb' 8 8 = 0x40#8) ∧
      (∃ w : Word, w.extractLsb' 8 8 = 0x3F#8 ∧ w.extractLsb' 0 8 ≠ 0) ∧
      (∃ w : Word, w.extractLsb' 8 8 = 0x20#8 ∧ w.extractLsb' 1 7 ≠ 0) ∧
      ∃ s : State, s.cmdPend = true ∧ decodeCommand s.cmdWord = .error .bitOperandTooWide :=
  ⟨⟨0x00010000, by decide⟩, ⟨0x00004000, by decide⟩, ⟨0x00003F01, by decide⟩, ⟨0x00002002, by decide⟩,
    latched 0x00002002 State.reset, rfl, rfl⟩

theorem witness_AssemblerLines :
    assemble "WR_BIT" (some 1) = some (.wrBit 1) ∧ assemble "WR_BIT" (some 2) = none ∧
      assemble "WR_BYTE" (some 0xFF) = some (.wrByte 0xFF) ∧ assemble "WR_BYTE" (some 0x100) = none ∧
      assemble "NOP" none = some .nop ∧ assemble "NOP" (some 0) = none ∧
      (⟨"NOP", 0, 0xFFFFFFFF⟩ : CommandRow) ∈ commandTable ∧ ((15 : Nat) ≤ 15 ∧ (0x7FFF : Sym).toNat < 2 ^ 15) :=
  ⟨by decide, by decide, by decide, by decide, by decide, by decide, by decide, by decide⟩

theorem witness_StepRunsDecodedInstruction :
    (∃ (s r : State) (i : Instr), blockView s = some r ∧ s.cmdPend = true ∧ decode (.command s.cmdWord) = .ok i) ∧
    (∃ (s r : State) (p : BitPhase) (b : Bool) (t : State), blockView s = some r ∧ s.cmdPend = false ∧
      s.fsm = phaseFsm p ∧ readBit r = .got b t) ∧
    (∃ (s r : State) (v : Byte) (t : State), blockView s = some r ∧ s.cmdPend = false ∧ s.fsm = .sep ∧
      getByte r = .got v t) :=
  ⟨⟨latched 0x00001000 { State.reset with sched := [.block, .rst] }, _, .rdBit, rfl, rfl, rfl⟩,
    ⟨inHeader [0x24] true, _, .hdrBit, _, _, rfl, rfl, rfl, rfl⟩,
    ⟨{ walking [0xFF] true with fsm := .sep }, _, _, _, rfl, rfl, rfl, rfl⟩⟩

theorem witness_BlockStepSelection :
    (∃ s r : State, blockView s = some r) ∧
    (∃ (s : State) (e : Reject), s.cmdPend = true ∧ decodeCommand s.cmdWord = .error e) ∧
    (∃ (s : State) (i : Instr) (t : State), s.cmdPend = true ∧ decodeCommand s.cmdWord = .ok i ∧
      busyRejected i = true ∧ busy s = true ∧
      blockStep s = .next t) ∧
    (∃ s : State, s.cmdPend = false ∧ s.fsm = .hdrBit) ∧ (∃ s : State, s.cmdPend = false ∧ s.fsm = .hdrSym) ∧
    (∃ s : State, s.cmdPend = false ∧ s.fsm = .sep) ∧ (∃ s : State, s.cmdPend = false ∧ s.fsm = .walk) ∧
    (∃ s : State, s.cmdPend = false ∧ busy s = false) :=
  ⟨⟨State.reset, _, rfl⟩, ⟨latched 0x00004000 State.reset, _, rfl, rfl⟩,
    ⟨latched 0x00000100 (walking [] false), _, _, rfl, rfl, rfl, rfl, rfl⟩, ⟨inHeader [] false, rfl, rfl⟩,
    ⟨lastFieldBit 0, rfl, rfl⟩, ⟨{ walking [] false with fsm := .sep }, rfl, rfl⟩, ⟨walking [] false, rfl, rfl⟩,
    ⟨State.reset, rfl, rfl⟩⟩

theorem witness_StepPriority :
    (∃ (s : State) (e : Reject), s.cmdPend = true ∧ busy s = true ∧ decodeCommand s.cmdWord = .error e) ∧
    (∃ s : State, s.cmdPend = false ∧ s.fsm = phaseFsm .hdrBit ∧ s.rdRem = 0 ∧ s.srcQ = [] ∧ s.srcClosed = true) ∧
    (∃ s : State, s.cmdPend = false ∧ s.fsm = phaseFsm .walk ∧ s.rdRem = 0 ∧ s.srcQ = [] ∧ s.srcClosed = true) ∧
    (∃ (s : State) (b : Bool), s.cfg.Legal ∧ s.symCnt.val + 1 = s.cfg.symBits ∧ s.nodeCount.toNat = s.cfg.nodeCap ∧
      256 < (2 * s.symAcc.toNat + b.toNat) % 2 ^ s.cfg.symBits) ∧
    (∃ (s t : State) (b : Bool), s.cfg.Legal ∧ exec (.hdrLeaf (.field b)) s = .next t ∧ s.fcode ≠ .degenerateTree ∧
      t.fcode = .degenerateTree) ∧
    (∃ s : State, s.cmdPend = true ∧ s.cmdWord = 0x00000200 ∧ busy s = true) :=
  ⟨⟨latched 0x00000101 (walking [] false), _, rfl, rfl, rfl⟩, ⟨inHeader [] true, by decide⟩,
    ⟨walking [] true, by decide⟩,
    ⟨{ lastFieldBit 128 with nodeCount := 513 }, true, by decide⟩,
    ⟨lastFieldBit 32, _, true, by decide, rfl, by decide, by decide⟩,
    ⟨latched 0x00000200 (walking [] false), by decide⟩⟩

/-- For the statements about one command: BUSY and not, and the one word and another of the same OPC. -/
theorem witness_Commands :
    (∃ s : State, busy s = true) ∧ (∃ s : State, busy s = false) ∧
    (∃ s : State, opcOf s.cmdWord = 0x00 ∧ s.cmdWord ≠ 0x00000000) ∧
    (∃ s : State, opcOf s.cmdWord = 0x01 ∧ s.cmdWord ≠ 0x00000100) ∧
    (∃ s : State, opcOf s.cmdWord = 0x02 ∧ s.cmdWord ≠ 0x00000200) ∧
    (∃ s : State, opcOf s.cmdWord = 0x30 ∧ s.cmdWord ≠ 0x00003000) ∧
    (∃ s : State, opcOf s.cmdWord = 0x3F ∧ s.cmdWord ≠ 0x00003F00) ∧
    (∃ s : State, s.cmdWord = 0x00003F00) :=
  ⟨⟨walking [] false, rfl⟩, ⟨State.reset, rfl⟩, ⟨latched 0x00000001 State.reset, by decide⟩,
    ⟨latched 0x00000101 State.reset, by decide⟩, ⟨latched 0x00010200 State.reset, by decide⟩,
    ⟨latched 0x00003080 State.reset, by decide⟩, ⟨latched 0x00003F01 State.reset, by decide⟩,
    ⟨latched 0x00003F00 State.reset, rfl⟩⟩

theorem witness_RdBitCommand :
    (∃ s : State, busy s = false ∧ s.rdRem ≠ 0) ∧
    (∃ (s : State) (v : Byte) (q : List Byte), busy s = false ∧ s.rdRem = 0 ∧ s.srcQ = v :: q) ∧
    (∃ s : State, busy s = false ∧ s.rdRem = 0 ∧ s.srcQ = [] ∧ s.srcClosed = true) ∧
    (∃ s : State, busy s = false ∧ s.rdRem = 0 ∧ s.srcQ = [] ∧ s.srcClosed = false) ∧
    (∃ s : State, opcOf s.cmdWord = 0x10 ∧ s.cmdWord ≠ 0x00001000) :=
  ⟨⟨{ State.reset with rdRem := 7 }, by decide⟩, ⟨withSource [0xC1] true, _, _, rfl, rfl, rfl⟩,
    ⟨withSource [] true, by decide⟩, ⟨withSource [] false, by decide⟩, ⟨latched 0x00001001 State.reset, by decide⟩⟩

theorem witness_RdByteCommand :
    (∃ (s : State) (v : Byte) (q : List Byte), busy s = false ∧ s.srcQ = v :: q) ∧ (∃ s : State, busy s = false ∧
      s.srcQ = [] ∧ s.srcClosed = true) ∧
    (∃ s : State, busy s = false ∧ s.srcQ = [] ∧ s.srcClosed = false) ∧
    (∃ s : State, opcOf s.cmdWord = 0x11 ∧ s.cmdWord ≠ 0x00001100) :=
  ⟨⟨withSource [0x5A] true, _, _, rfl, rfl⟩, ⟨withSource [] true, by decide⟩, ⟨withSource [] false, by decide⟩,
    ⟨latched 0x00001101 State.reset, by decide⟩⟩

theorem witness_WrBitCommand :
    (∃ (s : State) (b : Bool), s.cmdWord = 0x00002000 ||| (BitVec.ofBool b).setWidth 32) ∧
    (∃ s : State, opcOf s.cmdWord = 0x20 ∧ s.cmdWord.extractLsb' 1 7 ≠ 0) ∧
    (∃ s : State, busy s = true) ∧ (∃ s : State, busy s = false ∧ s.wrCnt ≠ 7) ∧ (∃ s : State, busy s = false ∧
      s.wrCnt = 7) :=
  ⟨⟨latched 0x00002001 State.reset, true, by decide⟩, ⟨latched 0x000020FE State.reset, by decide⟩,
    ⟨walking [] false, rfl⟩, ⟨State.reset, by decide⟩, ⟨{ State.reset with wrCnt := 7 }, by decide⟩⟩

theorem witness_WrByteCommand :
    (∃ (s : State) (v : Byte), s.cmdWord = 0x00002100 ||| v.setWidth 32) ∧
    (∃ s : State, opcOf s.cmdWord = 0x21 ∧ s.cmdWord.extractLsb' 16 16 ≠ 0) ∧
    (∃ s : State, busy s = false ∧ s.wrCnt = 0) ∧ (∃ s : State, busy s = false ∧ s.wrCnt ≠ 0) :=
  ⟨⟨latched 0x000021FF State.reset, 0xFF, by decide⟩, ⟨latched 0x80002100 State.reset, by decide⟩,
    ⟨State.reset, by decide⟩, ⟨threeBits, by decide⟩⟩

theorem witness_WrFlushCommand :
    (∃ s : State, busy s = false ∧ s.wrCnt = 0) ∧ (∃ s : State, busy s = false ∧ s.wrCnt ≠ 0) ∧
    (∃ s : State, opcOf s.cmdWord = 0x22 ∧ s.cmdWord ≠ 0x00002200) :=
  ⟨⟨State.reset, by decide⟩, ⟨threeBits, by decide⟩, ⟨latched 0x00002201 State.reset, by decide⟩⟩

theorem witness_DecodeExclusivity :
    ∃ s : State, busy s = true ∧ s.cmdPend = true ∧ decodeCommand s.cmdWord = .ok .wrFlush :=
  ⟨latched 0x00002200 (walking [] false), rfl, rfl, rfl⟩

theorem witness_HdrBitStep :
    (∃ s : State, s.cmdPend = false ∧ s.fsm = .hdrBit ∧ s.rdRem = 0 ∧ s.srcQ = [] ∧ s.srcClosed = false) ∧
    (∃ s : State, s.cmdPend = false ∧ s.fsm = .hdrBit ∧ s.rdRem = 0 ∧ s.srcQ = [] ∧ s.srcClosed = true) ∧
    (∃ s t : State, s.cmdPend = false ∧ s.fsm = .hdrBit ∧ readBit s = .got true t) ∧
    (∃ s t : State, s.cmdPend = false ∧ s.fsm = .hdrBit ∧ readBit s = .got false t) ∧
    (∃ s : State, s.nodeCount.toNat = s.cfg.nodeCap) ∧
    (∃ s : State, s.cfg.Legal ∧ s.nodeCount.toNat < s.cfg.nodeCap ∧ s.root = none) ∧
    (∃ (s : State) (p : Node), s.cfg.Legal ∧ s.nodeCount.toNat < s.cfg.nodeCap ∧ s.root = some 0 ∧ s.stack = [0] ∧
      nodeRead s 0 = some p ∧ p.left = none) ∧
    (∃ (s : State) (p : Node), s.cfg.Legal ∧ s.nodeCount.toNat < s.cfg.nodeCap ∧ s.root = some 0 ∧ s.stack = [0] ∧
      nodeRead s 0 = some p ∧ p.left ≠ none) :=
  ⟨⟨inHeader [] false, by decide⟩, ⟨inHeader [] true, by decide⟩, ⟨inHeader [0xC0] true, _, rfl, rfl, rfl⟩,
    ⟨inHeader [0x24] true, _, rfl, rfl, rfl⟩, ⟨{ inHeader [] true with nodeCount := 513 }, by decide⟩,
    ⟨inHeader [] true, by decide⟩, ⟨oneNode, _, by decide, by decide, rfl, rfl, rfl, rfl⟩,
    ⟨lastFieldBitIn (some 1) [] 0, _, by decide, by decide, rfl, rfl, rfl, by decide⟩⟩

theorem witness_HdrSymStep :
    (∃ s : State, s.cmdPend = false ∧ s.fsm = .hdrSym ∧ s.rdRem = 0 ∧ s.srcQ = [] ∧ s.srcClosed = false) ∧
    (∃ s : State, s.cmdPend = false ∧ s.fsm = .hdrSym ∧ s.rdRem = 0 ∧ s.srcQ = [] ∧ s.srcClosed = true) ∧
    (∃ (s : State) (b : Bool) (t : State), s.cmdPend = false ∧ s.fsm = .hdrSym ∧ readBit s = .got b t) ∧
    (∃ s : State, s.cfg.Legal ∧ s.symCnt.val + 1 ≠ s.cfg.symBits) ∧
    (∃ s : State, s.cfg.Legal ∧ s.symCnt.val + 1 = s.cfg.symBits) :=
  ⟨⟨lastFieldBit 0, by decide⟩, ⟨{ lastFieldBit 0 with srcClosed := true }, by decide⟩,
    ⟨{ lastFieldBit 0 with rdRem := 1 }, _, _, rfl, rfl, rfl⟩, ⟨State.reset, by decide⟩, ⟨lastFieldBit 0, by decide⟩⟩

theorem witness_LeafCompletion :
    (∀ s, s = lastFieldBit 0 → s.cfg.Legal ∧ s.symCnt.val + 1 = s.cfg.symBits ∧ s.root = none ∧ s.stack = [] ∧
      s.nodeCount.toNat < s.cfg.nodeCap) ∧
    (257 : Sym).toNat = (2 * (lastFieldBit 128).symAcc.toNat + true.toNat) % 2 ^ 9 ∧
    (256 : Sym).toNat = (2 * (lastFieldBit 128).symAcc.toNat + false.toNat) % 2 ^ 9 ∧
    (255 : Sym).toNat = (2 * (lastFieldBit 127).symAcc.toNat + true.toNat) % 2 ^ 9 ∧
    (∃ s : State, s.cfg.Legal ∧ s.symCnt.val + 1 = s.cfg.symBits ∧ s.nodeCount.toNat = s.cfg.nodeCap) ∧
    (∃ (s : State) (p : Node), s.root = some 0 ∧ s.stack = [0] ∧ nodeRead s 0 = some p ∧ p.left = none ∧
      s.symCnt.val + 1 = s.cfg.symBits) ∧
    (∃ (s : State) (p : Node), s.root = some 0 ∧ s.stack = [0, 5] ∧ nodeRead s 0 = some p ∧ p.left ≠ none ∧
      s.symCnt.val + 1 = s.cfg.symBits) ∧
    (∃ (s : State) (p : Node), s.root = some 0 ∧ s.stack = [0] ∧ nodeRead s 0 = some p ∧ p.left ≠ none ∧
      kindAt s 0 = some .internal ∧ s.symCnt.val + 1 = s.cfg.symBits) :=
  ⟨by rintro s rfl; decide, by decide, by decide, by decide, ⟨{ lastFieldBit 0 with nodeCount := 513 }, by decide⟩,
    ⟨lastFieldBitIn none [] 0, _, rfl, rfl, rfl, rfl, rfl⟩,
    ⟨lastFieldBitIn (some 1) [5] 0, _, rfl, rfl, rfl, by decide, rfl⟩,
    ⟨lastFieldBitIn (some 1) [] 0, _, rfl, rfl, rfl, by decide, rfl, rfl⟩⟩

theorem witness_SymbolFieldValue :
    (∃ (s : State) (bits : List Bool), s.cfg.Legal ∧ bits.length + 1 = s.cfg.symBits ∧ s.symCnt.val = bits.length ∧
      s.symAcc = bits.foldl (shiftSymbol s.cfg.symBits) 0 ∧ 256 < fieldValue (bits ++ [true]) ∧
      fieldValue (bits ++ [false]) ≤ 256 ∧ s.fcode ≠ .badSymbol) ∧
    ∃ t : State, exec (.hdrLeaf (.field true)) (lastFieldBit 128) = .next t :=
  ⟨⟨lastFieldBit 128, [true, false, false, false, false, false, false, false], by decide⟩, _, rfl⟩

/-- V-DEC-8's header, with a trailing part. -/
theorem witness_HeaderBuildsTree :
    ∃ (s : State) (rest : List Bool), s.cfg.Legal ∧ treeA.symbolsLegal = true ∧ treeA.size ≤ s.cfg.nodeCap ∧
      s.sched = [] ∧
      s.cmdPend = false ∧ s.fsm = .hdrBit ∧ s.root = none ∧ s.stack = [] ∧ s.nodeCount = 0 ∧ s.leafCount = 0 ∧
      unreadBits s = treeA.header s.cfg.symBits ++ rest ∧ treeA.isNode = true ∧ s.rdRem = 0 :=
  ⟨inHeader [0x48, 0x38, 0x00, 0x00, 0x60] true, _, by decide, by decide, by decide, rfl, rfl, rfl, rfl, rfl, rfl, rfl,
    rfl, rfl, rfl⟩

theorem witness_HeaderBuildsTree_leaf :
    unreadBits (inHeader [0xC0, 0x00] true) = (Machine.Tree.leaf eosSym).header 9 ++ List.replicate 6 false ∧
    (Machine.Tree.leaf 65).isNode = false ∧ (Machine.Tree.leaf 65) ≠ .leaf eosSym ∧
    unreadBits (inHeader [0x90, 0x40] true) = (Machine.Tree.leaf 65).header 9 ++ List.replicate 6 false := by decide

theorem witness_TruncatedHeader :
    ∃ (s : State) (bits rest : List Bool), s.cfg.Legal ∧ treeA.symbolsLegal = true ∧ treeA.size ≤ s.cfg.nodeCap ∧
      s.sched = [] ∧
      s.cmdPend = false ∧ s.fsm = .hdrBit ∧ s.root = none ∧ s.stack = [] ∧ s.nodeCount = 0 ∧ s.srcClosed = true ∧
      unreadBits s = bits ∧ rest ≠ [] ∧ treeA.header s.cfg.symBits = bits ++ rest :=
  ⟨inHeader [0x48, 0x38] true, (treeA.header 9).take 16, (treeA.header 9).drop 16, by decide⟩

theorem witness_SepStep :
    (∃ s : State, s.cmdPend = false ∧ s.fsm = .sep ∧ s.srcQ = [] ∧ s.srcClosed = false) ∧
    (∃ s : State, s.cmdPend = false ∧ s.fsm = .sep ∧ s.srcQ = [] ∧ s.srcClosed = true) ∧
    (∃ (s : State) (v : Byte) (q : List Byte), s.cmdPend = false ∧ s.fsm = .sep ∧ s.srcQ = v :: q) :=
  ⟨⟨{ walking [] false with fsm := .sep }, by decide⟩, ⟨{ walking [] true with fsm := .sep }, by decide⟩,
    ⟨{ walking [0xFF] true with fsm := .sep }, _, _, rfl, rfl, rfl⟩⟩

theorem witness_WalkStep :
    (∃ s : State, s.cmdPend = false ∧ s.fsm = .walk ∧ s.rdRem = 0 ∧ s.srcQ = [] ∧ s.srcClosed = false) ∧
    (∃ s : State, s.cmdPend = false ∧ s.fsm = .walk ∧ s.rdRem = 0 ∧ s.srcQ = [] ∧ s.srcClosed = true) ∧
    (∃ s t : State, s.cmdPend = false ∧ s.fsm = .walk ∧ readBit s = .got false t) ∧
    (∃ s t : State, s.cmdPend = false ∧ s.fsm = .walk ∧ readBit s = .got true t) ∧
    (∃ (s : State) (n m : Node), s.cur = some 0 ∧ nodeRead s 0 = some n ∧ n.left = some 1 ∧ nodeRead s 1 = some m ∧
      m.kind = .internal) ∧
    (∃ (s : State) (n m : Node), s.cur = some 1 ∧ nodeRead s 1 = some n ∧ n.right = some 3 ∧ nodeRead s 3 = some m ∧
      m.kind = .leaf ∧
      m.sym = 256) ∧
    (∃ (s : State) (n m : Node), s.cur = some 0 ∧ nodeRead s 0 = some n ∧ n.right = some 4 ∧ nodeRead s 4 = some m ∧
      m.kind = .leaf ∧
      m.sym ≠ 256 ∧ s.wrCnt = 0) ∧
    (∃ (s : State) (n m : Node), s.cur = some 0 ∧ nodeRead s 0 = some n ∧ n.right = some 4 ∧ nodeRead s 4 = some m ∧
      m.kind = .leaf ∧
      m.sym ≠ 256 ∧ s.wrCnt ≠ 0) :=
  ⟨⟨walking [] false, by decide⟩, ⟨walking [] true, by decide⟩, ⟨walking [0x00] true, _, rfl, rfl, rfl⟩,
    ⟨walking [0xE2] true, _, rfl, rfl, rfl⟩, ⟨walking [] true, _, _, rfl, rfl, rfl, rfl, rfl⟩,
    ⟨{ walking [] true with cur := some 1 }, _, _, rfl, rfl, rfl, rfl, rfl, rfl⟩,
    ⟨walking [] true, _, _, rfl, rfl, rfl, rfl, rfl, by decide, rfl⟩,
    ⟨{ walking [] true with wrCnt := 3 }, _, _, rfl, rfl, rfl, rfl, rfl, by decide, by decide⟩⟩

theorem witness_PayloadCode :
    (∃ (s : State) (rest : List Bool), s.sched = [] ∧ s.cmdPend = false ∧ s.fsm = .walk ∧ s.root = some 0 ∧
      s.cur = some 0 ∧
      holdsTree s 0 treeAAAB ∧ treeAAAB.isNode = true ∧ treeAAAB.symbolAt [false, false] = some 66 ∧
      unreadBits s = [false, false] ++ rest) ∧
    treeAAAB.symbolAt [false, true] = some eosSym ∧ treeAAAB.code 65 = some [true] :=
  ⟨⟨walking [0x3F] true, _, rfl, rfl, rfl, rfl, rfl,
      ⟨1, 4, rfl, ⟨2, 3, rfl, rfl, rfl⟩, rfl⟩, rfl, rfl, rfl⟩, rfl, rfl⟩

/-- V-DEC-8's stream of "A", after DEC_START has been written. -/
theorem witness_DecodesStream :
    ∃ (s : State) (stream extra : List Byte), s.cfg.Legal ∧ treeA.isNode = true ∧ treeA.symbolsLegal = true ∧
      treeA.size ≤ s.cfg.nodeCap ∧
      s.sched = [] ∧ busy s = false ∧ s.cmdPend = true ∧ s.cmdWord = 0x00000100 ∧ s.wrCnt = 0 ∧
      treeA.codes [65] = some [false] ∧ treeA.code eosSym = some [true] ∧
      streamOf s.cfg treeA 0 [65] = some stream ∧ s.srcQ = stream ++ extra :=
  ⟨latched 0x00000100 (withSource [0x48, 0x38, 0x00, 0x00, 0x60, 0x55] true), [0x48, 0x38, 0x00, 0x00, 0x60], [0x55],
    by decide⟩

theorem witness_DegenerateStream :
    ∃ (s : State) (extra : List Byte), s.cfg.Legal ∧ s.sched = [] ∧ busy s = false ∧ s.cmdPend = true ∧
      s.cmdWord = 0x00000100 ∧
      s.srcQ = degenerateStream s.cfg ++ extra :=
  ⟨latched 0x00000100 (withSource [0xC0, 0x00, 0x55] true), [0x55], by decide⟩

/-- The same stream, cut inside the header, before the separator, before the payload, and not at all. -/
theorem witness_TruncatedStream :
    ∀ kept ∈ [[0x48], [0x48, 0x38, 0x00], [0x48, 0x38, 0x00, 0x00], ([0x48, 0x38, 0x00, 0x00, 0x60] : List Byte)],
      ∃ (s : State) (lost : List Byte), s.cfg.Legal ∧ s.sched = [] ∧ busy s = false ∧ s.cmdPend = true ∧
        s.cmdWord = 0x00000100 ∧
        s.wrCnt = 0 ∧ streamOf s.cfg treeA 0 [65] = some (kept ++ lost) ∧ s.srcQ = kept ∧ s.srcClosed = true := by
  intro kept h
  refine ⟨latched 0x00000100 (withSource kept true), [0x48, 0x38, 0x00, 0x00, 0x60].drop kept.length, ?_⟩
  simp only [List.mem_cons, List.not_mem_nil, or_false] at h
  rcases h with rfl | rfl | rfl | rfl <;> decide

theorem witness_EndOfSourceFaults :
    (∃ s : State, s.cmdPend = false ∧ s.srcQ = [] ∧ s.srcClosed = true ∧ s.fsm = .hdrSym ∧ s.rdRem = 0) ∧
    (∃ s : State, s.cmdPend = false ∧ s.srcQ = [] ∧ s.srcClosed = true ∧ s.fsm = .sep) ∧
    (∃ s : State, s.cmdPend = false ∧ s.srcQ = [] ∧ s.srcClosed = true ∧ s.fsm = .walk ∧ s.rdRem = 0) :=
  ⟨⟨{ lastFieldBit 0 with srcClosed := true }, by decide⟩, ⟨{ walking [] true with fsm := .sep }, by decide⟩,
    ⟨walking [] true, by decide⟩⟩

theorem witness_FaultEntry :
    ∃ s t : State, blockStep s = .next t ∧ s.fsm ≠ .fault ∧ t.fsm = .fault ∧ t.fcode ≠ .degenerateTree :=
  ⟨walking [] true, _, rfl, by decide, by decide, by decide⟩

theorem witness_TerminalStates :
    (∃ s : State, s.fsm = .idle ∧ s.cmdPend = false) ∧
    (∃ s t : State, s.fsm = .done ∧ step s = .next t ∧ t.fsm ≠ s.fsm) :=
  ⟨⟨State.reset, rfl, rfl⟩, ⟨latched 0x00000100 { State.reset with fsm := .done }, _, rfl, rfl, by decide⟩⟩

theorem witness_LeavingFault :
    (∃ s t : State, s.fsm = .fault ∧ step s = .next t ∧ t.fsm = .fault) ∧
    (∃ s t : State, s.fsm = .fault ∧ step s = .next t ∧ t.fsm = .hdrBit) ∧
    (∃ s t : State, s.fsm = .fault ∧ step s = .next t ∧ t.fsm = .idle) :=
  ⟨⟨latched 0x00000200 { State.reset with fsm := .fault, fcode := .badSymbol }, _, rfl, rfl, rfl⟩,
    ⟨latched 0x00000100 { State.reset with fsm := .fault }, _, rfl, rfl, rfl⟩,
    ⟨{ State.reset with fsm := .fault, sched := [.rst] }, _, rfl, rfl, rfl⟩⟩

theorem witness_DoneOnlyAtEos :
    (∃ s t : State, step s = .next t ∧ s.fsm ≠ .done ∧ t.fsm = .done ∧ s.fsm = .walk) ∧
    (∃ s t : State, step s = .next t ∧ s.fsm ≠ .done ∧ t.fsm = .done ∧ s.fsm = .hdrSym) :=
  ⟨⟨{ walking [0xFF] true with cur := some 1 }, _, rfl, by decide, by decide, rfl⟩,
    ⟨{ lastFieldBit 128 with srcQ := [0x00] }, _, rfl, by decide, by decide, rfl⟩⟩

theorem witness_CommandErrors :
    (∃ (s r : State) (e : Reject), blockView s = some r ∧ s.cmdPend = true ∧ decodeCommand s.cmdWord = .error e) ∧
    (∃ (s r : State) (i : Instr), blockView s = some r ∧ s.cmdPend = true ∧ decodeCommand s.cmdWord = .ok i ∧
      busyRejected i = true ∧
      busy s = true) ∧
    (∃ (s : State) (w : Word) (rest : List Move), s.sched = .writeReg .cmd w :: rest ∧ s.cmdPend = true) ∧
    (∃ s t : State, step s = .next t ∧ t.errIllegal = true) ∧ (∃ s t : State, step s = .next t ∧ t.errBusy = true) ∧
    (∃ s t : State, step s = .next t ∧ t.errOverrun = true) ∧
    (∃ s t : State, step s = .next t ∧ s.errIllegal = true ∧ t.errIllegal = false) :=
  ⟨⟨latched 0x00004000 State.reset, _, _, rfl, rfl, rfl⟩,
    ⟨latched 0x00002200 (walking [] false), _, _, rfl, rfl, rfl, rfl, rfl⟩,
    ⟨latched 0 { State.reset with sched := [.writeReg .cmd 0x00003F00] }, _, _, rfl, rfl⟩,
    ⟨latched 0x00004000 State.reset, _, rfl, rfl⟩, ⟨latched 0x00002200 (walking [] false), _, rfl, rfl⟩,
    ⟨latched 0 { State.reset with sched := [.writeReg .cmd 0x00003F00] }, _, rfl, rfl⟩,
    ⟨latched 0x00003000 { State.reset with errIllegal := true }, _, rfl, rfl, rfl⟩⟩

theorem witness_ReaderPrimitives :
    (∃ (s : State) (v : Byte) (q : List Byte), s.srcQ = v :: q ∧ s.rdRem = 0) ∧
    (∃ s : State, s.srcQ = [] ∧ s.srcClosed = true ∧ s.rdRem = 0) ∧
    (∃ s : State, s.srcQ = [] ∧ s.srcClosed = false ∧ s.rdRem = 0) ∧
    (∃ s : State, s.rdRem ≠ 0 ∧ s.cfg.bitOrder = .lsbFirst) :=
  ⟨⟨withSource [0xC1] true, _, _, rfl, rfl⟩, ⟨withSource [] true, by decide⟩, ⟨withSource [] false, by decide⟩,
    ⟨{ State.reset with rdRem := 1, cfg := { Config.default with bitOrder := .lsbFirst } }, by decide⟩⟩

theorem witness_WriterPrimitives :
    (∃ s : State, s.wrCnt.val + 1 < 8 ∧ s.wrCnt = 0) ∧ (∃ s : State, s.wrCnt.val + 1 = 8 ∧ s.wrCnt ≠ 0) :=
  ⟨⟨State.reset, by decide⟩, ⟨{ State.reset with wrCnt := 7 }, by decide⟩⟩

/-- V-IO-8. -/
theorem witness_BitLayerRoundTrip :
    ∃ (items : List StreamItem) (w r : State), w.wrCnt = 0 ∧ w.wrAcc = 0 ∧ r.cfg.bitOrder = w.cfg.bitOrder ∧
      r.rdRem = 0 ∧ r.srcClosed = true ∧
      (flush (writeItems items w)).snk = w.snk ++ r.srcQ :=
  ⟨[.bit true, .bit false, .bit true, .byte 0x3C, .bit true], State.reset, withSource [0xA0, 0x3C, 0x80] true,
    by decide⟩

theorem witness_HostWriteCommand :
    (∃ (s : State) (w : Word) (rest : List Move), s.sched = .writeReg .cmd w :: rest ∧ s.cmdPend = true) ∧
    (∃ (s : State) (w : Word) (rest : List Move), s.sched = .writeReg .cmd w :: rest ∧ s.cmdPend = false ∧
      w.extractLsb' 8 8 = 0x11#8) ∧
    (∃ (s : State) (w : Word) (rest : List Move), s.sched = .writeReg .cmd w :: rest ∧ s.cmdPend = false ∧
      w.extractLsb' 8 8 ≠ 0x10#8 ∧
      w.extractLsb' 8 8 ≠ 0x11#8) :=
  ⟨⟨latched 0 { State.reset with sched := [.writeReg .cmd 0] }, 0, [], rfl, rfl⟩,
    ⟨{ State.reset with sched := [.writeReg .cmd 0x00001101] }, 0x00001101, [], rfl, rfl, rfl⟩,
    ⟨{ State.reset with sched := [.writeReg .cmd 0x00000100] }, 0x00000100, [], rfl, rfl, by decide⟩⟩

theorem witness_RegisterViews : ∃ s : State, s.cfg.Legal ∧ s.cfg.bitOrder = .lsbFirst ∧ s.cfg.nodeCap = 65535 :=
  ⟨{ State.reset with cfg := ⟨.lsbFirst, 15, 65535⟩ }, by decide⟩

theorem witness_RegisterWindow :
    (∃ (s : State) (a : BusAccess) (rest : List Move) (r : Reg), s.sched = .bus a :: rest ∧
      a.addr = Config.base + Reg.offset r ∧ a.bits = 32 ∧ a.data = none) ∧
    (∃ (s : State) (a : BusAccess) (rest : List Move) (r : Reg) (w : Word), s.sched = .bus a :: rest ∧
      a.addr = Config.base + Reg.offset r ∧ a.bits = 32 ∧
      a.data = some w) ∧
    (∃ (s : State) (a : BusAccess) (rest : List Move), s.sched = .bus a :: rest ∧ Config.base ≤ a.addr ∧
      a.addr < Config.base + 0x20 ∧ a.bits ≠ 32) ∧
    (∃ (s : State) (a : BusAccess) (rest : List Move), s.sched = .bus a :: rest ∧ Config.base ≤ a.addr ∧
      a.addr < Config.base + 0x20 ∧ a.addr % 4 ≠ 0) :=
  ⟨⟨{ State.reset with sched := [.bus ⟨Config.base + Reg.offset .config, 32, none⟩] }, _, _, .config, rfl, rfl, rfl,
      rfl⟩,
    ⟨{ State.reset with sched := [.bus ⟨Config.base + Reg.offset .cmd, 32, some 0⟩] }, _, _, .cmd, _, rfl, rfl, rfl,
      rfl⟩,
    ⟨{ State.reset with sched := [.bus ⟨Config.base, 16, none⟩] }, _, _, rfl, Nat.le_refl _, by simp, by decide⟩,
    ⟨{ State.reset with sched := [.bus ⟨Config.base + 0x1E, 32, none⟩] }, _, _, rfl, by simp, by simp,
      by unfold Config.base; dsimp only; omega⟩⟩

theorem witness_RegisterAccessEffects :
    (∃ (s : State) (rest : List Move), s.sched = .readReg .rdata :: rest) ∧
    (∃ (s : State) (w : Word) (rest : List Move), s.sched = .writeReg .status w :: rest ∧ Reg.status ≠ .cmd) :=
  ⟨⟨{ State.reset with sched := [.readReg .rdata] }, _, rfl⟩,
    ⟨{ State.reset with sched := [.writeReg .status 0] }, 0, [], rfl, by decide⟩⟩

theorem witness_StateAfterReset :
    (∃ (s t : State) (rest : List Move), s.sched = .rst :: rest ∧ step s = .next t) ∧
    (∃ s : State, s.cfg = Config.default) ∧ Reg.status ≠ .config :=
  ⟨⟨{ walking [] false with sched := [.rst], rvalid := true }, _, _, rfl, rfl⟩, ⟨State.reset, rfl⟩, by decide⟩

theorem witness_HostMoves :
    (∃ s : State, s.sched = [.waitCmd] ∧ s.cmdPend = false) ∧
    (∃ s t : State, s.sched = [.waitCmd] ∧ s.cmdPend = true ∧ blockStep { s with sched := [] } = .next t) ∧
    (∃ s : State, s.sched = [.waitIdle] ∧ s.cmdPend = false ∧ busy s = false) ∧
    (∃ s t : State, s.sched = [.waitIdle] ∧ busy s = true ∧ blockStep { s with sched := [] } = .next t) ∧
    (∃ (s : State) (a : BusAccess), s.sched = [.bus a] ∧ Config.base + 0x20 ≤ a.addr) ∧
    (∃ s : State, s.sched = [.readReg .status]) ∧
    (∃ (s : State) (bs : List Byte), s.sched = [.push bs] ∧ s.srcClosed = false) ∧
    (∃ (s : State) (bs : List Byte), s.sched = [.push bs] ∧ s.srcClosed = true) ∧
    (∃ s : State, s.sched = [.close]) ∧
    (∃ (s : State) (bs : List Byte) (c : Bool), s.sched = [.newSource bs c] ∧ busy s = true) ∧
    (∃ (s : State) (bs : List Byte) (c : Bool), s.sched = [.newSource bs c] ∧ busy s = false ∧ s.cmdPend = true ∧
      decodeCommand s.cmdWord = .ok .rdBit) ∧
    (∃ (s : State) (bs : List Byte) (c : Bool), s.sched = [.newSource bs c] ∧ busy s = false ∧ s.cmdPend = false) ∧
    (∃ s : State, s.sched = [.readSink]) ∧ (∃ s : State, s.sched = [.clearSink] ∧ busy s = true) ∧
    (∃ s : State, s.sched = [.clearSink] ∧ busy s = false ∧ s.cmdPend = true ∧ decodeCommand s.cmdWord = .ok .wrFlush) ∧
    (∃ s : State, s.sched = [.clearSink] ∧ busy s = false ∧ s.cmdPend = false) :=
  ⟨⟨{ State.reset with sched := [.waitCmd] }, rfl, rfl⟩,
    ⟨latched 0 { State.reset with sched := [.waitCmd] }, _, rfl, rfl, rfl⟩,
    ⟨{ State.reset with sched := [.waitIdle] }, rfl, rfl, rfl⟩,
    ⟨{ walking [] true with sched := [.waitIdle] }, _, rfl, rfl, rfl⟩,
    ⟨{ State.reset with sched := [.bus ⟨Config.base + 0x20, 32, none⟩] }, _, rfl, Nat.le_refl _⟩,
    ⟨{ State.reset with sched := [.readReg .status] }, rfl⟩,
    ⟨{ State.reset with sched := [.push [1]] }, _, rfl, rfl⟩,
    ⟨{ State.reset with sched := [.push [1]], srcClosed := true }, _, rfl, rfl⟩,
    ⟨{ State.reset with sched := [.close] }, rfl⟩,
    ⟨{ walking [] false with sched := [.newSource [1] true] }, _, _, rfl, rfl⟩,
    ⟨latched 0x00001000 { State.reset with sched := [.newSource [1] true] }, _, _, rfl, rfl, rfl, rfl⟩,
    ⟨{ State.reset with sched := [.newSource [1] true] }, _, _, rfl, rfl, rfl⟩,
    ⟨{ State.reset with sched := [.readSink] }, rfl⟩,
    ⟨{ walking [] false with sched := [.clearSink] }, rfl, rfl⟩,
    ⟨latched 0x00002200 { State.reset with sched := [.clearSink] }, rfl, rfl, rfl, rfl⟩,
    ⟨{ State.reset with sched := [.clearSink] }, rfl, rfl, rfl⟩⟩

/-- V-IO-3. -/
theorem witness_HeldReadBlocksCommands :
    (∃ (s : State) (w : Word) (rest : List Move), heldRead s ∧ s.sched = .writeReg .cmd w :: rest) ∧
    (∃ (s t : State) (v : Byte) (q : List Byte) (rest : List Move), heldRead s ∧ s.sched = .push (v :: q) :: rest ∧
      step s = .next t) ∧
    (∃ (s t : State) (rest : List Move), heldRead s ∧ s.sched = .close :: rest ∧ step s = .next t) ∧
    (∃ s t : State, heldRead s ∧ resetTurn s = true ∧ step s = .next t) :=
  ⟨⟨latched 0x00001000 { State.reset with sched := [.writeReg .cmd 0x00003F00] }, _, _,
      ⟨rfl, rfl, rfl, rfl, .inl ⟨rfl, rfl⟩⟩, rfl⟩,
    ⟨latched 0x00001000 { State.reset with sched := [.push [0x80]] }, _, _, _, _,
      ⟨rfl, rfl, rfl, rfl, .inl ⟨rfl, rfl⟩⟩, rfl, rfl⟩,
    ⟨latched 0x00001100 { State.reset with sched := [.close] }, _, _, ⟨rfl, rfl, rfl, rfl, .inr rfl⟩, rfl, rfl⟩,
    ⟨latched 0x00001100 { State.reset with sched := [.rst] }, _, ⟨rfl, rfl, rfl, rfl, .inr rfl⟩, rfl, rfl⟩⟩

theorem witness_EmptyOpenSourceHolds :
    (∃ s : State, s.sched = [] ∧ s.cmdPend = false ∧ busy s = true ∧ s.srcQ = [] ∧ s.srcClosed = false ∧ s.fsm = .sep) ∧
    (∃ s : State, s.sched = [] ∧ s.cmdPend = false ∧ busy s = true ∧ s.srcQ = [] ∧ s.srcClosed = false ∧ s.rdRem = 0 ∧
      s.fsm ≠ .sep) :=
  ⟨⟨{ walking [] false with fsm := .sep, rdRem := 3 }, by decide⟩, ⟨walking [] false, by decide⟩⟩

theorem witness_RstStep :
    (∃ (s : State) (rest : List Move), s.sched = .rst :: rest) ∧
    (∃ s r : State, blockView s = some r ∧ s.cmdPend = true ∧ s.cmdWord = 0x00003F00) :=
  ⟨⟨latched 0x00001000 { State.reset with sched := [.rst, .block] }, _, rfl⟩,
    ⟨latched 0x00003F00 (walking [] false), _, rfl, rfl, rfl⟩⟩

/-- A state in WALK with the AAAB tree. -/
def walkingState : State := walking [0xE2, 0x80] true

theorem walking_written : ∀ i < 5, (nodeRead walkingState i).isSome = true := by decide
theorem walking_leafShape : ∀ i < 5, kindAt walkingState i = some .leaf →
    leftAt walkingState i = none ∧ rightAt walkingState i = none ∧ ∀ x ∈ symAt walkingState i, x ≤ eosSym := by
  intro i hi hk
  obtain rfl | rfl | rfl | rfl | rfl : i = 0 ∨ i = 1 ∨ i = 2 ∨ i = 3 ∨ i = 4 := by omega
  · cases hk
  · cases hk
  · exact ⟨rfl, rfl, fun x hx => by cases hx; decide⟩
  · exact ⟨rfl, rfl, fun x hx => by cases hx; decide⟩
  · exact ⟨rfl, rfl, fun x hx => by cases hx; decide⟩
theorem walking_internalShape : ∀ i < 5, kindAt walkingState i = some .internal → symAt walkingState i = some nas := by
  decide
theorem walking_left : ∀ i < 5, ∀ c ∈ leftAt walkingState i, i < c ∧ c < 5 := by decide
theorem walking_right : ∀ i < 5, ∀ c ∈ rightAt walkingState i, i < c ∧ c < 5 := by decide
theorem walking_complete : ∀ i < 5, kindAt walkingState i = some .internal → i ∉ walkingState.stack →
    (leftAt walkingState i).isSome = true ∧ (rightAt walkingState i).isSome = true := by decide
theorem walking_oneParent : ∀ i < 5, i ≠ 0 → (parentsOf walkingState i).length = 1 := by decide
theorem walking_leaves : walkingState.leafCount.toNat = (leafEntries walkingState).length := by decide

/-- It meets the invariants. -/
theorem witness_Inv : Machine.Inv walkingState where
  legal := by decide
  tree :=
    { canonical := by decide, countBounded := by decide, written := walking_written, rootIsEntryZero := by decide
      leafShape := walking_leafShape, internalShape := walking_internalShape, leftAllocated := walking_left
      rightAllocated := walking_right, stackOpen := nofun, stackNodup := .nil, offStackComplete := walking_complete
      oneParent := walking_oneParent, leafCountExact := walking_leaves }
  phase :=
    { symbolFits := by decide, fieldOpen := nofun, headerOpen := by decide, walkerParked := by decide
      treeComplete := fun _ => ⟨rfl, rfl⟩, walkerInside := fun _ => ⟨0, rfl, rfl⟩, doneAtEos := nofun }
  writerPadding := by decide
  faultRecord := by decide

theorem witness_StepKeepsInv : ∃ s t : State, Machine.Inv s ∧ step s = .next t := ⟨walkingState, _, witness_Inv, rfl⟩

theorem witness_StepBound : ∃ s : State, Machine.Inv s ∧ s.sched = [] ∧ s.cmdPend = false ∧ s.srcClosed = true ∧
  busy s = true :=
  ⟨walkingState, witness_Inv, rfl, rfl, rfl, rfl⟩

theorem witness_BlockStepOnStreams :
    (∃ s t : State, blockStep s = .next t ∧ t.snk ≠ s.snk) ∧ (∃ s t : State, step s = .next t ∧ t.srcQ ≠ s.srcQ) :=
  ⟨⟨walking [0xE2] true, _, rfl, by decide⟩, ⟨walking [0xE2] true, _, rfl, by decide⟩⟩

theorem witness_NodeMemoryWrittenOnlyByHeader :
    (∃ s t : State, step s = .next t ∧ t.nodes ≠ s.nodes ∧ t.nodeCount ≠ s.nodeCount) ∧
    (∃ s t : State, step s = .next t ∧ s.fsm = .walk) :=
  ⟨⟨inHeader [0x24] true, _, rfl, by decide, by decide⟩, ⟨walking [0xE2] true, _, rfl, rfl⟩⟩

theorem witness_BitIoFrame :
    (∃ s t : State, exec .rdBit s = .next t) ∧ (∃ s t : State, exec .rdByte s = .next t) ∧
    (∃ (s t : State) (i : Nat), exec (.wrBit 1) s = .next t ∧ i < s.snk.length) :=
  ⟨⟨State.reset, _, rfl⟩, ⟨State.reset, _, rfl⟩, ⟨{ State.reset with snk := [1] }, _, 0, rfl, by decide⟩⟩

theorem witness_ControlFrame :
    ∀ i ∈ [Instr.nop, .clrErr, .decAbort, .decStart, .softReset], ∃ s t : State, exec i s = .next t := by
  intro i h
  simp only [List.mem_cons, List.not_mem_nil, or_false] at h
  rcases h with rfl | rfl | rfl | rfl | rfl <;> exact ⟨State.reset, _, rfl⟩

theorem witness_HeaderFrame :
    (∃ s t : State, exec .hdrNode s = .next t ∧ 5 ≠ s.nodeCount.toNat ∧ s.stack.head? ≠ some 5) ∧
    (∃ s t : State, exec (.hdrLeaf .marker) s = .next t) ∧
    (∃ (s t : State) (b : Bool), exec (.hdrLeaf (.field b)) s = .next t ∧ 5 ≠ s.nodeCount.toNat ∧
      s.stack.head? ≠ some 5) :=
  ⟨⟨oneNode, _, rfl, by decide, by decide⟩, ⟨oneNode, _, rfl⟩,
    ⟨lastFieldBitIn none [] 33, _, false, rfl, by decide, by decide⟩⟩

theorem witness_WalkFrame :
    (∃ s t : State, exec (.sep 0) s = .next t) ∧ (∃ s t : State, exec .payLeft s = .next t) ∧
    (∃ (s t : State) (i : Nat), exec .payRight s = .next t ∧ i < s.snk.length) :=
  ⟨⟨State.reset, _, rfl⟩, ⟨walking [] true, _, rfl⟩, ⟨{ walking [] true with snk := [1] }, _, 0, rfl, by decide⟩⟩

end Sys2Proof.Tests
end

section
/-! SUPPORT. One reasoning rule per shared operation of the machine: what has to be shown for every next state an
operation can answer to meet a predicate. The two claims about every step (the invariants kept, the streams' bounds) are
both derived from these rules, so no operation is unfolded twice. -/

namespace Sys2Proof.Machine

open Sys2Proof

/-- Every next state the outcome can be meets `P`; a stop answers no next state. -/
def Yields (P : State → Prop) (o : Out) : Prop := ∀ t, o = .next t → P t

@[simp] theorem yields_next (P : State → Prop) (t : State) : Yields P (.next t) ↔ P t :=
  ⟨fun h => h t rfl, fun h _ e => by cases e; exact h⟩

@[simp] theorem yields_fault (P : State → Prop) (f : Fault) : Yields P (.fault f) := fun _ e => nomatch e

@[simp] theorem yields_refused (P : State → Prop) (r : Refusal) : Yields P (.refused r) := fun _ e => nomatch e

theorem Yields.mono {P Q : State → Prop} {o : Out} (h : Yields P o) (hPQ : ∀ t, P t → Q t) : Yields Q o :=
  fun t e => hPQ t (h t e)

variable {P : State → Prop} {s : State}

/-! ### Node memory and the tree -/

theorem yields_withNode {i : Nat} {k : Node → Out} (h : ∀ n, nodeRead s i = some n → Yields P (k n)) :
    Yields P (withNode s i k) := by
  unfold withNode
  split
  · exact h _ ‹_›
  · simp

theorem yields_withIndex {i : Option Nat} {k : Nat → Out} (h : ∀ j, i = some j → Yields P (k j)) :
    Yields P (withIndex i k) := by
  cases i with
  | some j => exact h j rfl
  | none => exact yields_fault P _

theorem yields_allocNode {kind : NodeKind} {sym : Sym} {k : Nat → State → Out}
    (full : P (raiseFault .treeOverflow s))
    (room : s.nodeCount.toNat < s.cfg.nodeCap → Yields P (k s.nodeCount.toNat (allocated kind sym s))) :
    Yields P (allocNode kind sym s k) := by
  obtain hlt | heq | hgt := Nat.lt_trichotomy s.nodeCount.toNat s.cfg.nodeCap
  · rw [allocNode_room _ _ _ _ hlt]; exact room hlt
  · rw [allocNode_full _ _ _ _ heq, yields_next]; exact full
  · simp [allocNode, Nat.ne_of_gt hgt, Nat.lt_asymm hgt]

/-- Attach writes node memory, the root and the stack, and nothing else (`41_tree_deserializer.md` R77). -/
theorem yields_attach {n : Nat} {k : State → Out}
    (h : ∀ mem rt st, Yields P (k { s with nodes := mem, root := rt, stack := st })) : Yields P (attach n s k) := by
  unfold attach
  split
  · exact h s.nodes _ s.stack
  · simp
  · refine yields_withNode fun p _ => ?_
    split
    · exact h _ s.root s.stack
    · exact h _ s.root _

/-! ### The block's step -/

theorem yields_unlessBusy {k : State → Out} (rejected : P (rejectBusy s))
    (run : busy s = false → Yields P (k s)) : Yields P (unlessBusy s k) := by
  unfold unlessBusy
  split
  · exact (yields_next ..).mpr rejected
  · exact run (Bool.eq_false_iff.mpr ‹_›)

/-- A bit read answers a hold, END, or a bit of the partial byte or of the first byte of the source
(`20_memory.md` R44). -/
theorem readBit_answers (s : State) : readBit s = .hold ∨ readBit s = .eof s ∨
    ∃ b v r q, readBit s = .got b { s with rdByte := v, rdRem := r, srcQ := q } ∧
      (q = s.srcQ ∨ ∃ w, s.srcQ = w :: q) := by
  by_cases hr : s.rdRem = 0
  · obtain hq | ⟨v, q, hq⟩ := source_cases s
    · cases hc : s.srcClosed with
      | false => exact .inl (readBit_hold s hr hq hc)
      | true => exact .inr (.inl (readBit_end s hr hq hc))
    · exact .inr (.inr ⟨_, v, 7, q, readBit_fetch s v q hr hq, .inr ⟨v, hq⟩⟩)
  · exact .inr (.inr ⟨_, s.rdByte, _, s.srcQ, readBit_partial s hr, .inl rfl⟩)

/-- An illegal word is rejected; a legal one is one of the ten commands (`30_encoding.md` R56, `43_control.md` R95). -/
theorem yields_commandStep (illegal : P (rejectIllegal s)) (nop : Yields P (execNop s))
    (decStart : Yields P (execDecStart s)) (decAbort : Yields P (execDecAbort s)) (rdBit : Yields P (execRdBit s))
    (rdByte : Yields P (execRdByte s)) (wrBit : ∀ opd, Yields P (execWrBit opd s))
    (wrByte : ∀ opd, Yields P (execWrByte opd s)) (wrFlush : Yields P (execWrFlush s))
    (clrErr : Yields P (execClrErr s)) (softReset : Yields P (execSoftReset s)) : Yields P (commandStep s) := by
  unfold commandStep
  split
  · rename_i i hd
    obtain ⟨-, ⟨-, -, rfl⟩ | ⟨-, -, rfl⟩ | ⟨-, -, rfl⟩ | ⟨-, -, rfl⟩ | ⟨-, -, rfl⟩ | ⟨-, -, rfl⟩ | ⟨-, rfl⟩ |
      ⟨-, -, rfl⟩ | ⟨-, -, rfl⟩ | ⟨-, -, rfl⟩⟩ := decodeCommand_ok _ i hd
    · exact nop
    · exact decStart
    · exact decAbort
    · exact rdBit
    · exact rdByte
    · exact wrBit _
    · exact wrByte _
    · exact wrFlush
    · exact clrErr
    · exact softReset
  · exact (yields_next ..).mpr illegal

/-- A bit step holds, meets END, or runs the token of the bit read (`41_tree_deserializer.md` R79, R80). -/
theorem yields_bitStep {phase : BitPhase} (hold : P s) (ended : P (raiseFault (endFault phase) s))
    (token : ∀ b v r q, (q = s.srcQ ∨ ∃ w, s.srcQ = w :: q) →
      Yields P (exec (decodeBit phase b) { s with rdByte := v, rdRem := r, srcQ := q })) :
    Yields P (bitStep phase s) := by
  unfold bitStep
  obtain hg | hg | ⟨b, v, r, q, hg, hq⟩ := readBit_answers s
  · rw [hg]; exact (yields_next ..).mpr hold
  · rw [hg]; exact (yields_next ..).mpr ended
  · rw [hg]; exact token b v r q hq

/-- The SEP step holds, meets END, or discards a byte (`42_tree_walker.md` R85). -/
theorem yields_sepStep (hold : P s) (ended : P (raiseFault .truncatedPayload { s with rdRem := 0 }))
    (token : ∀ v q, s.srcQ = v :: q → Yields P (execSep v { s with rdRem := 0, srcQ := q })) :
    Yields P (sepStep s) := by
  unfold sepStep
  obtain ⟨-, -, hg⟩ | ⟨-, -, hg⟩ | ⟨v, q, hq, hg⟩ := getByte_cases s
  · rw [hg]; exact (yields_next ..).mpr hold
  · rw [hg]; exact (yields_next ..).mpr ended
  · rw [hg]; exact token v q hq

/-- The latched command first, then the step of the decode state; the other states have none (`43_control.md` R95). -/
theorem yields_blockStep (command : Yields P (commandStep s)) (idle : P s)
    (hdrBit : s.fsm = .hdrBit → Yields P (bitStep .hdrBit s))
    (hdrSym : s.fsm = .hdrSym → Yields P (bitStep .hdrSym s)) (sep : s.fsm = .sep → Yields P (sepStep s))
    (walk : s.fsm = .walk → Yields P (bitStep .walk s)) : Yields P (blockStep s) := by
  unfold blockStep
  split
  · exact command
  · unfold fsmStep
    split
    · exact (yields_next ..).mpr idle
    · exact hdrBit ‹_›
    · exact hdrSym ‹_›
    · exact sep ‹_›
    · exact walk ‹_›
    · exact (yields_next ..).mpr idle
    · exact (yields_next ..).mpr idle

/-! ### The machine's step -/

/-- What a register access of the host can write: the latch, RVALID, ERR_OVERRUN, and the host's own record. -/
theorem accessReg_eq (r : Reg) (d : Option Word) (s : State) : ∃ p w rv eo l, accessReg r d s =
    { s with cmdPend := p, cmdWord := w, rvalid := rv, errOverrun := eo, seen := l } := by
  cases d with
  | none => exact ⟨s.cmdPend, s.cmdWord, s.rvalid, s.errOverrun, _, rfl⟩
  | some w =>
    cases r with
    | cmd =>
      simp only [accessReg, writeReg, hostWriteCmd]
      split
      · exact ⟨s.cmdPend, s.cmdWord, s.rvalid, true, s.seen, rfl⟩
      · exact ⟨true, w, _, s.errOverrun, s.seen, rfl⟩
    | status | rdata | outCount | leafCount | nodeCount | iostat | config =>
      exact ⟨s.cmdPend, s.cmdWord, s.rvalid, s.errOverrun, s.seen, rfl⟩

/-- A poll runs the block's step and stays in the schedule (assumption log 8). -/
theorem yields_pollStep {m : Move} (block : Yields P (blockStep s))
    (sched : ∀ t l, P t → P { t with sched := l }) : Yields P (pollStep m s) := by
  unfold pollStep
  split
  · rename_i t ht; exact (yields_next ..).mpr (sched t _ (block t ht))
  · simp
  · simp

/-- One move: the block's step, RST, or a host move, which writes only the streams, the latch, RVALID, ERR_OVERRUN and
the host's own record. -/
theorem yields_moveStep (m : Move) (block : Yields P (blockStep s)) (sched : ∀ t l, P t → P { t with sched := l })
    (rst : P (resetBlock s))
    (host : ∀ q c k p w rv eo l, P { s with
      srcQ := q, srcClosed := c, snk := k, cmdPend := p, cmdWord := w, rvalid := rv, errOverrun := eo, seen := l }) :
    Yields P (moveStep m s) := by
  have stream : ∀ q c k l, P { s with srcQ := q, srcClosed := c, snk := k, seen := l } :=
    fun q c k l => host q c k s.cmdPend s.cmdWord s.rvalid s.errOverrun l
  have stay : P s := stream s.srcQ s.srcClosed s.snk s.seen
  have access : ∀ r d, Yields P (.next (accessReg r d s)) := by
    intro r d
    obtain ⟨p, w, rv, eo, l, ha⟩ := accessReg_eq r d s
    rw [yields_next, ha]
    exact host s.srcQ s.srcClosed s.snk p w rv eo l
  cases m with
  | block => exact block
  | rst => exact (yields_next ..).mpr rst
  | readReg r => exact access r none
  | writeReg r w => exact access r (some w)
  | bus a =>
    simp only [moveStep]
    split
    · exact access _ _
    · simp
  | push bs =>
    simp only [moveStep]
    split
    · simp
    · exact (yields_next ..).mpr (stream (s.srcQ ++ bs) s.srcClosed s.snk s.seen)
  | close => exact (yields_next ..).mpr (stream s.srcQ true s.snk s.seen)
  | newSource bs closed =>
    simp only [moveStep]
    split
    · simp
    · exact (yields_next ..).mpr (stream bs closed s.snk s.seen)
  | readSink => exact (yields_next ..).mpr (stream s.srcQ s.srcClosed s.snk _)
  | clearSink =>
    simp only [moveStep]
    split
    · simp
    · exact (yields_next ..).mpr (stream s.srcQ s.srcClosed [] s.seen)
  | waitCmd | waitIdle =>
    simp only [moveStep]
    split
    · exact yields_pollStep block sched
    · exact (yields_next ..).mpr stay

/-- What every block step, RST and host move keeps, every step keeps. -/
theorem yields_step (block : ∀ l, Yields P (blockStep { s with sched := l }))
    (sched : ∀ t l, P t → P { t with sched := l }) (rst : ∀ l, P (resetBlock { s with sched := l }))
    (host : ∀ h q c k p w rv eo l, P { s with
      sched := h, srcQ := q, srcClosed := c, snk := k, cmdPend := p, cmdWord := w, rvalid := rv, errOverrun := eo,
      seen := l }) : Yields P (step s) := by
  unfold step machineStep
  split
  · exact block s.sched
  · exact yields_moveStep _ (block _) sched (rst _) (host _)

end Sys2Proof.Machine
end

section
/-! SUPPORT. The invariant seen from one decode state: the part that no decode state changes, and what is to show beside
it in each (`10_state.md` R38). -/

namespace Sys2Proof.Machine

open Sys2Proof

variable {s t : State}

/-- `Inv.congr` for an update that leaves every field the invariant looks at as it was. -/
theorem Inv.frame (h : Inv s) (hacc : t.symAcc = s.symAcc := by rfl) (hcfg : t.cfg = s.cfg := by rfl)
    (hfsm : t.fsm = s.fsm := by rfl) (hcnt : t.symCnt = s.symCnt := by rfl) (hr : t.root = s.root := by rfl)
    (hs : t.stack = s.stack := by rfl) (hn : t.nodes = s.nodes := by rfl) (hc : t.nodeCount = s.nodeCount := by rfl)
    (hcur : t.cur = s.cur := by rfl) (hl : t.leafCount = s.leafCount := by rfl) (hwa : t.wrAcc = s.wrAcc := by rfl)
    (hwc : t.wrCnt = s.wrCnt := by rfl) (hfc : t.fcode = s.fcode := by rfl)
    (hfs : t.fstate = s.fstate := by rfl) : Inv t :=
  h.congr hacc hcfg hfsm hcnt hr hs hn hc hcur hl hwa hwc hfc hfs

/-- Every bit of `wr_acc` not yet written is 0 (`10_state.md` R21). -/
def WriterPadded (s : State) : Prop := ∀ i < 8, s.wrCnt.val ≤ i → streamBit s.cfg.bitOrder s.wrAcc i = false

/-- The invariant but for the conditions on `fsm`: what every state but FAULT shares. -/
structure CoreInv (s : State) : Prop where
  legal : s.cfg.Legal
  tree : TreeInv s
  symbolFits : s.symAcc.toNat < 2 ^ s.cfg.symBits
  padded : WriterPadded s
  noFault : s.fcode = .none ∧ s.fstate = .idle

theorem Inv.core (h : Inv s) (hf : s.fsm ≠ .fault) : CoreInv s :=
  ⟨h.legal, h.tree, h.phase.symbolFits, h.writerPadding, h.faultRecord.2 hf⟩

/-- The core looks only at the fields named, and not at `fsm`, `cur`, `sym_cnt`, the reader or the streams. -/
theorem CoreInv.frame (h : CoreInv s) (hacc : t.symAcc = s.symAcc := by rfl) (hcfg : t.cfg = s.cfg := by rfl)
    (hr : t.root = s.root := by rfl) (hs : t.stack = s.stack := by rfl) (hn : t.nodes = s.nodes := by rfl)
    (hc : t.nodeCount = s.nodeCount := by rfl) (hl : t.leafCount = s.leafCount := by rfl)
    (hwa : t.wrAcc = s.wrAcc := by rfl) (hwc : t.wrCnt = s.wrCnt := by rfl) (hfc : t.fcode = s.fcode := by rfl)
    (hfs : t.fstate = s.fstate := by rfl) : CoreInv t where
  legal := hcfg ▸ h.legal
  tree := h.tree.congr hcfg hn hc hs hr hl
  symbolFits := by rw [hacc, hcfg]; exact h.symbolFits
  padded := by rw [WriterPadded, hcfg, hwa, hwc]; exact h.padded
  noFault := by rw [hfc, hfs]; exact h.noFault

/-- The core with a new symbol accumulator. -/
theorem CoreInv.withSymbol (h : CoreInv s) (v : Sym) (k : Fin 16) (hv : v.toNat < 2 ^ s.cfg.symBits) :
    CoreInv { s with symAcc := v, symCnt := k } :=
  ⟨h.legal, h.tree.congr rfl rfl rfl rfl rfl rfl, hv, h.padded, h.noFault⟩

/-- The core with a new tree. -/
theorem CoreInv.withTree (h : CoreInv s) {mem : NodeMem} {n : BitVec 16} {st : List Nat} {rt : Option Nat} {lc : Word}
    (ht : TreeInv { s with nodes := mem, nodeCount := n, stack := st, root := rt, leafCount := lc }) :
    CoreInv { s with nodes := mem, nodeCount := n, stack := st, root := rt, leafCount := lc } :=
  ⟨h.legal, ht, h.symbolFits, h.padded, h.noFault⟩

/-- Outside FAULT the fault record is clear, so the core and the conditions of `fsm` are the whole invariant. -/
theorem CoreInv.toInv (h : CoreInv s) (hf : s.fsm ≠ .fault) (hp : PhaseInv s) : Inv s :=
  ⟨h.legal, h.tree, hp, h.padded, fun e => absurd e hf, fun _ => h.noFault⟩

theorem CoreInv.inv_idle (h : CoreInv s) (hf : s.fsm = .idle) : Inv s :=
  h.toInv (by simp [hf]) (by constructor <;> simp [hf, h.symbolFits])

theorem CoreInv.inv_hdrBit (h : CoreInv s) (hf : s.fsm = .hdrBit) (hopen : s.root ≠ none → s.stack ≠ [])
    (hcur : s.cur = none) : Inv s :=
  h.toInv (by simp [hf]) (by constructor <;> simp_all [h.symbolFits])

theorem CoreInv.inv_hdrSym (h : CoreInv s) (hf : s.fsm = .hdrSym) (hopen : s.root ≠ none → s.stack ≠ [])
    (hcur : s.cur = none) (hcnt : s.symCnt.val < s.cfg.symBits) : Inv s :=
  h.toInv (by simp [hf]) (by constructor <;> simp_all [h.symbolFits])

theorem CoreInv.inv_sep (h : CoreInv s) (hf : s.fsm = .sep) (hs : s.stack = []) (hk : kindAt s 0 = some .internal) :
    Inv s :=
  h.toInv (by simp [hf]) (by constructor <;> simp [hf, h.symbolFits, hs, hk])

theorem CoreInv.inv_walk (h : CoreInv s) (hf : s.fsm = .walk) (hs : s.stack = []) (hk : kindAt s 0 = some .internal)
    {c : Nat} (hcur : s.cur = some c) (hc : kindAt s c = some .internal) : Inv s :=
  h.toInv (by simp [hf]) (by constructor <;> simp [hf, h.symbolFits, hs, hk, hcur, hc])

theorem CoreInv.inv_done (h : CoreInv s) (hf : s.fsm = .done)
    (heos : (∃ c, s.cur = some c ∧ kindAt s c = some .leaf ∧ symAt s c = some eosSym) ∨
      (s.cur = none ∧ kindAt s 0 = some .leaf ∧ symAt s 0 = some eosSym)) : Inv s :=
  h.toInv (by simp [hf]) (by constructor <;> simp [hf, h.symbolFits, heos])

/-- A fault is entered with the record its table allows (`60_exceptions.md` R101, R102). -/
theorem CoreInv.inv_raiseFault (h : CoreInv s) {code : FaultCode} (hc : code.raisedIn s.fsm = true) :
    Inv (raiseFault code s) where
  legal := h.legal
  tree := h.tree.congr rfl rfl rfl rfl rfl rfl
  phase := by constructor <;> simp [h.symbolFits]
  writerPadding := h.padded
  faultRecord := ⟨fun _ => hc, fun hf => absurd rfl hf⟩

/-- An empty tree, a cleared accumulator and a clear fault record meet the core: what DEC_START and the resets leave. -/
theorem CoreInv.empty (hlegal : s.cfg.Legal) (hw : NodeMem.wf s.nodes = true) (hp : WriterPadded s)
    (hc : s.nodeCount = 0 := by rfl) (hs : s.stack = [] := by rfl) (hr : s.root = none := by rfl)
    (hl : s.leafCount = 0 := by rfl) (ha : s.symAcc = 0 := by rfl) (hfc : s.fcode = .none := by rfl)
    (hfs : s.fstate = .idle := by rfl) : CoreInv s :=
  ⟨hlegal, .empty hw hc hs hr hl, by simp [ha], hp, hfc, hfs⟩

/-- An empty accumulator is all padding. -/
theorem WriterPadded.of_zero (h : s.wrAcc = 0) : WriterPadded s := by
  intro i _ _
  simp [h, streamBit]

/-- Of the invariant, only the padding looks at the writer. -/
theorem Inv.withWriter (h : Inv s) {k : List Byte} {acc : Byte} {n : Fin 8}
    (hp : WriterPadded { s with snk := k, wrAcc := acc, wrCnt := n }) :
    Inv { s with snk := k, wrAcc := acc, wrCnt := n } :=
  ⟨h.legal, h.tree.congr rfl rfl rfl rfl rfl rfl, h.phase.congr rfl rfl rfl rfl rfl rfl rfl rfl rfl, hp, h.faultRecord⟩

theorem inv_flush (h : Inv s) : Inv (flush s) := by
  by_cases hw : s.wrCnt = 0
  · rw [flush_empty s hw]; exact h
  · rw [flush_pending s hw]; exact h.withWriter (.of_zero rfl)

theorem inv_putByte (h : Inv s) (v : Byte) : Inv (putByte v s) := (inv_flush h).frame

/-- A bit is written where the padding begins, and the padding behind it stays (`20_memory.md` R46). -/
theorem inv_writeBit (h : Inv s) (b : Bool) : Inv (writeBit b s) := by
  by_cases hw : s.wrCnt = 7
  · rw [writeBit_last b s hw]; exact h.withWriter (.of_zero rfl)
  · rw [writeBit_more b s hw]
    refine h.withWriter (k := s.snk) fun i hi hle => ?_
    have hlt : s.wrCnt.val < i := by
      have hval : (s.wrCnt + 1).val = (s.wrCnt.val + 1) % 8 := Fin.val_add ..
      have hne : s.wrCnt.val ≠ 7 := fun e => hw (Fin.ext e)
      have hle : (s.wrCnt + 1).val ≤ i := hle
      omega
    rw [streamBit_setStreamBit _ _ _ _ _ (by omega) hi, if_neg (by omega)]
    exact h.writerPadding i hi (by omega)

theorem inv_startDecode (h : Inv s) : Inv (startDecode s) :=
  CoreInv.inv_hdrBit (.empty h.legal h.tree.canonical h.writerPadding) rfl (fun hr => absurd rfl hr) rfl

theorem inv_resetBlock (h : Inv s) : Inv (resetBlock s) :=
  CoreInv.inv_idle (.empty h.legal h.tree.canonical (.of_zero rfl)) rfl

/-! ### The commands (`40_bitstream_io.md` R71 to R75, `43_control.md` R96 to R100) -/

theorem inv_commandStep (h : Inv s) : Yields Inv (commandStep s) := by
  refine yields_commandStep (illegal := h.frame) ?nop ?decStart ?decAbort ?rdBit ?rdByte ?wrBit ?wrByte ?wrFlush
    ?clrErr ?softReset
  case nop => exact (yields_next ..).mpr h.frame
  case decStart => exact yields_unlessBusy h.frame fun _ => (yields_next ..).mpr (inv_startDecode h).frame
  case decAbort =>
    rw [execDecAbort, yields_next]
    split
    · rename_i hb
      have hf : s.fsm ≠ .fault := fun hf => by simp [busy, hf, Fsm.isBusy] at hb
      exact ((h.core hf).inv_raiseFault (code := .aborted) hb).frame
    · exact h.frame
  case rdBit =>
    refine yields_unlessBusy h.frame fun _ => ?_
    obtain hg | hg | ⟨b, v, r, q, hg, -⟩ := readBit_answers s <;> rw [hg] <;>
      exact (yields_next ..).mpr h.frame
  case rdByte =>
    refine yields_unlessBusy h.frame fun _ => ?_
    obtain ⟨-, -, hg⟩ | ⟨-, -, hg⟩ | ⟨v, q, -, hg⟩ := getByte_cases s <;> rw [hg] <;>
      exact (yields_next ..).mpr h.frame
  case wrBit => exact fun opd => yields_unlessBusy h.frame fun _ => (yields_next ..).mpr (inv_writeBit h _).frame
  case wrByte => exact fun opd => yields_unlessBusy h.frame fun _ => (yields_next ..).mpr (inv_putByte h opd).frame
  case wrFlush => exact yields_unlessBusy h.frame fun _ => (yields_next ..).mpr (inv_flush h).frame
  case clrErr => exact (yields_next ..).mpr h.frame
  case softReset => exact (yields_next ..).mpr (inv_resetBlock h)

end Sys2Proof.Machine
end

section
/-! SUPPORT. The stream tokens and the machine's step keep the invariant (`10_state.md` R38). -/

namespace Sys2Proof.Machine

open Sys2Proof

variable {s : State}

/-! ### The header tokens (`41_tree_deserializer.md` R79 to R82) -/

/-- A kind is read off the entry. -/
theorem kindAt_of_nodeRead {i : Nat} {n : Node} (h : nodeRead s i = some n) : kindAt s i = some n.kind := by
  simp [kindAt, h]

theorem symAt_of_nodeRead {i : Nat} {n : Node} (h : nodeRead s i = some n) : symAt s i = some n.sym := by
  simp [symAt, h]

theorem NodeKind.eq_leaf_of_ne {k : NodeKind} (h : k ≠ .internal) : k = .leaf := by
  cases k with
  | internal => exact absurd rfl h
  | leaf => rfl

theorem NodeKind.eq_internal_of_ne {k : NodeKind} (h : k ≠ .leaf) : k = .internal := by
  cases k with
  | internal => rfl
  | leaf => exact absurd rfl h

/-- The new node is on the stack, so the header stays open. -/
theorem inv_hdrNode (h : Inv s) (hf : s.fsm = .hdrBit) : Yields Inv (execHdrNode s) := by
  have hcore := h.core (by simp [hf])
  obtain ⟨-, -, -, hcap⟩ := h.legal
  refine yields_allocNode (hcore.inv_raiseFault (by simp [hf, FaultCode.raisedIn])) fun hroom => ?_
  obtain ⟨mem, st, rt, l, r, hattach, hgrown⟩ :=
    attach_grows .internal nas s.leafCount h.tree hroom hcap (h.phase.headerOpen (.inl hf)) rfl
  have htree := h.tree.grown hroom hcap (.inr ⟨rfl, rfl⟩) hgrown
  refine (hattach _).symm ▸ (yields_next ..).mpr ?_
  exact (hcore.withTree htree).inv_hdrBit hf (fun _ => List.cons_ne_nil _ _) (h.phase.walkerParked (.inl hf))

theorem inv_hdrLeaf_marker (h : Inv s) (hf : s.fsm = .hdrBit) : Yields Inv (execHdrLeaf .marker s) := by
  have hcore := (h.core (by simp [hf])).withSymbol 0 0 (Nat.two_pow_pos _)
  obtain ⟨hbits, -⟩ := h.legal
  refine (yields_next ..).mpr (CoreInv.inv_hdrSym hcore.frame rfl (h.phase.headerOpen (.inl hf))
    (h.phase.walkerParked (.inl hf)) ?_)
  have hzero : (0 : Fin 16).val < 9 := by decide
  exact Nat.lt_of_lt_of_le hzero hbits

/-- With the stack empty the tree is complete, and its root decides where the decode goes. -/
theorem inv_headerComplete (h : CoreInv s) (hf : s.fsm = .hdrSym) (hs : s.stack = []) (hcur : s.cur = none) :
    Yields Inv (headerComplete s) := by
  refine yields_withIndex fun r hr => yields_withNode fun n hn => ?_
  obtain rfl : r = 0 := by
    have := h.tree.rootIsEntryZero
    rw [hr] at this
    split at this <;> simp_all
  by_cases hk : n.kind = .leaf
  · rw [if_pos hk]
    by_cases he : n.sym = eosSym
    · rw [if_pos he, yields_next]
      have hkind : kindAt s 0 = some .leaf := hk ▸ kindAt_of_nodeRead hn
      have hsym : symAt s 0 = some eosSym := he ▸ symAt_of_nodeRead hn
      exact CoreInv.inv_done h.frame rfl (.inr ⟨hcur, hkind, hsym⟩)
    · rw [if_neg he, yields_next]
      exact h.inv_raiseFault (by simp [hf, FaultCode.raisedIn])
  · rw [if_neg hk, yields_next]
    have hkind : kindAt s 0 = some .internal := NodeKind.eq_internal_of_ne hk ▸ kindAt_of_nodeRead hn
    exact CoreInv.inv_sep h.frame rfl hs hkind

/-- A leaf with a legal symbol grows the tree; with the stack empty after it the header ends. -/
theorem inv_completeLeaf (h : CoreInv s) (hf : s.fsm = .hdrSym) (hopen : s.root ≠ none → s.stack ≠ [])
    (hcur : s.cur = none) : Yields Inv (completeLeaf s) := by
  obtain ⟨-, -, -, hcap⟩ := h.legal
  unfold completeLeaf
  split
  · exact (yields_next ..).mpr (h.inv_raiseFault (by simp [hf, FaultCode.raisedIn]))
  · rename_i hsym
    refine yields_allocNode (h.inv_raiseFault (by simp [hf, FaultCode.raisedIn])) fun hroom => ?_
    obtain ⟨mem, st, rt, l, r, hattach, hgrown⟩ :=
      attach_grows .leaf s.symAcc (s.leafCount + 1) h.tree hroom hcap hopen rfl
    have htree := h.tree.grown hroom hcap (.inl ⟨rfl, BitVec.not_lt.mp hsym⟩) hgrown
    have hcore := h.withTree htree
    refine (hattach _).symm ▸ ?_
    split
    · rename_i hs
      exact inv_headerComplete hcore hf hs hcur
    · rename_i hs
      exact (yields_next ..).mpr (CoreInv.inv_hdrBit hcore.frame rfl (fun _ => hs) hcur)

/-- The shifted accumulator is cut to `SYM_BITS` bits. -/
theorem shiftSymbol_lt (n : Nat) (acc : Sym) (b : Bool) : (shiftSymbol n acc b).toNat < 2 ^ n := by
  unfold shiftSymbol
  rw [BitVec.toNat_setWidth]
  exact Nat.lt_of_le_of_lt (Nat.mod_le _ _) (BitVec.isLt _)

theorem inv_hdrLeaf_field (h : Inv s) (hf : s.fsm = .hdrSym) (b : Bool) : Yields Inv (execHdrLeaf (.field b) s) := by
  have hcore := (h.core (by simp [hf])).withSymbol (shiftSymbol s.cfg.symBits s.symAcc b) (s.symCnt + 1)
    (shiftSymbol_lt ..)
  have hopen := h.phase.headerOpen (.inr hf)
  have hcur := h.phase.walkerParked (.inr hf)
  simp only [execHdrLeaf, symbolBit]
  split
  · exact inv_completeLeaf hcore hf hopen hcur
  · rename_i hne
    refine (yields_next ..).mpr (hcore.inv_hdrSym hf hopen hcur ?_)
    obtain ⟨-, hbits, -⟩ := h.legal
    have hlt := h.phase.fieldOpen hf
    have hval : (s.symCnt + 1).val = (s.symCnt.val + 1) % 16 := Fin.val_add ..
    have hne : (s.symCnt + 1).val ≠ s.cfg.symBits := hne
    change (s.symCnt + 1).val < s.cfg.symBits
    omega

/-! ### The walk (`42_tree_walker.md` R85 to R88) -/

/-- A complete tree with an internal root has entry 0 as its root. -/
theorem root_of_treeComplete (h : Inv s) (hk : kindAt s 0 = some .internal) : s.root = some 0 := by
  have hpos : s.nodeCount ≠ 0 := by
    obtain ⟨n, hn, -⟩ := Option.map_eq_some_iff.mp hk
    have := lt_of_nodeRead s 0 n hn
    rintro hz
    simp [hz] at this
  rw [h.tree.rootIsEntryZero, if_neg hpos]

theorem inv_sep (h : Inv s) (hf : s.fsm = .sep) (v : Byte) : Yields Inv (execSep v s) := by
  obtain ⟨hs, hk⟩ := h.phase.treeComplete (.inl hf)
  exact (yields_next ..).mpr
    (CoreInv.inv_walk (h.core (by simp [hf])).frame rfl hs hk (root_of_treeComplete h hk) hk)

/-- At a leaf the walker emits and returns to the root, or ends at EOS; at an internal node it stays. -/
theorem inv_arriveAt (h : Inv s) (hf : s.fsm = .walk) (c : Nat) : Yields Inv (arriveAt c s) := by
  obtain ⟨hs, hk⟩ := h.phase.treeComplete (.inr hf)
  have hcore := h.core (by simp [hf])
  refine yields_withNode fun n hn => ?_
  by_cases hi : n.kind = .internal
  · rw [if_pos hi, yields_next]
    have hkind : kindAt s c = some .internal := hi ▸ kindAt_of_nodeRead hn
    exact CoreInv.inv_walk hcore.frame hf hs hk rfl hkind
  · rw [if_neg hi]
    by_cases he : n.sym = eosSym
    · rw [if_pos he, yields_next]
      have hkind : kindAt s c = some .leaf := NodeKind.eq_leaf_of_ne hi ▸ kindAt_of_nodeRead hn
      have hsym : symAt s c = some eosSym := he ▸ symAt_of_nodeRead hn
      exact CoreInv.inv_done hcore.frame rfl (.inl ⟨c, rfl, hkind, hsym⟩)
    · rw [if_neg he, yields_next, emitLeaf, putByte_eq]
      have hput := inv_putByte h (symbolByte n.sym)
      rw [putByte_eq] at hput
      exact CoreInv.inv_walk (hput.core (by simp [hf])).frame hf hs hk (root_of_treeComplete h hk) hk

theorem inv_descend (h : Inv s) (hf : s.fsm = .walk) (right : Bool) : Yields Inv (descend right s) :=
  yields_withIndex fun _ _ => yields_withNode fun _ _ => yields_withIndex fun c _ => inv_arriveAt h hf c

/-! ### The step -/

/-- The token a bit is, in the decode state that reads it. -/
theorem inv_bitToken (h : Inv s) (phase : BitPhase) (hf : s.fsm = phaseFsm phase) (b : Bool) :
    Yields Inv (exec (decodeBit phase b) s) := by
  cases phase with
  | hdrBit => cases b with
    | false => exact inv_hdrNode h hf
    | true => exact inv_hdrLeaf_marker h hf
  | hdrSym => exact inv_hdrLeaf_field h hf b
  | walk => cases b with
    | false => exact inv_descend h hf false
    | true => exact inv_descend h hf true

theorem inv_bitStep (h : Inv s) (phase : BitPhase) (hf : s.fsm = phaseFsm phase) : Yields Inv (bitStep phase s) := by
  refine yields_bitStep (hold := h) ?ended ?token
  case ended =>
    have hcore := h.core (by rw [hf]; cases phase <;> simp [phaseFsm])
    exact hcore.inv_raiseFault (by rw [hf]; cases phase <;> rfl)
  case token =>
    intro b v r q _
    have hread : Inv { s with rdByte := v, rdRem := r, srcQ := q } := h.frame
    exact inv_bitToken hread phase hf b

theorem inv_sepStep (h : Inv s) (hf : s.fsm = .sep) : Yields Inv (sepStep s) := by
  refine yields_sepStep (hold := h) ?ended ?token
  case ended =>
    have hcore : CoreInv { s with rdRem := 0 } := (h.core (by simp [hf])).frame
    exact hcore.inv_raiseFault (by simp [hf, FaultCode.raisedIn])
  case token =>
    intro v q _
    have hread : Inv { s with rdRem := 0, srcQ := q } := h.frame
    exact inv_sep hread hf v

theorem inv_blockStep (h : Inv s) : Yields Inv (blockStep s) :=
  yields_blockStep (inv_commandStep h) h (inv_bitStep h .hdrBit) (inv_bitStep h .hdrSym) (inv_sepStep h)
    (inv_bitStep h .walk)

theorem inv_step (h : Inv s) : Yields Inv (step s) :=
  yields_step (fun _ => inv_blockStep h.frame) (fun _ _ ht => ht.frame) (fun _ => inv_resetBlock h.frame)
    (fun _ _ _ _ _ _ _ _ _ => h.frame)

/-- Settles O52: every step keeps the invariant, by the rule of each operation in each decode state. -/
theorem stepKeepsInv : Obligations.StepKeepsInv := fun _ t h => inv_step h t

/-- Settles O51: the reset state has an empty tree and a clear fault record. -/
theorem invHoldsAtReset : Obligations.InvHoldsAtReset :=
  CoreInv.inv_idle (.empty (by decide) rfl (.of_zero rfl)) rfl

end Sys2Proof.Machine
end

section
/-! SUPPORT. What a block step can do to the streams and the parameters (`10_state.md` R27, `20_memory.md` R42, R43). -/

namespace Sys2Proof.Machine

open Sys2Proof

/-- At most two bytes are appended to the sink, and the parameters, the close flag and the host's lists stay. The
conjunction speaks of these fields only, so it is one statement for any two states that agree on them. -/
def SinkGrows (s t : State) : Prop :=
  t.cfg = s.cfg ∧ t.srcClosed = s.srcClosed ∧ t.sched = s.sched ∧ t.seen = s.seen ∧
    ∃ bs : List Byte, t.snk = s.snk ++ bs ∧ bs.length ≤ 2

/-- The effect of the writer, and of a stream token whose bit or byte has been read already: the source is left as it
is. -/
def TokenEffect (s t : State) : Prop := SinkGrows s t ∧ t.srcQ = s.srcQ

/-- The effect of a block step: the source is left alone or loses its first byte. -/
def BlockEffect (s t : State) : Prop := SinkGrows s t ∧ (t.srcQ = s.srcQ ∨ ∃ v, s.srcQ = v :: t.srcQ)

variable {s t : State}

theorem TokenEffect.toBlockEffect (h : TokenEffect s t) : BlockEffect s t := ⟨h.1, .inl h.2⟩

/-- Nothing is emitted. -/
theorem SinkGrows.silent (hcfg : t.cfg = s.cfg := by rfl) (hc : t.srcClosed = s.srcClosed := by rfl)
    (hsched : t.sched = s.sched := by rfl) (hseen : t.seen = s.seen := by rfl) (hsnk : t.snk = s.snk := by rfl) :
    SinkGrows s t :=
  ⟨hcfg, hc, hsched, hseen, [], by simp [hsnk], by simp⟩

theorem flush_effect (s : State) : TokenEffect s (flush s) := by
  by_cases h : s.wrCnt = 0
  · rw [flush_empty s h]; exact ⟨.silent, rfl⟩
  · rw [flush_pending s h]; exact ⟨⟨rfl, rfl, rfl, rfl, [s.wrAcc], rfl, by simp⟩, rfl⟩

/-- The only operation that can emit two bytes: the padded partial byte, and its own (`20_memory.md` R47). -/
theorem putByte_effect (v : Byte) (s : State) : TokenEffect s (putByte v s) := by
  by_cases h : s.wrCnt = 0
  · rw [putByte_aligned v s h]; exact ⟨⟨rfl, rfl, rfl, rfl, [v], rfl, by simp⟩, rfl⟩
  · rw [putByte_pending v s h]; exact ⟨⟨rfl, rfl, rfl, rfl, [s.wrAcc, v], rfl, by simp⟩, rfl⟩

theorem writeBit_effect (b : Bool) (s : State) : TokenEffect s (writeBit b s) := by
  by_cases h : s.wrCnt = 7
  · rw [writeBit_last b s h]; exact ⟨⟨rfl, rfl, rfl, rfl, [_], rfl, by simp⟩, rfl⟩
  · rw [writeBit_more b s h]; exact ⟨.silent, rfl⟩

/-! ### The tokens -/

theorem execHdrNode_effect (s : State) : Yields (TokenEffect s) (execHdrNode s) :=
  yields_allocNode ⟨.silent, rfl⟩ fun _ => yields_attach fun _ _ _ => (yields_next ..).mpr ⟨.silent, rfl⟩

theorem headerComplete_effect (s : State) : Yields (TokenEffect s) (headerComplete s) := by
  refine yields_withIndex fun _ _ => yields_withNode fun n _ => ?_
  split
  · split <;> exact (yields_next ..).mpr ⟨.silent, rfl⟩
  · exact (yields_next ..).mpr ⟨.silent, rfl⟩

theorem completeLeaf_effect (s : State) : Yields (TokenEffect s) (completeLeaf s) := by
  unfold completeLeaf
  split
  · exact (yields_next ..).mpr ⟨.silent, rfl⟩
  · refine yields_allocNode ⟨.silent, rfl⟩ fun _ => yields_attach fun mem rt st => ?_
    split
    · exact headerComplete_effect _
    · exact (yields_next ..).mpr ⟨.silent, rfl⟩

theorem symbolBit_effect (b : Bool) (s : State) : Yields (TokenEffect s) (symbolBit b s) := by
  simp only [symbolBit]
  split
  · exact completeLeaf_effect _
  · exact (yields_next ..).mpr ⟨.silent, rfl⟩

/-- Only a byte leaf emits (`42_tree_walker.md` R87). -/
theorem arriveAt_effect (c : Nat) (s : State) : Yields (TokenEffect s) (arriveAt c s) := by
  refine yields_withNode fun n _ => ?_
  split
  · exact (yields_next ..).mpr ⟨.silent, rfl⟩
  · split
    · exact (yields_next ..).mpr ⟨.silent, rfl⟩
    · exact (yields_next ..).mpr (putByte_effect (symbolByte n.sym) s)

theorem descend_effect (right : Bool) (s : State) : Yields (TokenEffect s) (descend right s) :=
  yields_withIndex fun _ _ => yields_withNode fun _ _ => yields_withIndex fun c _ => arriveAt_effect c s

theorem bitToken_effect (phase : BitPhase) (b : Bool) (s : State) :
    Yields (TokenEffect s) (exec (decodeBit phase b) s) := by
  cases phase with
  | hdrBit => cases b with
    | false => exact execHdrNode_effect s
    | true => exact (yields_next ..).mpr ⟨.silent, rfl⟩
  | hdrSym => exact symbolBit_effect b s
  | walk => cases b with
    | false => exact descend_effect false s
    | true => exact descend_effect true s

/-! ### The block step -/

theorem bitStep_effect (phase : BitPhase) (s : State) : Yields (BlockEffect s) (bitStep phase s) :=
  yields_bitStep (hold := ⟨.silent, .inl rfl⟩) (ended := ⟨.silent, .inl rfl⟩) fun b _ _ _ hq =>
    (bitToken_effect phase b _).mono fun _ ⟨hsink, hsrc⟩ => ⟨hsink, hsrc ▸ hq⟩

theorem sepStep_effect (s : State) : Yields (BlockEffect s) (sepStep s) :=
  yields_sepStep (hold := ⟨.silent, .inl rfl⟩) (ended := ⟨.silent, .inl rfl⟩) fun v _ hq =>
    (yields_next ..).mpr ⟨.silent, .inr ⟨v, hq⟩⟩

theorem commandStep_effect (s : State) : Yields (BlockEffect s) (commandStep s) := by
  refine yields_commandStep (illegal := ⟨.silent, .inl rfl⟩) ?nop ?decStart ?decAbort ?rdBit ?rdByte ?wrBit ?wrByte
    ?wrFlush ?clrErr ?softReset
  case nop | clrErr | softReset => exact (yields_next ..).mpr ⟨.silent, .inl rfl⟩
  case decStart =>
    exact yields_unlessBusy ⟨.silent, .inl rfl⟩ fun _ => (yields_next ..).mpr ⟨.silent, .inl rfl⟩
  case decAbort =>
    rw [execDecAbort, yields_next]
    split <;> exact ⟨.silent, .inl rfl⟩
  case rdBit =>
    refine yields_unlessBusy ⟨.silent, .inl rfl⟩ fun _ => ?_
    obtain hg | hg | ⟨b, v, r, q, hg, hq⟩ := readBit_answers s <;> rw [hg]
    · exact (yields_next ..).mpr ⟨.silent, .inl rfl⟩
    · exact (yields_next ..).mpr ⟨.silent, .inl rfl⟩
    · exact (yields_next ..).mpr ⟨.silent, hq⟩
  case rdByte =>
    refine yields_unlessBusy ⟨.silent, .inl rfl⟩ fun _ => ?_
    obtain ⟨-, -, hg⟩ | ⟨-, -, hg⟩ | ⟨v, q, hq, hg⟩ := getByte_cases s <;> rw [hg]
    · exact (yields_next ..).mpr ⟨.silent, .inl rfl⟩
    · exact (yields_next ..).mpr ⟨.silent, .inl rfl⟩
    · exact (yields_next ..).mpr ⟨.silent, .inr ⟨v, hq⟩⟩
  case wrBit =>
    exact fun opd => yields_unlessBusy ⟨.silent, .inl rfl⟩ fun _ =>
      (yields_next ..).mpr (writeBit_effect (operandBit opd) s).toBlockEffect
  case wrByte =>
    exact fun opd => yields_unlessBusy ⟨.silent, .inl rfl⟩ fun _ =>
      (yields_next ..).mpr (putByte_effect (operandByte opd) s).toBlockEffect
  case wrFlush =>
    exact yields_unlessBusy ⟨.silent, .inl rfl⟩ fun _ =>
      (yields_next ..).mpr (flush_effect s).toBlockEffect

theorem blockStep_effect (s : State) : Yields (BlockEffect s) (blockStep s) :=
  yields_blockStep (commandStep_effect s) ⟨.silent, .inl rfl⟩ (fun _ => bitStep_effect .hdrBit s)
    (fun _ => bitStep_effect .hdrSym s) (fun _ => sepStep_effect s) (fun _ => bitStep_effect .walk s)

/-- No step changes the parameters (`70_reset_and_hazards.md` R118). -/
theorem step_cfg (s : State) : Yields (fun t => t.cfg = s.cfg) (step s) :=
  yields_step (block := fun _ => (blockStep_effect _).mono fun _ ⟨⟨hcfg, _⟩, _⟩ => hcfg) (sched := fun _ _ h => h)
    (rst := fun _ => rfl) (host := fun _ _ _ _ _ _ _ _ _ => rfl)

/-- Settles O54, by the effect of each operation on the streams. -/
theorem blockStepOnStreams : Obligations.BlockStepOnStreams := by
  refine ⟨fun s t h => ?_, fun s t h => ?_⟩
  · obtain ⟨⟨-, hclosed, hsched, hseen, hsnk⟩, hsrc⟩ := blockStep_effect s t h
    exact ⟨hclosed, hsched, hseen, hsrc, hsnk⟩
  · have hcfg : t.cfg = s.cfg := step_cfg s t h
    exact ⟨hcfg, congrArg configWord hcfg⟩

end Sys2Proof.Machine
end

section
/-! SUPPORT. The register views field by field (`10_state.md` R29 to R37), and what an access of a register does. -/

namespace Sys2Proof.Machine

open Sys2Proof

/-! ### STATUS (`10_state.md` R30) -/

theorem Fsm.code_le (f : Fsm) : f.code.toNat ≤ 6 := by cases f <;> decide

theorem FaultCode.code_le (c : FaultCode) : c.code.toNat ≤ 6 := by cases c <;> decide

/-- A field is what is left of the word above the fields below it. -/
theorem statusWord_fields (s : State) :
    (statusWord s).extractLsb' 0 3 = s.fsm.code ∧ (statusWord s).extractLsb' 6 2 = 0 ∧
    (statusWord s).extractLsb' 8 4 = s.fcode.code ∧ (statusWord s).extractLsb' 16 3 = s.fstate.code ∧
    (statusWord s).extractLsb' 19 13 = 0 := by
  unfold statusWord
  simp (disch := decide) only [BitVec.extractLsb'_append_eq_of_le, BitVec.extractLsb'_append_eq_right, Nat.reduceSub]
  decide

theorem statusWord_bits (s : State) :
    (statusWord s).getLsbD 3 = false ∧ (statusWord s).getLsbD 4 = busy s ∧ (statusWord s).getLsbD 5 = s.cmdPend ∧
    (statusWord s).getLsbD 12 = s.errIllegal ∧ (statusWord s).getLsbD 13 = s.errBusy ∧
    (statusWord s).getLsbD 14 = s.errOverrun ∧ (statusWord s).getLsbD 15 = s.rvalid := by
  unfold statusWord
  simp only [BitVec.getLsbD_append]
  simp

/-- Settles O42, field by field. -/
theorem statusFields : Obligations.StatusFields := by
  refine ⟨fun s => ?_, by decide⟩
  obtain ⟨hfsm, hzero6, hfcode, hfstate, hzero19⟩ := statusWord_fields s
  obtain ⟨hzero3, hbusy, hpend, hillegal, herrBusy, hoverrun, hrvalid⟩ := statusWord_bits s
  exact ⟨hfsm, hzero3, hbusy, hpend, hzero6, hfcode, hillegal, herrBusy, hoverrun, hrvalid, hfstate, hzero19,
    hfsm ▸ s.fsm.code_le, hfcode ▸ s.fcode.code_le⟩

/-! ### The other registers (`10_state.md` R29, R31 to R36) -/

/-- A register narrower than the word reads as itself below zeros. -/
theorem extractLsb'_setWidth_register {n : Nat} (x : BitVec n) (h : n ≤ 32) :
    (x.setWidth 32).extractLsb' 0 n = x ∧ (x.setWidth 32).extractLsb' n (32 - n) = 0 := by
  constructor
  · rw [BitVec.extractLsb'_setWidth_of_le (by omega), BitVec.extractLsb'_eq_self]
  · apply BitVec.eq_of_getLsbD_eq
    intro i _
    simp [BitVec.getLsbD_of_ge]

theorem iostatWord_fields (s : State) :
    (iostatWord s).extractLsb' 0 4 = BitVec.ofNat 4 s.rdRem ∧ (iostatWord s).extractLsb' 4 4 = 0 ∧
    (iostatWord s).extractLsb' 8 4 = BitVec.ofNat 4 s.wrCnt ∧ (iostatWord s).extractLsb' 12 4 = 0 ∧
    (iostatWord s).extractLsb' 16 8 = s.wrAcc ∧ (iostatWord s).extractLsb' 24 4 = BitVec.ofNat 4 s.symCnt ∧
    (iostatWord s).extractLsb' 28 4 = 0 := by
  unfold iostatWord
  simp (disch := decide) only [BitVec.extractLsb'_append_eq_of_le, BitVec.extractLsb'_append_eq_right, Nat.reduceSub]
  decide

theorem configWord_fields (c : Config) :
    (configWord c).extractLsb' 1 3 = 0 ∧ (configWord c).extractLsb' 4 4 = BitVec.ofNat 4 c.symBits ∧
    (configWord c).extractLsb' 8 8 = 0 ∧ (configWord c).extractLsb' 16 16 = BitVec.ofNat 16 c.nodeCap := by
  unfold configWord
  simp (disch := decide) only [BitVec.extractLsb'_append_eq_of_le, BitVec.extractLsb'_append_eq_right,
    BitVec.extractLsb'_eq_self, Nat.reduceSub]
  decide

theorem configWord_bitOrder (c : Config) : (configWord c).getLsbD 0 = true ↔ c.bitOrder = .lsbFirst := by
  unfold configWord
  simp only [BitVec.getLsbD_append]
  cases c.bitOrder <;> simp [bitOrderBit]

/-- Settles O43, register by register. -/
theorem registerViews : Obligations.RegisterViews := by
  refine ⟨fun s => ?_, fun s hlegal => ?_, by decide⟩
  · obtain ⟨hrdata, hrdata0⟩ := extractLsb'_setWidth_register s.rdata (by decide)
    obtain ⟨hcount, hcount0⟩ := extractLsb'_setWidth_register s.nodeCount (by decide)
    obtain ⟨hrem, hzero4, hwrCnt, hzero12, hwrAcc, hsymCnt, hzero28⟩ := iostatWord_fields s
    have hrem8 := s.rdRem.isLt
    have hcnt8 := s.wrCnt.isLt
    refine ⟨rfl, hrdata, hrdata0, rfl, rfl, hcount, hcount0, ?_, hzero4, ?_, hzero12, hwrAcc, ?_, hzero28⟩
    · exact (congrArg BitVec.toNat hrem).trans (Nat.mod_eq_of_lt (by omega))
    · exact (congrArg BitVec.toNat hwrCnt).trans (Nat.mod_eq_of_lt (by omega))
    · exact (congrArg BitVec.toNat hsymCnt).trans (Nat.mod_eq_of_lt s.symCnt.isLt)
  · obtain ⟨-, hbits, -, hcap⟩ := hlegal
    obtain ⟨hzero1, hsymBits, hzero8, hnodeCap⟩ := configWord_fields s.cfg
    refine ⟨configWord_bitOrder s.cfg, hzero1, ?_, hzero8, ?_⟩
    · exact (congrArg BitVec.toNat hsymBits).trans (Nat.mod_eq_of_lt (by omega))
    · exact (congrArg BitVec.toNat hnodeCap).trans (Nat.mod_eq_of_lt (by omega))

/-! ### Access -/

/-- A write of a read-only register is ignored (`10_state.md` R37). -/
theorem writeReg_readOnly (r : Reg) (w : Word) (s : State) (h : r ≠ .cmd) : writeReg r w s = s := by
  cases r with
  | cmd => exact absurd rfl h
  | status | rdata | outCount | leafCount | nodeCount | iostat | config => rfl

/-- Settles O45: a read is noted by the host only, and a write of a read-only register is ignored. -/
theorem registerAccessEffects : Obligations.RegisterAccessEffects := by
  refine fun s r rest => ⟨fun hsched => ?_, fun w hsched hr => ?_⟩
  · rw [step, machineStep, hsched]
    exact ⟨_, rfl⟩
  · rw [step, machineStep, hsched]
    exact congrArg Host.Outcome.next (writeReg_readOnly r w _ hr)

end Sys2Proof.Machine
end

section
/-! SUPPORT. The bit layer as one stream of bits: what a writer has written so far, what each write adds to it, and that
a reader of the emitted bytes takes them off again (`20_memory.md` R44 to R49). -/

namespace Sys2Proof.Machine

open Sys2Proof

/-! ### The bits of a byte -/

theorem byteBits_length (o : BitOrder) (v : Byte) : (byteBits o v).length = 8 := by simp [byteBits]

theorem byteBits_getElem (o : BitOrder) (v : Byte) (i : Nat) (h : i < (byteBits o v).length) :
    (byteBits o v)[i] = streamBit o v i := by
  match i, h with
  | 0, _ | 1, _ | 2, _ | 3, _ | 4, _ | 5, _ | 6, _ | 7, _ => rfl

theorem byteBits_inj (o : BitOrder) (v w : Byte) (h : byteBits o v = byteBits o w) : v = w := by
  refine eq_of_streamBits o v w fun i hi => ?_
  rw [← byteBits_getElem o v i (by simpa [byteBits_length]), ← byteBits_getElem o w i (by simpa [byteBits_length])]
  simp [h]

theorem byteBits_setStreamBit (o : BitOrder) (v : Byte) (i : Nat) (b : Bool) (hi : i < 8) :
    byteBits o (setStreamBit o v i b) = (byteBits o v).set i b := by
  refine List.ext_getElem (by simp [byteBits_length]) fun j hj _ => ?_
  have hj8 : j < 8 := by simpa [byteBits_length] using hj
  rw [List.getElem_set, byteBits_getElem, byteBits_getElem, streamBit_setStreamBit o v i j b hi hj8]
  simp [eq_comm]

theorem flatMap_byteBits_length (o : BitOrder) (vs : List Byte) : (vs.flatMap (byteBits o)).length = 8 * vs.length := by
  simp [List.length_flatMap, byteBits_length, Nat.mul_comm]

/-! ### The writer -/

/-- The bits written so far: those of the bytes emitted, then those of the partial byte. -/
def writtenBits (s : State) : List Bool :=
  s.snk.flatMap (byteBits s.cfg.bitOrder) ++ (byteBits s.cfg.bitOrder s.wrAcc).take s.wrCnt

/-- What `Flush` adds behind the bits written: the rest of the partial byte (`20_memory.md` R48). -/
def paddingBits (s : State) : List Bool :=
  if s.wrCnt = 0 then [] else (byteBits s.cfg.bitOrder s.wrAcc).drop s.wrCnt

theorem paddingBits_length (s : State) : (paddingBits s).length = (8 - s.wrCnt.val) % 8 := by
  have hlt := s.wrCnt.isLt
  unfold paddingBits
  split
  · rename_i h; simp [h]
  · rename_i h
    have hne : s.wrCnt.val ≠ 0 := fun e => h (Fin.ext e)
    rw [List.length_drop, byteBits_length, Nat.mod_eq_of_lt (by omega)]

/-- The padding is zeros (`20_memory.md` R48). -/
theorem paddingBits_of_padded (s : State) (h : WriterPadded s) :
    paddingBits s = List.replicate ((8 - s.wrCnt.val) % 8) false := by
  rw [← paddingBits_length]
  refine List.eq_replicate_iff.mpr ⟨rfl, fun b hb => ?_⟩
  unfold paddingBits at hb
  split at hb
  · cases hb
  · obtain ⟨i, hi, rfl⟩ := List.getElem_of_mem hb
    rw [List.length_drop, byteBits_length] at hi
    rw [List.getElem_drop, byteBits_getElem]
    exact h _ (by omega) (by omega)

theorem flush_bits (s : State) :
    (flush s).snk.flatMap (byteBits s.cfg.bitOrder) = writtenBits s ++ paddingBits s := by
  by_cases h : s.wrCnt = 0
  · simp [flush_empty s h, writtenBits, paddingBits, h]
  · simp [flush_pending s h, writtenBits, paddingBits, h]

theorem writtenBits_putByte (v : Byte) (s : State) :
    writtenBits (putByte v s) = writtenBits s ++ paddingBits s ++ byteBits s.cfg.bitOrder v := by
  by_cases h : s.wrCnt = 0
  · simp [putByte_aligned v s h, writtenBits, paddingBits, h]
  · simp [putByte_pending v s h, writtenBits, paddingBits, h]

/-- Below the eighth bit the count does not wrap. -/
theorem wrCnt_succ (s : State) (h : s.wrCnt ≠ 7) : (s.wrCnt + 1).val = s.wrCnt.val + 1 := by
  have hlt := s.wrCnt.isLt
  have hne : s.wrCnt.val ≠ 7 := fun e => h (Fin.ext e)
  rw [Fin.val_add]
  exact Nat.mod_eq_of_lt (show s.wrCnt.val + 1 < 8 by omega)

/-- The bit is set where the bits written end (`20_memory.md` R46). -/
theorem writtenBits_writeBit (b : Bool) (s : State) : writtenBits (writeBit b s) = writtenBits s ++ [b] := by
  have htake : (byteBits s.cfg.bitOrder (setStreamBit s.cfg.bitOrder s.wrAcc s.wrCnt b)).take (s.wrCnt.val + 1) =
      (byteBits s.cfg.bitOrder s.wrAcc).take s.wrCnt ++ [b] := by
    have hlen := byteBits_length s.cfg.bitOrder s.wrAcc
    have hlt := s.wrCnt.isLt
    rw [byteBits_setStreamBit _ _ _ _ hlt, List.take_add_one, List.take_set_of_le (Nat.le_refl _),
      List.getElem?_set_self (by omega)]
    rfl
  by_cases h : s.wrCnt = 7
  · have hval : s.wrCnt.val = 7 := congrArg Fin.val h
    rw [hval, List.take_of_length_le (by simp [byteBits_length])] at htake
    simp [writeBit_last b s h, writtenBits, hval, htake]
  · rw [writeBit_more b s h]
    simp only [writtenBits, wrCnt_succ s h]
    rw [htake, List.append_assoc]

theorem WriterPadded.writeBit {s : State} (h : WriterPadded s) (b : Bool) : WriterPadded (writeBit b s) := by
  by_cases hw : s.wrCnt = 7
  · rw [writeBit_last b s hw]; exact .of_zero rfl
  · rw [writeBit_more b s hw]
    intro i hi hle
    have hle : s.wrCnt.val + 1 ≤ i := wrCnt_succ s hw ▸ hle
    rw [streamBit_setStreamBit _ _ _ _ _ (by omega) hi, if_neg (by omega)]
    exact h i hi (by omega)

theorem WriterPadded.putByte {s : State} (h : WriterPadded s) (v : Byte) : WriterPadded (putByte v s) := by
  by_cases hw : s.wrCnt = 0
  · rw [putByte_aligned v s hw]; exact h
  · rw [putByte_pending v s hw]; exact .of_zero rfl

theorem WriterPadded.writeItems (items : List StreamItem) {s : State} (h : WriterPadded s) :
    WriterPadded (writeItems items s) := by
  induction items generalizing s with
  | nil => exact h
  | cons item rest ih => cases item with
    | bit b => exact ih (h.writeBit b)
    | byte v => exact ih (h.putByte v)

theorem writeItems_cfg (items : List StreamItem) (s : State) : (writeItems items s).cfg = s.cfg := by
  induction items generalizing s with
  | nil => rfl
  | cons item rest ih => cases item with
    | bit b =>
      obtain ⟨⟨hcfg, -⟩, -⟩ := writeBit_effect b s
      exact (ih _).trans hcfg
    | byte v =>
      obtain ⟨⟨hcfg, -⟩, -⟩ := putByte_effect v s
      exact (ih _).trans hcfg

/-- The bits a writer has emitted once it has written `items` and flushed. -/
def emittedBits (items : List StreamItem) (s : State) : List Bool :=
  (flush (writeItems items s)).snk.flatMap (byteBits s.cfg.bitOrder)

theorem emittedBits_eq (items : List StreamItem) (s : State) :
    emittedBits items s = writtenBits (writeItems items s) ++ paddingBits (writeItems items s) := by
  rw [← flush_bits, writeItems_cfg, emittedBits]

theorem emittedBits_bit (b : Bool) (items : List StreamItem) (s : State) :
    emittedBits (.bit b :: items) s = emittedBits items (writeBit b s) := by
  simp only [emittedBits_eq, writeItems]

theorem emittedBits_byte (v : Byte) (items : List StreamItem) (s : State) :
    emittedBits (.byte v :: items) s = emittedBits items (putByte v s) := by
  simp only [emittedBits_eq, writeItems]

/-- What is written later stands behind what is written already. -/
theorem writtenBits_prefix (items : List StreamItem) (s : State) : writtenBits s <+: emittedBits items s := by
  induction items generalizing s with
  | nil => exact ⟨paddingBits s, (emittedBits_eq [] s).symm⟩
  | cons item rest ih => cases item with
    | bit b =>
      rw [emittedBits_bit]
      exact (writtenBits_writeBit b s ▸ List.prefix_append _ _).trans (ih _)
    | byte v =>
      rw [emittedBits_byte]
      refine .trans ?_ (ih _)
      rw [writtenBits_putByte, List.append_assoc]
      exact List.prefix_append _ _

theorem writtenBits_length (s : State) : (writtenBits s).length = 8 * s.snk.length + s.wrCnt.val := by
  have hlt := s.wrCnt.isLt
  rw [writtenBits, List.length_append, flatMap_byteBits_length, List.length_take, byteBits_length]
  omega

/-! ### The reader -/

/-- Without a partial byte the unread bits are the source's. -/
theorem unreadBits_aligned {s : State} (h : s.rdRem = 0) :
    unreadBits s = s.srcQ.flatMap (byteBits s.cfg.bitOrder) := by
  simp [unreadBits, h, byteBits]

theorem partialBits_length (s : State) :
    ((byteBits s.cfg.bitOrder s.rdByte).drop (8 - s.rdRem.val)).length = s.rdRem.val := by
  have hlt := s.rdRem.isLt
  rw [List.length_drop, byteBits_length]
  omega

theorem unreadBits_length (s : State) : (unreadBits s).length = s.rdRem.val + 8 * s.srcQ.length := by
  rw [unreadBits, List.length_append, partialBits_length, flatMap_byteBits_length]

theorem readItem_bit (c b : Bool) (s : State) (rest : List Bool) (h : unreadBits s = b :: rest) :
    ∃ t, readItem (.bit c) s = some (.bit b, t) ∧ unreadBits t = rest ∧ t.cfg = s.cfg ∧
      t.srcClosed = s.srcClosed := by
  obtain ⟨v, r, q, hread, hrest, -⟩ := readBit_of_unreadBits s b rest h
  exact ⟨_, by simp [readItem, hread], hrest, rfl, rfl⟩

/-- A whole byte is read behind the rest of the partial byte, which is discarded (`20_memory.md` R45). -/
theorem readItem_byte (c v : Byte) (s : State) (discarded rest : List Bool)
    (h : unreadBits s = discarded ++ (byteBits s.cfg.bitOrder v ++ rest)) (hlen : discarded.length = s.rdRem.val) :
    ∃ t, readItem (.byte c) s = some (.byte v, t) ∧ unreadBits t = rest ∧ t.cfg = s.cfg ∧
      t.srcClosed = s.srcClosed := by
  obtain ⟨-, hsource⟩ := List.append_inj h ((partialBits_length s).trans hlen.symm)
  obtain ⟨hq, -⟩ | ⟨hq, -⟩ | ⟨x, q, hq, hread⟩ := getByte_cases s
  · simp [hq, byteBits] at hsource
  · simp [hq, byteBits] at hsource
  · rw [hq, List.flatMap_cons] at hsource
    obtain ⟨hx, hrest⟩ := List.append_inj hsource (by simp only [byteBits_length])
    obtain rfl := byteBits_inj _ _ _ hx
    exact ⟨{ s with rdRem := 0, srcQ := q }, by simp [readItem, hread], (unreadBits_aligned rfl).trans hrest, rfl, rfl⟩

theorem readItems_cons {item : StreamItem} {items : List StreamItem} {s t u : State}
    (hitem : readItem item s = some (item, t)) (hitems : readItems items t = some (items, u)) :
    readItems (item :: items) s = some (item :: items, u) := by
  simp [readItems, hitem, hitems]

/-- Reading all the unread bits one by one. -/
theorem readItems_bits (bits : List Bool) (s : State) (h : unreadBits s = bits) :
    ∃ t, readItems (bits.map .bit) s = some (bits.map .bit, t) ∧ unreadBits t = [] ∧ t.srcClosed = s.srcClosed := by
  induction bits generalizing s with
  | nil => exact ⟨s, rfl, h, rfl⟩
  | cons b rest ih =>
    obtain ⟨t, hread, hrest, -, hclosed⟩ := readItem_bit b b s rest h
    obtain ⟨u, hreads, hend, hclosed'⟩ := ih t hrest
    exact ⟨u, readItems_cons hread hreads, hend, hclosed'.trans hclosed⟩

/-- Where the unread bits are those the writer has not written yet, the reader is as far from a byte's end as the
writer. -/
theorem rdRem_eq_paddingBits_length {w r : State} {emitted : List Byte}
    (h : writtenBits w ++ unreadBits r = emitted.flatMap (byteBits w.cfg.bitOrder)) :
    (paddingBits w).length = r.rdRem.val := by
  have hlen := congrArg List.length h
  rw [List.length_append, writtenBits_length, unreadBits_length, flatMap_byteBits_length] at hlen
  rw [paddingBits_length]
  have hcnt := w.wrCnt.isLt
  have hrem := r.rdRem.isLt
  omega

/-- The simulation of a writer by a reader of what it emits: while the bits written and the unread bits make up the
emitted bits, the reader reads what the writer writes, and at the end only the padding is unread. -/
theorem readItems_of_emittedBits (items : List StreamItem) (w r : State) (horder : r.cfg.bitOrder = w.cfg.bitOrder)
    (h : writtenBits w ++ unreadBits r = emittedBits items w) :
    ∃ u, readItems items r = some (items, u) ∧ unreadBits u = paddingBits (writeItems items w) ∧
      u.srcClosed = r.srcClosed := by
  induction items generalizing w r with
  | nil =>
    rw [emittedBits_eq] at h
    exact ⟨r, rfl, List.append_cancel_left h, rfl⟩
  | cons item rest ih => cases item with
    | bit b =>
      obtain ⟨more, hmore⟩ := writtenBits_prefix rest (writeBit b w)
      rw [emittedBits_bit, ← hmore, writtenBits_writeBit, List.append_assoc] at h
      obtain ⟨t, hread, hrest, hcfg, hclosed⟩ := readItem_bit b b r more (List.append_cancel_left h)
      obtain ⟨⟨hwcfg, -⟩, -⟩ := writeBit_effect b w
      obtain ⟨u, hreads, hpad, hclosed'⟩ := ih (writeBit b w) t (by rw [hcfg, hwcfg, horder]) (hrest ▸ hmore)
      exact ⟨u, readItems_cons hread hreads, hpad, hclosed'.trans hclosed⟩
    | byte v =>
      obtain ⟨more, hmore⟩ := writtenBits_prefix rest (putByte v w)
      have haligned := rdRem_eq_paddingBits_length h
      rw [emittedBits_byte, ← hmore, writtenBits_putByte, List.append_assoc, List.append_assoc, ← horder] at h
      obtain ⟨t, hread, hrest, hcfg, hclosed⟩ := readItem_byte v v r _ more (List.append_cancel_left h) haligned
      obtain ⟨⟨hwcfg, -⟩, -⟩ := putByte_effect v w
      obtain ⟨u, hreads, hpad, hclosed'⟩ := ih (putByte v w) t (by rw [hcfg, hwcfg, horder]) (hrest ▸ hmore)
      exact ⟨u, readItems_cons hread hreads, hpad, hclosed'.trans hclosed⟩

/-- Settles O40: the reader follows the writer item by item, then reads the padding, then nothing is unread. -/
theorem bitLayerRoundTrip : Obligations.BitLayerRoundTrip := by
  intro items w r hcnt hacc horder hrem hclosed hemitted
  have hbits : writtenBits w ++ unreadBits r = emittedBits items w := by
    rw [unreadBits_aligned hrem]
    simp [writtenBits, emittedBits, hcnt, horder, hemitted]
  obtain ⟨u, hitems, hpad, hclosed'⟩ := readItems_of_emittedBits items w r horder hbits
  rw [paddingBits_of_padded _ (WriterPadded.writeItems items (.of_zero hacc))] at hpad
  obtain ⟨v, hzeros, hend, hclosed''⟩ := readItems_bits _ u hpad
  obtain ⟨hrem', hsrc⟩ := (unreadBits_nil v).mp hend
  rw [List.map_replicate] at hzeros
  exact ⟨u, v, hitems, hzeros, readBit_end v hrem' hsrc (hclosed''.trans (hclosed'.trans hclosed))⟩

end Sys2Proof.Machine
end

section
/-! SUPPORT. The rules of the commands and of the block's step for any property of their outcome, with the decoded word
and the latch known, and the rule of the machine's step with the turn known (`43_control.md` R95, `20_memory.md` R52). -/

namespace Sys2Proof.Machine

open Sys2Proof

variable {M : Out → Prop} {P : State → Prop} {s : State}

/-- An illegal word is rejected, and a legal one is the command it decodes to (`30_encoding.md` R56). -/
theorem commandStep_of_decode (illegal : M (.next (rejectIllegal s)))
    (nop : decodeCommand s.cmdWord = .ok .nop → M (execNop s))
    (decStart : decodeCommand s.cmdWord = .ok .decStart → M (execDecStart s))
    (decAbort : decodeCommand s.cmdWord = .ok .decAbort → M (execDecAbort s))
    (rdBit : decodeCommand s.cmdWord = .ok .rdBit → M (execRdBit s))
    (rdByte : decodeCommand s.cmdWord = .ok .rdByte → M (execRdByte s))
    (wrBit : ∀ opd, decodeCommand s.cmdWord = .ok (.wrBit opd) → M (execWrBit opd s))
    (wrByte : ∀ opd, decodeCommand s.cmdWord = .ok (.wrByte opd) → M (execWrByte opd s))
    (wrFlush : decodeCommand s.cmdWord = .ok .wrFlush → M (execWrFlush s))
    (clrErr : decodeCommand s.cmdWord = .ok .clrErr → M (execClrErr s))
    (softReset : decodeCommand s.cmdWord = .ok .softReset → M (execSoftReset s)) : M (commandStep s) := by
  unfold commandStep
  split
  · rename_i i hd
    obtain ⟨hnode, hleaf, hsep, hpayLeft, hpayRight⟩ := decodeCommand_not_token _ i hd
    cases i with
    | nop => exact nop hd
    | decStart => exact decStart hd
    | decAbort => exact decAbort hd
    | rdBit => exact rdBit hd
    | rdByte => exact rdByte hd
    | wrBit opd => exact wrBit opd hd
    | wrByte opd => exact wrByte opd hd
    | wrFlush => exact wrFlush hd
    | clrErr => exact clrErr hd
    | softReset => exact softReset hd
    | hdrNode => exact absurd rfl hnode
    | hdrLeaf part => exact absurd rfl (hleaf part)
    | sep v => exact absurd rfl (hsep v)
    | payLeft => exact absurd rfl hpayLeft
    | payRight => exact absurd rfl hpayRight
  · exact illegal

/-- A full latch is the command's turn, an empty one the decode state's (`43_control.md` R95). -/
theorem blockStep_of_latch (command : s.cmdPend = true → M (commandStep s)) (idle : M (.next s))
    (hdrBit : s.cmdPend = false → s.fsm = .hdrBit → M (bitStep .hdrBit s))
    (hdrSym : s.cmdPend = false → s.fsm = .hdrSym → M (bitStep .hdrSym s))
    (sep : s.cmdPend = false → s.fsm = .sep → M (sepStep s))
    (walk : s.cmdPend = false → s.fsm = .walk → M (bitStep .walk s)) : M (blockStep s) := by
  unfold blockStep
  split
  · exact command ‹_›
  · rename_i hpend
    have hempty : s.cmdPend = false := Bool.eq_false_iff.mpr hpend
    unfold fsmStep
    split
    · exact idle
    · exact hdrBit hempty ‹_›
    · exact hdrSym hempty ‹_›
    · exact sep hempty ‹_›
    · exact walk hempty ‹_›
    · exact idle
    · exact idle

/-- `yields_step` with the turn known: the block's step is taken in its own turn or while a poll waits, RST in its turn,
and every other move is the host's. -/
theorem yields_step_of_turn (block : blockTurn s = true → ∀ l, Yields P (blockStep { s with sched := l }))
    (sched : ∀ t l, P t → P { t with sched := l })
    (rst : resetTurn s = true → ∀ l, P (resetBlock { s with sched := l }))
    (host : ∀ h q c k p w rv eo l, P { s with
      sched := h, srcQ := q, srcClosed := c, snk := k, cmdPend := p, cmdWord := w, rvalid := rv, errOverrun := eo,
      seen := l }) : Yields P (step s) := by
  have stream : ∀ h q c k l, P { s with sched := h, srcQ := q, srcClosed := c, snk := k, seen := l } :=
    fun h q c k l => host h q c k s.cmdPend s.cmdWord s.rvalid s.errOverrun l
  have access : ∀ r d h, Yields P (.next (accessReg r d { s with sched := h })) := by
    intro r d h
    obtain ⟨p, w, rv, eo, l, ha⟩ := accessReg_eq r d { s with sched := h }
    rw [yields_next, ha]
    exact host h s.srcQ s.srcClosed s.snk p w rv eo l
  unfold step machineStep
  split
  · rename_i hs
    exact block (by rw [blockTurn, hs]) s.sched
  · rename_i m rest hs
    cases m with
    | block => exact block (by rw [blockTurn, hs]) rest
    | rst => exact (yields_next ..).mpr (rst (by simp [resetTurn, hs]) rest)
    | readReg r => exact access r none rest
    | writeReg r w => exact access r (some w) rest
    | bus a =>
      simp only [moveStep]
      split
      · exact access _ _ rest
      · exact yields_refused P _
    | push bs =>
      simp only [moveStep]
      split
      · exact yields_refused P _
      · exact (yields_next ..).mpr (stream rest (s.srcQ ++ bs) s.srcClosed s.snk s.seen)
    | close => exact (yields_next ..).mpr (stream rest s.srcQ true s.snk s.seen)
    | newSource bs closed =>
      simp only [moveStep]
      split
      · exact yields_refused P _
      · exact (yields_next ..).mpr (stream rest bs closed s.snk s.seen)
    | readSink => exact (yields_next ..).mpr (stream rest s.srcQ s.srcClosed s.snk _)
    | clearSink =>
      simp only [moveStep]
      split
      · exact yields_refused P _
      · exact (yields_next ..).mpr (stream rest s.srcQ s.srcClosed [] s.seen)
    | waitCmd | waitIdle =>
      simp only [moveStep]
      split
      · rename_i hwait
        exact yields_pollStep (block (by rw [blockTurn, hs]; exact hwait) rest) sched
      · exact (yields_next ..).mpr (stream rest s.srcQ s.srcClosed s.snk s.seen)

end Sys2Proof.Machine
end

section
/-! SUPPORT. Where the invariant holds every operation of the block answers a next state: no fault of the model is
reached (`20_memory.md` R41, `41_tree_deserializer.md` R77, `42_tree_walker.md` R86). -/

namespace Sys2Proof.Machine

open Sys2Proof

/-- The outcome is a next state, and so neither a fault of the model nor a refusal. -/
def Answers (o : Out) : Prop := ∃ t, o = .next t

@[simp] theorem answers_next (t : State) : Answers (.next t) := ⟨t, rfl⟩

theorem Answers.ne_fault {o : Out} (h : Answers o) (f : Fault) : o ≠ .fault f := by
  obtain ⟨t, rfl⟩ := h
  exact fun e => nomatch e

variable {s : State}

/-! ### The commands -/

theorem answers_unlessBusy {k : State → Out} (run : Answers (k s)) : Answers (unlessBusy s k) := by
  unfold unlessBusy
  split
  · exact answers_next _
  · exact run

theorem answers_rdBit (s : State) : Answers (execRdBit s) := by
  refine answers_unlessBusy ?_
  obtain hg | hg | ⟨b, v, r, q, hg, -⟩ := readBit_answers s <;> rw [hg] <;> exact answers_next _

theorem answers_rdByte (s : State) : Answers (execRdByte s) := by
  refine answers_unlessBusy ?_
  obtain ⟨-, -, hg⟩ | ⟨-, -, hg⟩ | ⟨v, q, -, hg⟩ := getByte_cases s <;> rw [hg] <;> exact answers_next _

/-- No command looks at node memory, so every one answers in every state. -/
theorem answers_commandStep (s : State) : Answers (commandStep s) := by
  refine commandStep_of_decode ?illegal ?nop ?decStart ?decAbort ?rdBit ?rdByte ?wrBit ?wrByte ?wrFlush ?clrErr
    ?softReset
  case illegal => exact answers_next _
  case nop | decAbort | clrErr | softReset => exact fun _ => answers_next _
  case decStart | wrFlush => exact fun _ => answers_unlessBusy (answers_next _)
  case rdBit => exact fun _ => answers_rdBit s
  case rdByte => exact fun _ => answers_rdByte s
  case wrBit | wrByte => exact fun _ _ => answers_unlessBusy (answers_next _)

/-! ### Node memory and the tree -/

theorem answers_withNode {i : Nat} {k : Node → Out} (allocated : (nodeRead s i).isSome = true)
    (h : ∀ n, nodeRead s i = some n → Answers (k n)) : Answers (withNode s i k) := by
  obtain ⟨n, hn⟩ := Option.isSome_iff_exists.mp allocated
  simp only [withNode, hn]
  exact h n hn

/-- In a bounded node memory an allocation has room or raises TREE_OVERFLOW (`41_tree_deserializer.md` R78). -/
theorem answers_allocNode {kind : NodeKind} {sym : Sym} {k : Nat → State → Out} (h : TreeInv s)
    (room : s.nodeCount.toNat < s.cfg.nodeCap → Answers (k s.nodeCount.toNat (allocated kind sym s))) :
    Answers (allocNode kind sym s k) := by
  obtain hlt | heq := Nat.lt_or_eq_of_le h.countBounded
  · rw [allocNode_room _ _ _ _ hlt]; exact room hlt
  · rw [allocNode_full _ _ _ _ heq]; exact answers_next _

/-! ### The header tokens (`41_tree_deserializer.md` R79 to R82) -/

theorem answers_hdrNode (h : Inv s) (hf : s.fsm = .hdrBit) : Answers (execHdrNode s) := by
  obtain ⟨-, -, -, hcap⟩ := h.legal
  refine answers_allocNode h.tree fun hroom => ?_
  obtain ⟨_, _, _, _, _, hattach, -⟩ :=
    attach_grows .internal nas s.leafCount h.tree hroom hcap (h.phase.headerOpen (.inl hf)) rfl
  exact (hattach _).symm ▸ answers_next _

theorem answers_headerComplete (h : TreeInv s) (hroot : s.root = some 0) : Answers (headerComplete s) := by
  have hpos : 0 < s.nodeCount.toNat := by
    have hzero := h.rootIsEntryZero
    rw [hroot] at hzero
    split at hzero
    · cases hzero
    · rename_i hne; bv_omega
  simp only [headerComplete, hroot, withIndex]
  refine answers_withNode (h.written 0 hpos) fun n _ => ?_
  split
  · split <;> exact answers_next _
  · exact answers_next _

theorem answers_completeLeaf (h : CoreInv s) (hopen : s.root ≠ none → s.stack ≠ []) : Answers (completeLeaf s) := by
  obtain ⟨-, -, -, hcap⟩ := h.legal
  unfold completeLeaf
  split
  · exact answers_next _
  · rename_i hsym
    refine answers_allocNode h.tree fun hroom => ?_
    obtain ⟨_, _, _, _, _, hattach, hgrown⟩ :=
      attach_grows .leaf s.symAcc (s.leafCount + 1) h.tree hroom hcap hopen rfl
    have htree := h.tree.grown hroom hcap (.inl ⟨rfl, BitVec.not_lt.mp hsym⟩) hgrown
    refine (hattach _).symm ▸ ?_
    split
    · exact answers_headerComplete htree hgrown.root
    · exact answers_next _

theorem answers_symbolBit (h : Inv s) (hf : s.fsm = .hdrSym) (b : Bool) : Answers (symbolBit b s) := by
  have hcore := (h.core (by simp [hf])).withSymbol (shiftSymbol s.cfg.symBits s.symAcc b) (s.symCnt + 1)
    (shiftSymbol_lt ..)
  simp only [symbolBit]
  split
  · exact answers_completeLeaf hcore (h.phase.headerOpen (.inr hf))
  · exact answers_next _

/-! ### The walk (`42_tree_walker.md` R86 to R88) -/

theorem answers_arriveAt {c : Nat} (hc : (nodeRead s c).isSome = true) : Answers (arriveAt c s) := by
  refine answers_withNode hc fun n _ => ?_
  split
  · exact answers_next _
  · split <;> exact answers_next _

/-- In a complete tree an internal node has both children, and they are allocated (`41_tree_deserializer.md` R76). -/
theorem child_allocated (h : TreeInv s) (hs : s.stack = []) {c : Nat} {n : Node} (hn : nodeRead s c = some n)
    (hk : n.kind = .internal) (right : Bool) :
    ∃ d, (if right then n.right else n.left) = some d ∧ (nodeRead s d).isSome = true := by
  have hlt := lt_of_nodeRead s c n hn
  have hkind : kindAt s c = some .internal := hk ▸ kindAt_of_nodeRead hn
  obtain ⟨hl, hr⟩ := h.offStackComplete c hlt hkind (by simp [hs])
  have hleft : leftAt s c = n.left := by simp [leftAt, hn]
  have hright : rightAt s c = n.right := by simp [rightAt, hn]
  cases right with
  | false =>
    obtain ⟨d, hd⟩ := Option.isSome_iff_exists.mp hl
    exact ⟨d, hleft ▸ hd, h.written d (h.leftAllocated c hlt d hd).2⟩
  | true =>
    obtain ⟨d, hd⟩ := Option.isSome_iff_exists.mp hr
    exact ⟨d, hright ▸ hd, h.written d (h.rightAllocated c hlt d hd).2⟩

theorem answers_descend (h : Inv s) (hf : s.fsm = .walk) (right : Bool) : Answers (descend right s) := by
  obtain ⟨hs, -⟩ := h.phase.treeComplete (.inr hf)
  obtain ⟨c, hcur, hkind⟩ := h.phase.walkerInside hf
  obtain ⟨n, hn, hk⟩ := Option.map_eq_some_iff.mp hkind
  obtain ⟨d, hd, halloc⟩ := child_allocated h.tree hs hn hk right
  simp only [descend, hcur, withIndex, withNode, hn, hd]
  exact answers_arriveAt halloc

/-! ### The step -/

theorem answers_bitToken (h : Inv s) (phase : BitPhase) (hf : s.fsm = phaseFsm phase) (b : Bool) :
    Answers (exec (decodeBit phase b) s) := by
  cases phase with
  | hdrBit => cases b with
    | false => exact answers_hdrNode h hf
    | true => exact answers_next _
  | hdrSym => exact answers_symbolBit h hf b
  | walk => cases b with
    | false => exact answers_descend h hf false
    | true => exact answers_descend h hf true

theorem answers_bitStep (h : Inv s) (phase : BitPhase) (hf : s.fsm = phaseFsm phase) : Answers (bitStep phase s) := by
  unfold bitStep
  obtain hg | hg | ⟨b, v, r, q, hg, -⟩ := readBit_answers s <;> rw [hg]
  · exact answers_next _
  · exact answers_next _
  · have hread : Inv { s with rdByte := v, rdRem := r, srcQ := q } := h.frame
    exact answers_bitToken hread phase hf b

theorem answers_sepStep (s : State) : Answers (sepStep s) := by
  unfold sepStep
  obtain ⟨-, -, hg⟩ | ⟨-, -, hg⟩ | ⟨v, q, -, hg⟩ := getByte_cases s <;> rw [hg] <;> exact answers_next _

theorem answers_blockStep (h : Inv s) : Answers (blockStep s) :=
  blockStep_of_latch (fun _ => answers_commandStep s) (answers_next s) (fun _ => answers_bitStep h .hdrBit)
    (fun _ => answers_bitStep h .hdrSym) (fun _ _ => answers_sepStep s) (fun _ => answers_bitStep h .walk)

theorem pollStep_ne_fault (m : Move) (block : Answers (blockStep s)) (f : Fault) : pollStep m s ≠ .fault f := by
  obtain ⟨t, ht⟩ := block
  simp [pollStep, ht]

/-- Only the block's own step can fault: a host move answers or is refused. -/
theorem moveStep_ne_fault (m : Move) (block : Answers (blockStep s)) (f : Fault) : moveStep m s ≠ .fault f := by
  cases m with
  | block => exact block.ne_fault f
  | waitCmd | waitIdle =>
    simp only [moveStep]
    split
    · exact pollStep_ne_fault _ block f
    · simp
  | rst | readReg | writeReg | close | readSink => simp [moveStep]
  | bus | push | newSource | clearSink =>
    simp only [moveStep]
    split <;> simp

/-- Settles O53, by the answer of each operation in each decode state. -/
theorem noModelFault : Obligations.NoModelFault := by
  intro s h
  refine ⟨answers_blockStep h, fun f => ?_⟩
  unfold step machineStep
  split
  · exact (answers_blockStep h).ne_fault f
  · exact moveStep_ne_fault _ (answers_blockStep h.frame) f

end Sys2Proof.Machine
end

section
/-! SUPPORT. The reader's and the writer's primitives in each case (`20_memory.md` R42 to R48), and a decode that
holds on an empty open source (R51). -/

namespace Sys2Proof.Machine

open Sys2Proof

/-! ### The reader -/

/-- Counting one unread bit down (`20_memory.md` R44). -/
theorem rdRem_pred {r : Fin 8} (h : r ≠ 0) : Fin.ofNat 8 (r.val - 1) = r - 1 := by
  revert r
  decide

/-- The stream bit of index `8 - n` is bit `n - 1` of the byte, or bit `8 - n` (`20_memory.md` R44). -/
theorem bitPosition_sub (o : BitOrder) (n : Nat) (hn : n ≤ 8) :
    (o = .msbFirst → bitPosition o (8 - n) = n - 1) ∧ (o = .lsbFirst → bitPosition o (8 - n) = 8 - n) := by
  cases o with
  | msbFirst =>
    refine ⟨fun _ => ?_, fun h => nomatch h⟩
    simp only [bitPosition]
    omega
  | lsbFirst => exact ⟨fun h => (nomatch h), fun _ => rfl⟩

/-- The bit read next of a byte with `n` unread bits, by the bit order (`20_memory.md` R44). -/
theorem streamBit_unread (o : BitOrder) (v : Byte) (n : Nat) (hn : n ≤ 8) :
    (o = .msbFirst → streamBit o v (8 - n) = v.getLsbD (n - 1)) ∧
    (o = .lsbFirst → streamBit o v (8 - n) = v.getLsbD (8 - n)) := by
  obtain ⟨hmsb, hlsb⟩ := bitPosition_sub o n hn
  exact ⟨fun h => by rw [streamBit, hmsb h], fun h => by rw [streamBit, hlsb h]⟩

/-- Settles O38, case by case of the source and the partial byte. -/
theorem readerPrimitives : Obligations.ReaderPrimitives := by
  refine fun s => ⟨fun v q hq => ?_, fun hq hc => ?_, fun hq hc => ?_, fun hr => ?_⟩
  · exact ⟨srcFetch_cons s v q hq, by rw [getByte, srcFetch_cons s v q hq],
      fun hr => ⟨_, readBit_fetch s v q hr hq, streamBit_unread s.cfg.bitOrder v 8 (by decide)⟩⟩
  · exact ⟨srcFetch_end s hq hc, by rw [getByte, srcFetch_end s hq hc], fun hr => readBit_end s hr hq hc⟩
  · exact ⟨srcFetch_hold s hq hc, by rw [getByte, srcFetch_hold s hq hc], fun hr => readBit_hold s hr hq hc⟩
  · exact ⟨_, rdRem_pred hr ▸ readBit_partial s hr, streamBit_unread s.cfg.bitOrder s.rdByte s.rdRem s.rdRem.isLt.le⟩

/-! ### The writer -/

/-- Settles O39: the accumulator bit by bit, and the sink in each case of the count. -/
theorem writerPrimitives : Obligations.WriterPrimitives := by
  refine ⟨fun s b => ⟨setStreamBit s.cfg.bitOrder s.wrAcc s.wrCnt b, fun j hj => ?_, fun hlt => ?_, fun hlast => ?_⟩,
    fun s v => ⟨fun h => ⟨putByte_aligned v s h, flush_empty s h⟩, fun h => ⟨putByte_pending v s h, flush_pending s h⟩⟩⟩
  · rw [setStreamBit, getLsbD_setBit _ _ _ _ hj]
    cases s.cfg.bitOrder <;> rfl
  · exact writeBit_more b s fun h => by simp [h] at hlt
  · have hcnt : s.wrCnt = 7 := Fin.ext (Nat.succ.inj hlast)
    rw [writeBit_last b s hcnt, hcnt]
    rfl

/-! ### A decode on an empty open source -/

/-- A run stays in a state whose step is a step to itself. -/
theorem run_of_step_self {s : State} (h : step s = .next s) (k : Nat) : Sys2Proof.core.run k s = .next s := by
  induction k with
  | zero => rfl
  | succ k ih =>
    have hstep : Sys2Proof.core.step s = .next s := h
    simp only [Host.Core.run, hstep]
    exact ih

theorem bitStep_hold (phase : BitPhase) (s : State) (h : readBit s = .hold) : bitStep phase s = .next s := by
  simp [bitStep, h]

theorem sepStep_hold (s : State) (h : getByte s = .hold) : sepStep s = .next s := by simp [sepStep, h]

/-- A decode state that needs a bit or a byte of an empty open source holds (`20_memory.md` R42). -/
theorem fsmStep_hold (s : State) (hq : s.srcQ = []) (hc : s.srcClosed = false) (hneed : s.fsm = .sep ∨ s.rdRem = 0) :
    fsmStep s = .next s := by
  have hbyte : getByte s = .hold := by rw [getByte, srcFetch_hold s hq hc]
  have hbit (hf : s.fsm ≠ .sep) : readBit s = .hold := readBit_hold s (hneed.resolve_left hf) hq hc
  unfold fsmStep
  split
  · rfl
  · exact bitStep_hold _ s (hbit (by simp [*]))
  · exact bitStep_hold _ s (hbit (by simp [*]))
  · exact sepStep_hold s hbyte
  · exact bitStep_hold _ s (hbit (by simp [*]))
  · rfl
  · rfl

/-- Settles O48: the block's step is the held step, and a pushed byte is fetched by the same read. -/
theorem emptyOpenSourceHolds : Obligations.EmptyOpenSourceHolds := by
  intro s hsched hpend _ hq hc hneed
  refine ⟨fun k => run_of_step_self ?_ k, fun hf v => ?_, fun _ v => ?_⟩
  · simp [step, machineStep, hsched, blockStep, hpend, fsmStep_hold s hq hc hneed]
  · exact ⟨_, _, readBit_fetch { s with srcQ := [v] } v [] (hneed.resolve_left hf) rfl, rfl, rfl⟩
  · exact ⟨{ s with srcQ := [], rdRem := 0 }, by rw [getByte, srcFetch_cons _ v [] rfl], rfl, rfl⟩

end Sys2Proof.Machine
end

section
/-! SUPPORT. The register window: which access reaches which register (`10_state.md` R28, `20_memory.md` R40). -/

namespace Sys2Proof.Machine

open Sys2Proof

/-- The register at an offset is the one with that offset (`10_state.md` R28). -/
theorem regAt_eq_some (n : Nat) (r : Reg) : regAt n = some r ↔ n = r.offset := by
  constructor
  · intro h
    unfold regAt at h
    split at h <;> cases h <;> rfl
  · rintro rfl
    cases r <;> rfl

theorem Reg.offset_aligned (r : Reg) : r.offset % 4 = 0 := by cases r <;> rfl

theorem Reg.offset_lt (r : Reg) : r.offset < 0x20 := by cases r <;> decide

/-- Off the multiples of 4 there is no register (`20_memory.md` R40). -/
theorem regAt_unaligned (n : Nat) (h : n % 4 ≠ 0) : regAt n = none := by
  cases hr : regAt n with
  | none => rfl
  | some r =>
    obtain rfl := (regAt_eq_some n r).mp hr
    exact absurd r.offset_aligned h

theorem busTarget_register (base : Nat) (r : Reg) (a : BusAccess) (haddr : a.addr = base + r.offset)
    (hbits : a.bits = 32) : busTarget base a = .ok r := by
  have hlt := r.offset_lt
  have hreg : regAt (a.addr - base) = some r := (regAt_eq_some _ _).mpr (by omega)
  simp only [busTarget, hreg, hbits]
  rw [if_pos (by omega)]
  rfl

/-- The window starts at a multiple of 4, so an unaligned address is at an unaligned offset. -/
theorem busTarget_notAdmitted (base : Nat) (a : BusAccess) (hbase : base % 32 = 0) (hle : base ≤ a.addr)
    (hlt : a.addr < base + 0x20) (h : a.bits ≠ 32 ∨ a.addr % 4 ≠ 0) :
    busTarget base a = .error .accessNotAdmitted := by
  unfold busTarget
  rw [if_pos ⟨hle, hlt⟩]
  split
  · rename_i hbits
    have haddr := h.resolve_left (not_not_intro hbits)
    rw [regAt_unaligned _ (by omega)]
  · rfl

theorem base_aligned : Config.base % 32 = 0 := Nat.mul_mod_right ..

/-- Settles O44: an access reaches the register at its offset, and no register is at an unaligned one. -/
theorem registerWindow : Obligations.RegisterWindow := by
  refine ⟨base_aligned, rfl, rfl, rfl, rfl, rfl, rfl, rfl, rfl, fun s a rest hsched => ⟨fun r haddr hbits => ?_,
    fun hle hlt h => ?_⟩⟩
  · have htarget := busTarget_register Config.base r a haddr hbits
    refine ⟨fun hdata => ?_, fun w hdata => ?_⟩ <;>
      simp only [step, machineStep, hsched, moveStep, htarget, hdata]
  · simp only [step, machineStep, hsched, moveStep, busTarget_notAdmitted _ a base_aligned hle hlt h]

end Sys2Proof.Machine
end

section
/-! SUPPORT. What each step does to the tree: node memory, `node_count` and `root` (`20_memory.md` R41, R53). -/

namespace Sys2Proof.Machine

open Sys2Proof

/-- Node memory, the node count and the root stay. The conjunction speaks of these fields only, so it is one statement
for any two states that agree on them. -/
def TreeKept (s t : State) : Prop := t.nodes = s.nodes ∧ t.nodeCount = s.nodeCount ∧ t.root = s.root

/-- The tree is given up: nothing is allocated, and node memory is not written (assumption log 5). -/
def TreeDropped (s t : State) : Prop := t.nodes = s.nodes ∧ t.nodeCount = 0

/-- At most one node is allocated (`41_tree_deserializer.md` R78). -/
def CountGrows (s t : State) : Prop := t.nodeCount = s.nodeCount ∨ t.nodeCount = s.nodeCount + 1

/-- What a block step does to the tree: it stays; or a command drops it, which while walking is SOFT_RESET; or a header
token grows it. -/
def BlockTree (s t : State) : Prop :=
  TreeKept s t ∨
  (s.cmdPend = true ∧ TreeDropped s t ∧ (s.fsm = .walk → decodeCommand s.cmdWord = .ok .softReset)) ∨
  (s.cmdPend = false ∧ (s.fsm = .hdrBit ∨ s.fsm = .hdrSym) ∧ CountGrows s t)

/-- What a step of the machine does to the tree, by whose turn it is. -/
def StepTree (s t : State) : Prop :=
  TreeKept s t ∨ (blockTurn s = true ∧ BlockTree s t) ∨ (resetTurn s = true ∧ TreeDropped s t)

variable {s : State}

theorem TreeKept.refl (s : State) : TreeKept s s := ⟨rfl, rfl, rfl⟩

/-! ### The commands -/

theorem flush_tree (s : State) : TreeKept s (flush s) := by
  by_cases h : s.wrCnt = 0
  · rw [flush_empty s h]; exact .refl s
  · rw [flush_pending s h]; exact .refl s

theorem putByte_tree (v : Byte) (s : State) : TreeKept s (putByte v s) := flush_tree s

theorem writeBit_tree (b : Bool) (s : State) : TreeKept s (writeBit b s) := by
  by_cases h : s.wrCnt = 7
  · rw [writeBit_last b s h]; exact .refl s
  · rw [writeBit_more b s h]; exact .refl s

/-- What a command does to the tree: it stays, or is dropped, which in a decode is SOFT_RESET. -/
def CommandTree (s t : State) : Prop :=
  TreeKept s t ∨ (TreeDropped s t ∧ (busy s = true → decodeCommand s.cmdWord = .ok .softReset))

/-- The BUSY test of a command that does not touch the tree. -/
theorem unlessBusy_tree {k : State → Out} (h : Yields (TreeKept s) (k s)) : Yields (CommandTree s) (unlessBusy s k) :=
  yields_unlessBusy (.inl (.refl s)) fun _ => h.mono fun _ => .inl

theorem execDecStart_tree (s : State) : Yields (CommandTree s) (execDecStart s) := by
  refine yields_unlessBusy (.inl (.refl s)) fun hb => (yields_next ..).mpr (.inr ⟨⟨rfl, rfl⟩, fun hbusy => ?_⟩)
  rw [hb] at hbusy
  cases hbusy

theorem execDecAbort_tree (s : State) : Yields (CommandTree s) (execDecAbort s) := by
  rw [execDecAbort, yields_next]
  split <;> exact .inl (.refl s)

theorem execRdBit_tree (s : State) : Yields (CommandTree s) (execRdBit s) := by
  refine unlessBusy_tree ?_
  obtain hg | hg | ⟨b, v, r, q, hg, -⟩ := readBit_answers s <;> rw [hg] <;> exact (yields_next ..).mpr (.refl s)

theorem execRdByte_tree (s : State) : Yields (CommandTree s) (execRdByte s) := by
  refine unlessBusy_tree ?_
  obtain ⟨-, -, hg⟩ | ⟨-, -, hg⟩ | ⟨v, q, -, hg⟩ := getByte_cases s <;> rw [hg] <;>
    exact (yields_next ..).mpr (.refl s)

theorem execWrBit_tree (opd : Byte) (s : State) : Yields (CommandTree s) (execWrBit opd s) :=
  unlessBusy_tree ((yields_next ..).mpr (writeBit_tree (operandBit opd) s))

theorem execWrByte_tree (opd : Byte) (s : State) : Yields (CommandTree s) (execWrByte opd s) :=
  unlessBusy_tree ((yields_next ..).mpr (putByte_tree (operandByte opd) s))

theorem execWrFlush_tree (s : State) : Yields (CommandTree s) (execWrFlush s) :=
  unlessBusy_tree ((yields_next ..).mpr (flush_tree s))

/-- Of the commands, only SOFT_RESET, and DEC_START outside a decode, touch the tree. -/
theorem commandStep_tree (s : State) : Yields (CommandTree s) (commandStep s) := by
  refine commandStep_of_decode ?illegal ?nop ?decStart ?decAbort ?rdBit ?rdByte ?wrBit ?wrByte ?wrFlush ?clrErr
    ?softReset
  case illegal => exact (yields_next ..).mpr (.inl (.refl s))
  case nop | clrErr => exact fun _ => (yields_next ..).mpr (.inl (.refl s))
  case decStart => exact fun _ => execDecStart_tree s
  case decAbort => exact fun _ => execDecAbort_tree s
  case rdBit => exact fun _ => execRdBit_tree s
  case rdByte => exact fun _ => execRdByte_tree s
  case wrBit => exact fun opd _ => execWrBit_tree opd s
  case wrByte => exact fun opd _ => execWrByte_tree opd s
  case wrFlush => exact fun _ => execWrFlush_tree s
  case softReset => exact fun hd => (yields_next ..).mpr (.inr ⟨⟨rfl, rfl⟩, fun _ => hd⟩)

/-! ### The tokens -/

theorem execHdrNode_tree (s : State) : Yields (CountGrows s) (execHdrNode s) :=
  yields_allocNode (.inl rfl) fun _ => yields_attach fun _ _ _ => (yields_next ..).mpr (.inr rfl)

theorem headerComplete_tree (s : State) : Yields (TreeKept s) (headerComplete s) := by
  refine yields_withIndex fun _ _ => yields_withNode fun n _ => ?_
  split
  · split <;> exact (yields_next ..).mpr (.refl s)
  · exact (yields_next ..).mpr (.refl s)

theorem completeLeaf_tree (s : State) : Yields (CountGrows s) (completeLeaf s) := by
  unfold completeLeaf
  split
  · exact (yields_next ..).mpr (.inl rfl)
  · refine yields_allocNode (.inl rfl) fun _ => yields_attach fun mem rt st => ?_
    split
    · exact (headerComplete_tree _).mono fun t ⟨_, hcount, _⟩ => .inr hcount
    · exact (yields_next ..).mpr (.inr rfl)

theorem symbolBit_tree (b : Bool) (s : State) : Yields (CountGrows s) (symbolBit b s) := by
  simp only [symbolBit]
  split
  · exact completeLeaf_tree _
  · exact (yields_next ..).mpr (.inl rfl)

theorem arriveAt_tree (c : Nat) (s : State) : Yields (TreeKept s) (arriveAt c s) := by
  refine yields_withNode fun n _ => ?_
  split
  · exact (yields_next ..).mpr (.refl s)
  · split
    · exact (yields_next ..).mpr (.refl s)
    · exact (yields_next ..).mpr (putByte_tree (symbolByte n.sym) s)

theorem descend_tree (right : Bool) (s : State) : Yields (TreeKept s) (descend right s) :=
  yields_withIndex fun _ _ => yields_withNode fun _ _ => yields_withIndex fun c _ => arriveAt_tree c s

/-! ### The block's step -/

theorem hdrBitStep_tree (s : State) : Yields (CountGrows s) (bitStep .hdrBit s) :=
  yields_bitStep (hold := .inl rfl) (ended := .inl rfl) fun b _ _ _ _ => by
    cases b with
    | false => exact execHdrNode_tree _
    | true => exact (yields_next ..).mpr (.inl rfl)

theorem hdrSymStep_tree (s : State) : Yields (CountGrows s) (bitStep .hdrSym s) :=
  yields_bitStep (hold := .inl rfl) (ended := .inl rfl) fun b _ _ _ _ => symbolBit_tree b _

theorem walkStep_tree (s : State) : Yields (TreeKept s) (bitStep .walk s) :=
  yields_bitStep (hold := .refl s) (ended := .refl s) fun b _ _ _ _ => by
    cases b with
    | false => exact descend_tree false _
    | true => exact descend_tree true _

theorem sepStep_tree (s : State) : Yields (TreeKept s) (sepStep s) :=
  yields_sepStep (hold := .refl s) (ended := .refl s) fun _ _ _ => (yields_next ..).mpr (.refl s)

theorem blockStep_tree (s : State) : Yields (BlockTree s) (blockStep s) := by
  refine blockStep_of_latch ?command ?idle ?hdrBit ?hdrSym ?sep ?walk
  case command =>
    refine fun hpend => (commandStep_tree s).mono fun t h => ?_
    obtain hkept | ⟨hdropped, hreset⟩ := h
    · exact .inl hkept
    · exact .inr (.inl ⟨hpend, hdropped, fun hf => hreset (by rw [busy, hf]; rfl)⟩)
  case idle => exact (yields_next ..).mpr (.inl (.refl s))
  case hdrBit => exact fun hempty hf => (hdrBitStep_tree s).mono fun _ h => .inr (.inr ⟨hempty, .inl hf, h⟩)
  case hdrSym => exact fun hempty hf => (hdrSymStep_tree s).mono fun _ h => .inr (.inr ⟨hempty, .inr hf, h⟩)
  case sep => exact fun _ _ => (sepStep_tree s).mono fun _ => .inl
  case walk => exact fun _ _ => (walkStep_tree s).mono fun _ => .inl

/-! ### The machine's step -/

theorem step_tree (s : State) : Yields (StepTree s) (step s) :=
  yields_step_of_turn (block := fun hturn _ => (blockStep_tree _).mono fun _ h => .inr (.inl ⟨hturn, h⟩))
    (sched := fun _ _ h => h) (rst := fun hturn _ => .inr (.inr ⟨hturn, rfl, rfl⟩))
    (host := fun _ _ _ _ _ _ _ _ _ => .inl (.refl s))

/-- Settles O55, from what each kind of step does to the tree. -/
theorem nodeMemoryWrittenOnlyByHeader : Obligations.NodeMemoryWrittenOnlyByHeader := by
  intro s t h
  obtain ⟨hn, hc, hr⟩ | ⟨hturn, ⟨hn, hc, hr⟩ | ⟨hpend, ⟨hn, hc⟩, hreset⟩ | ⟨hempty, hheader, hgrows⟩⟩ |
    ⟨hturn, hn, hc⟩ := step_tree s t h
  · exact ⟨fun hne => absurd hn hne, fun _ => .inl ⟨hn, hc, hr⟩, fun hne => absurd hc hne⟩
  · exact ⟨fun hne => absurd hn hne, fun _ => .inl ⟨hn, hc, hr⟩, fun hne => absurd hc hne⟩
  · exact ⟨fun hne => absurd hn hne, fun hf => .inr (.inl ⟨hturn, hpend, hreset hf⟩), fun _ => .inr hc⟩
  · refine ⟨fun _ => ⟨hturn, hempty, hheader⟩, fun hf => ?_, fun hne => .inl (hgrows.resolve_left hne)⟩
    simp [hf] at hheader
  · exact ⟨fun hne => absurd hn hne, fun _ => .inr (.inr hturn), fun _ => .inr hc⟩

end Sys2Proof.Machine
end


section
/-! SUPPORT. A command word as its three fields, and legality read off them (`30_encoding.md` R55 to R57). -/

namespace Sys2Proof

/-! ### The fields of a word -/

theorem rsvdOf_toNat (w : Word) : (rsvdOf w).toNat = w.toNat / 65536 := by
  have hlt := w.isLt
  rw [rsvdOf, BitVec.extractLsb'_toNat, Nat.shiftRight_eq_div_pow]
  omega

theorem opcOf_toNat (w : Word) : (opcOf w).toNat = w.toNat / 256 % 256 := by
  rw [opcOf, BitVec.extractLsb'_toNat, Nat.shiftRight_eq_div_pow]

theorem opdOf_toNat (w : Word) : (opdOf w).toNat = w.toNat % 256 := by
  rw [opdOf, BitVec.extractLsb'_toNat, Nat.shiftRight_zero]

/-- A command word is the number of its OPC and OPD (`30_encoding.md` R55). -/
theorem commandWord_toNat (opc opd : Byte) : (commandWord opc opd).toNat = 256 * opc.toNat + opd.toNat := by
  have hopd := opd.isLt
  rw [commandWord, BitVec.toNat_append, BitVec.toNat_append, ← Nat.shiftLeft_add_eq_or_of_lt opd.isLt,
    Nat.shiftLeft_eq]
  simp [Nat.mul_comm]

theorem rsvdOf_and (w v : Word) : rsvdOf (w &&& v) = rsvdOf w &&& rsvdOf v := BitVec.extractLsb'_and

theorem opcOf_and (w v : Word) : opcOf (w &&& v) = opcOf w &&& opcOf v := BitVec.extractLsb'_and

theorem opdOf_and (w v : Word) : opdOf (w &&& v) = opdOf w &&& opdOf v := BitVec.extractLsb'_and

/-- A word with `RSVD = 0` is the command word of its OPC and OPD. -/
theorem commandWord_of_rsvdOf {w : Word} (h : rsvdOf w = 0#16) : commandWord (opcOf w) (opdOf w) = w := by
  have hzero := rsvdOf_toNat w
  rw [h] at hzero
  refine BitVec.eq_of_toNat_eq ?_
  rw [commandWord_toNat, opcOf_toNat, opdOf_toNat]
  simp only [BitVec.toNat_ofNat] at hzero
  omega

theorem rsvdOf_commandWord (opc opd : Byte) : rsvdOf (commandWord opc opd) = 0#16 := by
  have hopc := opc.isLt
  have hopd := opd.isLt
  refine BitVec.eq_of_toNat_eq ?_
  rw [rsvdOf_toNat, commandWord_toNat, BitVec.toNat_ofNat]
  omega

theorem opcOf_commandWord (opc opd : Byte) : opcOf (commandWord opc opd) = opc := by
  have hopc := opc.isLt
  have hopd := opd.isLt
  refine BitVec.eq_of_toNat_eq ?_
  rw [opcOf_toNat, commandWord_toNat]
  omega

theorem opdOf_commandWord (opc opd : Byte) : opdOf (commandWord opc opd) = opd := by
  have hopd := opd.isLt
  refine BitVec.eq_of_toNat_eq ?_
  rw [opdOf_toNat, commandWord_toNat]
  omega

/-- A command word is decoded by its OPC and OPD. -/
theorem decodeCommand_commandWord (opc opd : Byte) :
    decodeCommand (commandWord opc opd) = decodeOpcode opc opd := by
  simp [decodeCommand, rsvdOf_commandWord, opcOf_commandWord, opdOf_commandWord]

/-! ### Decoding and encoding -/

/-- A word with `RSVD = 0` is fetched as the command word of its OPC and OPD. -/
theorem fetched_of_fields {w : Word} {opc opd : Byte} (hrsvd : rsvdOf w = 0#16) (hopc : opcOf w = opc)
    (hopd : opdOf w = opd) : Fetched.command (commandWord opc opd) = .command w := by
  rw [← hopc, ← hopd, commandWord_of_rsvdOf hrsvd]

/-- What decodes is the encoding of a well-formed instruction. -/
theorem encode_of_decodeCommand {w : Word} {i : Instr} (h : decodeCommand w = .ok i) :
    i.wellFormed = true ∧ encode i = .command w := by
  obtain ⟨hrsvd, ⟨hopc, hopd, rfl⟩ | ⟨hopc, hopd, rfl⟩ | ⟨hopc, hopd, rfl⟩ | ⟨hopc, hopd, rfl⟩ | ⟨hopc, hopd, rfl⟩ |
    ⟨hopc, hwf, rfl⟩ | ⟨hopc, rfl⟩ | ⟨hopc, hopd, rfl⟩ | ⟨hopc, hopd, rfl⟩ | ⟨hopc, hopd, rfl⟩⟩ :=
    decodeCommand_ok w i h
  · exact ⟨rfl, fetched_of_fields hrsvd hopc hopd⟩
  · exact ⟨rfl, fetched_of_fields hrsvd hopc hopd⟩
  · exact ⟨rfl, fetched_of_fields hrsvd hopc hopd⟩
  · exact ⟨rfl, fetched_of_fields hrsvd hopc hopd⟩
  · exact ⟨rfl, fetched_of_fields hrsvd hopc hopd⟩
  · exact ⟨hwf, fetched_of_fields hrsvd hopc rfl⟩
  · exact ⟨rfl, fetched_of_fields hrsvd hopc rfl⟩
  · exact ⟨rfl, fetched_of_fields hrsvd hopc hopd⟩
  · exact ⟨rfl, fetched_of_fields hrsvd hopc hopd⟩
  · exact ⟨rfl, fetched_of_fields hrsvd hopc hopd⟩

/-- The encoding of a well-formed instruction decodes to it. -/
theorem decode_encode (i : Instr) (h : i.wellFormed = true) : decode (encode i) = .ok i := by
  cases i with
  | nop | decStart | decAbort | rdBit | rdByte | wrFlush | clrErr | softReset => rfl
  | wrBit opd =>
    rw [encode, decode, decodeCommand_commandWord]
    exact (bitOperand_ok opd _).mpr ⟨h, rfl⟩
  | wrByte opd => rw [encode, decode, decodeCommand_commandWord]; rfl
  | hdrLeaf part => cases part <;> rfl
  | hdrNode | sep | payLeft | payRight => rfl

/-- What decodes to an instruction is its encoding. -/
theorem encode_of_decode {f : Fetched} {i : Instr} (h : decode f = .ok i) : i.wellFormed = true ∧ encode i = f := by
  cases f with
  | command w => exact encode_of_decodeCommand h
  | bit phase b =>
    obtain rfl : decodeBit phase b = i := Except.ok.inj h
    cases phase with
    | hdrBit | walk => cases b <;> exact ⟨rfl, rfl⟩
    | hdrSym => exact ⟨rfl, rfl⟩
  | separator v =>
    obtain rfl : Instr.sep v = i := Except.ok.inj h
    exact ⟨rfl, rfl⟩

/-- Settles O2: the decoder answers exactly the well-formed instruction whose encoding it was given. -/
theorem decodeEncodeAgree : Obligations.DecodeEncodeAgree := by
  refine fun f i => ⟨encode_of_decode, ?_⟩
  rintro ⟨hwf, rfl⟩
  exact decode_encode i hwf

/-- Settles O1: each word and token is a closed evaluation of the decoder. -/
theorem commandWordsDecode : Obligations.CommandWordsDecode := by
  refine ⟨?_, ?_, ?_, ?_, ?_, ?_, ?_, ?_, ?_, ?_, ?_, ?_, ?_, ?_, ?_, ?_, ?_, ?_⟩ <;> rfl

/-! ### The command table (`30_encoding.md` R56) -/

/-- A well-formed command is a word of the row that has its mnemonic. -/
theorem tableRow_of_encode (i : Instr) : Laws.TableRow.Statement i := by
  cases i with
  | nop => exact Laws.TableRow.nop
  | decStart => exact Laws.TableRow.decStart
  | decAbort => exact Laws.TableRow.decAbort
  | rdBit => exact Laws.TableRow.rdBit
  | rdByte => exact Laws.TableRow.rdByte
  | wrBit opd => exact Laws.TableRow.wrBit opd
  | wrByte opd => exact Laws.TableRow.wrByte opd
  | wrFlush => exact Laws.TableRow.wrFlush
  | clrErr => exact Laws.TableRow.clrErr
  | softReset => exact Laws.TableRow.softReset
  | hdrNode => exact Laws.TableRow.hdrNode
  | hdrLeaf part => exact Laws.TableRow.hdrLeaf part
  | sep v => exact Laws.TableRow.sep v
  | payLeft => exact Laws.TableRow.payLeft
  | payRight => exact Laws.TableRow.payRight

theorem row_of_decodeCommand {w : Word} {i : Instr} (h : decodeCommand w = .ok i) :
    ∃ r, r ∈ commandTable ∧ w &&& r.mask = r.pattern ∧ r.mnemonic = i.mnemonic := by
  obtain ⟨hwf, hencode⟩ := encode_of_decodeCommand h
  obtain ⟨r, hr, hname, hmatch⟩ := tableRow_of_encode i w hwf hencode
  exact ⟨r, hr, beq_iff_eq.mp hmatch, hname⟩

/-- A row whose mask is all ones has one word. -/
theorem decodeCommand_of_full_mask {w p : Word} {i : Instr} (h : w &&& 0xFFFFFFFF#32 = p)
    (hp : decodeCommand p = .ok i) : decodeCommand w = .ok i := by
  have hword : w = p := BitVec.and_allOnes.symm.trans h
  rw [hword, hp]

/-- A byte without its bits 7 to 1 is WR_BIT's operand (`30_encoding.md` R56). -/
theorem wrBit_wellFormed_of_mask {opd : Byte} (h : opd &&& 0xFE#8 = 0) : (Instr.wrBit opd).wellFormed = true := by
  revert opd
  decide

/-- The words of the WR_BIT row. -/
theorem decodeCommand_of_wrBit_row {w : Word} (h : w &&& 0xFFFFFFFE#32 = 0x00002000#32) :
    decodeCommand w = .ok (.wrBit (opdOf w)) := by
  have hrsvd : rsvdOf w = 0 := BitVec.and_allOnes.symm.trans ((rsvdOf_and ..).symm.trans (congrArg rsvdOf h))
  have hopc : opcOf w = 0x20 := BitVec.and_allOnes.symm.trans ((opcOf_and ..).symm.trans (congrArg opcOf h))
  have hopd : opdOf w &&& 0xFE#8 = 0 := (opdOf_and ..).symm.trans (congrArg opdOf h)
  rw [← commandWord_of_rsvdOf hrsvd, decodeCommand_commandWord, hopc, opdOf_commandWord]
  exact (bitOperand_ok _ _).mpr ⟨wrBit_wellFormed_of_mask hopd, rfl⟩

/-- The words of the WR_BYTE row. -/
theorem decodeCommand_of_wrByte_row {w : Word} (h : w &&& 0xFFFFFF00#32 = 0x00002100#32) :
    decodeCommand w = .ok (.wrByte (opdOf w)) := by
  have hrsvd : rsvdOf w = 0 := BitVec.and_allOnes.symm.trans ((rsvdOf_and ..).symm.trans (congrArg rsvdOf h))
  have hopc : opcOf w = 0x21 := BitVec.and_allOnes.symm.trans ((opcOf_and ..).symm.trans (congrArg opcOf h))
  rw [← commandWord_of_rsvdOf hrsvd, decodeCommand_commandWord, hopc, opdOf_commandWord]
  rfl

/-- A word that matches a row decodes to that row's command. -/
theorem decodeCommand_of_row {w : Word} {r : CommandRow} (hr : r ∈ commandTable) (h : w &&& r.mask = r.pattern) :
    ∃ i, decodeCommand w = .ok i ∧ i.mnemonic = r.mnemonic := by
  simp only [commandTable, List.mem_cons, List.not_mem_nil, or_false] at hr
  obtain rfl | rfl | rfl | rfl | rfl | rfl | rfl | rfl | rfl | rfl := hr
  · exact ⟨.nop, decodeCommand_of_full_mask h rfl, rfl⟩
  · exact ⟨.decStart, decodeCommand_of_full_mask h rfl, rfl⟩
  · exact ⟨.decAbort, decodeCommand_of_full_mask h rfl, rfl⟩
  · exact ⟨.rdBit, decodeCommand_of_full_mask h rfl, rfl⟩
  · exact ⟨.rdByte, decodeCommand_of_full_mask h rfl, rfl⟩
  · exact ⟨.wrBit (opdOf w), decodeCommand_of_wrBit_row h, rfl⟩
  · exact ⟨.wrByte (opdOf w), decodeCommand_of_wrByte_row h, rfl⟩
  · exact ⟨.wrFlush, decodeCommand_of_full_mask h rfl, rfl⟩
  · exact ⟨.clrErr, decodeCommand_of_full_mask h rfl, rfl⟩
  · exact ⟨.softReset, decodeCommand_of_full_mask h rfl, rfl⟩

/-- No two rows of the table have the same mnemonic. -/
theorem row_eq_of_mnemonic : ∀ r ∈ commandTable, ∀ r' ∈ commandTable, r.mnemonic = r'.mnemonic → r = r' := by
  decide

/-- Settles O3: a matched row is the row of the decoded command's mnemonic, and a mnemonic has one row. -/
theorem tableRowsDecideLegality : Obligations.TableRowsDecideLegality := by
  refine fun w => ⟨fun i => row_of_decodeCommand, fun r hr hmatch => ?_, fun r r' hr hr' hmatch hmatch' => ?_⟩
  · obtain ⟨i, hd, hname⟩ := decodeCommand_of_row hr hmatch
    exact ⟨i, hd, hname, (encode_of_decodeCommand hd).2⟩
  · obtain ⟨i, hd, hname⟩ := decodeCommand_of_row hr hmatch
    obtain ⟨i', hd', hname'⟩ := decodeCommand_of_row hr' hmatch'
    obtain rfl : i = i' := Except.ok.inj (hd.symm.trans hd')
    exact row_eq_of_mnemonic r hr r' hr' (hname.symm.trans hname')

/-! ### Illegal words (`30_encoding.md` R57) -/

/-- The opcodes whose constraint is `OPD = 0`. -/
def bareOpcodes : List Byte := [0x00#8, 0x01#8, 0x02#8, 0x10#8, 0x11#8, 0x22#8, 0x30#8, 0x3F#8]

/-- An opcode without an operand decodes exactly with `OPD = 0`. -/
theorem decodeOpcode_bare {opc : Byte} (h : opc ∈ bareOpcodes) (opd : Byte) :
    (∃ i, decodeOpcode opc opd = .ok i) ↔ opd = 0#8 := by
  simp only [bareOpcodes, List.mem_cons, List.not_mem_nil, or_false] at h
  obtain rfl | rfl | rfl | rfl | rfl | rfl | rfl | rfl := h
  all_goals
    refine ⟨fun ⟨i, hi⟩ => ?_, fun h0 => ?_⟩
    · exact ((noOperand_ok _ i opd).mp hi).1
    · exact ⟨_, (noOperand_ok _ _ opd).mpr ⟨h0, rfl⟩⟩

/-- WR_BIT decodes exactly with `OPD[7:1] = 0`. -/
theorem decodeOpcode_wrBit (opd : Byte) : (∃ i, decodeOpcode 0x20#8 opd = .ok i) ↔ opd.extractLsb' 1 7 = 0#7 := by
  refine ⟨fun ⟨i, hi⟩ => ?_, fun h => ?_⟩
  · exact beq_iff_eq.mp ((bitOperand_ok opd i).mp hi).1
  · exact ⟨_, (bitOperand_ok opd _).mpr ⟨beq_iff_eq.mpr h, rfl⟩⟩

/-- Every other OPC is reserved (`30_encoding.md` R58). -/
theorem decodeOpcode_reserved {opc : Byte} (hbare : opc ∉ bareOpcodes) (hbit : opc ≠ 0x20#8) (hbyte : opc ≠ 0x21#8)
    (opd : Byte) : decodeOpcode opc opd = .error .reservedOpcode := by
  simp only [bareOpcodes, List.mem_cons, List.not_mem_nil, or_false, not_or] at hbare
  obtain ⟨h0, h1, h2, h10, h11, h22, h30, h3F⟩ := hbare
  simp [decodeOpcode, h0, h1, h2, h10, h11, hbit, hbyte, h22, h30, h3F]

/-- The opcodes of the table: those without an operand, and the two WR commands'. -/
def tableOpcodes : List Byte :=
  [0x00#8, 0x01#8, 0x02#8, 0x10#8, 0x11#8, 0x20#8, 0x21#8, 0x22#8, 0x30#8, 0x3F#8]

theorem mem_tableOpcodes : ∀ opc, opc ∈ tableOpcodes ↔ opc ∈ bareOpcodes ∨ opc = 0x20#8 ∨ opc = 0x21#8 := by
  decide

/-- An OPC with an OPD is not decoded when it is not in the table, or OPD breaks its constraint. -/
theorem decodeOpcode_not_ok_iff (opc opd : Byte) : (¬ ∃ i, decodeOpcode opc opd = .ok i) ↔
    opc ∉ tableOpcodes ∨ (opc ∈ bareOpcodes ∧ opd ≠ 0#8) ∨ (opc = 0x20#8 ∧ opd.extractLsb' 1 7 ≠ 0#7) := by
  rw [mem_tableOpcodes]
  by_cases hbare : opc ∈ bareOpcodes
  · have hbit : opc ≠ 0x20#8 := by rintro rfl; exact absurd hbare (by decide)
    simp only [decodeOpcode_bare hbare, hbare, hbit, true_or, not_true, false_or, true_and, false_and, or_false,
      ne_eq]
  by_cases hbit : opc = 0x20#8
  · subst hbit
    simp only [decodeOpcode_wrBit, hbare, true_or, or_true, not_true, false_or, true_and, false_and, ne_eq]
  by_cases hbyte : opc = 0x21#8
  · subst hbyte
    have hok : ∃ i, decodeOpcode 0x21#8 opd = .ok i := ⟨_, rfl⟩
    simp [hok, hbare]
  · have hnone : ¬ ∃ i, decodeOpcode opc opd = .ok i := by
      rintro ⟨i, hi⟩
      cases (decodeOpcode_reserved hbare hbit hbyte opd).symm.trans hi
    simp [hnone, hbare, hbit, hbyte]

theorem decodeCommand_error_iff (w : Word) :
    (∃ e, decodeCommand w = .error e) ↔ rsvdOf w ≠ 0#16 ∨ ¬ ∃ i, decodeOpcode (opcOf w) (opdOf w) = .ok i := by
  by_cases h : rsvdOf w = 0#16
  · have hdecode : decodeCommand w = decodeOpcode (opcOf w) (opdOf w) := if_pos h
    rw [hdecode]
    cases decodeOpcode (opcOf w) (opdOf w) <;> simp [h]
  · exact iff_of_true ⟨_, if_neg h⟩ (.inl h)

/-- `OPD[7:1]` is bits 7 to 1 of the word (`30_encoding.md` R55). -/
theorem opdOf_extract (w : Word) : (opdOf w).extractLsb' 1 7 = w.extractLsb' 1 7 := by
  refine BitVec.eq_of_getLsbD_eq fun i hi => ?_
  simp only [opdOf, BitVec.getLsbD_extractLsb', hi, show 1 + i < 8 by omega, Nat.zero_add, decide_true, Bool.true_and]

/-- Settles O4: legality by the rows, illegality by the fields, and the illegal word's step. -/
theorem illegalWords : Obligations.IllegalWords := by
  refine ⟨fun w => ⟨fun ⟨i, hi⟩ => ?_, fun ⟨r, hr, hmatch⟩ => ?_⟩, fun w => ?_, fun s e hpend hd => ?_⟩
  · obtain ⟨r, hr, hmatch, -⟩ := row_of_decodeCommand hi
    exact ⟨r, hr, hmatch⟩
  · obtain ⟨i, hi, -⟩ := decodeCommand_of_row hr hmatch
    exact ⟨i, hi⟩
  · rw [decodeCommand_error_iff, decodeOpcode_not_ok_iff, opdOf_extract]
    exact Iff.rfl
  · rw [Machine.blockStep, if_pos hpend, Machine.commandStep, decode, hd]
    rfl

end Sys2Proof
end

section
/-! SUPPORT. The symbol field as a number (`30_encoding.md` R63): the value of a field, the accumulator that has shifted
the field in, and what the step of the last field bit does with it. -/

namespace Sys2Proof.Machine

open Sys2Proof

/-! ### The value of a field -/

/-- The first bit of a field counts most. -/
theorem fieldValue_cons (b : Bool) (bits : List Bool) :
    fieldValue (b :: bits) = b.toNat * 2 ^ bits.length + fieldValue bits := by
  simp [fieldValue, List.range_succ_eq_map, Function.comp_def, Nat.sub_sub, Nat.add_comm 1]

theorem fieldValue_lt (bits : List Bool) : fieldValue bits < 2 ^ bits.length := by
  induction bits with
  | nil => exact Nat.one_pos
  | cons b bits ih =>
    have hb : b.toNat * 2 ^ bits.length ≤ 1 * 2 ^ bits.length := Nat.mul_le_mul_right _ (Bool.toNat_le b)
    rw [fieldValue_cons, List.length_cons, Nat.pow_succ]
    omega

@[simp] theorem symbolField_length (n : Nat) (sym : Sym) : (symbolField n sym).length = n := by simp [symbolField]

/-- A longer field has one more bit in front. -/
theorem symbolField_succ (n : Nat) (sym : Sym) :
    symbolField (n + 1) sym = sym.getLsbD n :: symbolField n sym := by
  simp [symbolField, List.range_succ_eq_map, Function.comp_def, Nat.sub_sub, Nat.add_comm 1]

/-- The field of a symbol is its lowest bits. -/
theorem fieldValue_symbolField_mod (n : Nat) (sym : Sym) : fieldValue (symbolField n sym) = sym.toNat % 2 ^ n := by
  induction n with
  | zero => simp [symbolField, fieldValue, Nat.mod_one]
  | succ n ih =>
    rw [symbolField_succ, fieldValue_cons, symbolField_length, ih, Nat.mod_pow_succ, ← BitVec.testBit_toNat,
      Nat.toNat_testBit]
    ring

theorem fieldValue_symbolField {n : Nat} {sym : Sym} (h : sym.toNat < 2 ^ n) :
    fieldValue (symbolField n sym) = sym.toNat := by rw [fieldValue_symbolField_mod, Nat.mod_eq_of_lt h]

/-! ### The accumulator (`41_tree_deserializer.md` R80) -/

theorem shiftSymbol_toNat {n : Nat} (h : n ≤ 15) (acc : Sym) (b : Bool) :
    (shiftSymbol n acc b).toNat = (2 * acc.toNat + b.toNat) % 2 ^ n := by
  have hdvd : 2 ^ n ∣ 2 ^ 15 := Nat.pow_dvd_pow 2 h
  have hlt := (Nat.mod_lt (2 * acc.toNat + b.toNat) (Nat.two_pow_pos n)).trans_le (Nat.pow_le_pow_right Nat.two_pos h)
  rw [shiftSymbol, BitVec.toNat_setWidth, BitVec.toNat_setWidth, BitVec.toNat_shiftConcat, Nat.shiftLeft_eq, pow_one,
    Nat.mul_comm, Nat.mod_mod_of_dvd _ hdvd, Nat.mod_eq_of_lt hlt]

/-- Field bits shifted in behind what the accumulator holds. -/
theorem foldl_shiftSymbol_toNat {n : Nat} (h : n ≤ 15) (bits : List Bool) (acc : Sym) (hacc : acc.toNat < 2 ^ n) :
    (bits.foldl (shiftSymbol n) acc).toNat = (acc.toNat * 2 ^ bits.length + fieldValue bits) % 2 ^ n := by
  induction bits generalizing acc with
  | nil => simp [fieldValue, Nat.mod_eq_of_lt hacc]
  | cons b bits ih =>
    rw [List.foldl_cons, ih _ (shiftSymbol_lt n acc b), shiftSymbol_toNat h, fieldValue_cons, List.length_cons,
      Nat.add_mod, Nat.mod_mul_mod, ← Nat.add_mod]
    congr 1
    ring

/-- The accumulator that has shifted in a whole field holds its value. -/
theorem foldl_field_toNat {n : Nat} (h : n ≤ 15) {bits : List Bool} (hlen : bits.length = n) :
    (bits.foldl (shiftSymbol n) 0).toNat = fieldValue bits := by
  have hlt := fieldValue_lt bits
  rw [hlen] at hlt
  rw [foldl_shiftSymbol_toNat h bits 0 (Nat.two_pow_pos n)]
  simp [Nat.mod_eq_of_lt hlt]

/-- Reading the field of a symbol gives the symbol. -/
theorem foldl_symbolField {n : Nat} (h : n ≤ 15) {sym : Sym} (hsym : sym.toNat < 2 ^ n) :
    (symbolField n sym).foldl (shiftSymbol n) 0 = sym :=
  BitVec.eq_of_toNat_eq ((foldl_field_toNat h (symbolField_length n sym)).trans (fieldValue_symbolField hsym))

/-! ### The step of the last field bit (`41_tree_deserializer.md` R80, R81) -/

/-- A symbol above 256 is BAD_SYMBOL, and no node is allocated. -/
theorem completeLeaf_bad {s : State} (h : eosSym < s.symAcc) : completeLeaf s = .next (raiseFault .badSymbol s) :=
  if_pos h

/-- What a legal symbol's completion leaves: the accumulator, and a fault code that is not BAD_SYMBOL. -/
def KeepsSymbol (s t : State) : Prop := t.symAcc = s.symAcc ∧ (t.fcode = .badSymbol → s.fcode = .badSymbol)

theorem headerComplete_keepsSymbol (s : State) : Yields (KeepsSymbol s) (headerComplete s) := by
  refine yields_withIndex fun _ _ => yields_withNode fun n _ => ?_
  split
  · split
    · exact (yields_next ..).mpr ⟨rfl, id⟩
    · exact (yields_next ..).mpr ⟨rfl, fun h => nomatch h⟩
  · exact (yields_next ..).mpr ⟨rfl, id⟩

theorem completeLeaf_keepsSymbol {s : State} (h : ¬ eosSym < s.symAcc) : Yields (KeepsSymbol s) (completeLeaf s) := by
  rw [completeLeaf, if_neg h]
  refine yields_allocNode ⟨rfl, fun h => nomatch h⟩ fun _ => yields_attach fun mem rt st => ?_
  split
  · exact headerComplete_keepsSymbol _
  · exact (yields_next ..).mpr ⟨rfl, id⟩

/-- The state in which a leaf is completed: the last field bit is in the accumulator. -/
def withFieldBit (b : Bool) (s : State) : State :=
  { s with symAcc := shiftSymbol s.cfg.symBits s.symAcc b, symCnt := s.symCnt + 1 }

/-- Counting one more field bit does not wrap below 15. -/
theorem symCnt_succ (c : Fin 16) (h : c.val < 15) : (c + 1).val = c.val + 1 := by
  rw [Fin.val_add]
  exact Nat.mod_eq_of_lt (Nat.succ_lt_succ h)

/-- The last bit of a field completes the leaf. -/
theorem symbolBit_last {s : State} (b : Bool) (hbits : s.cfg.symBits ≤ 15) (h : s.symCnt.val + 1 = s.cfg.symBits) :
    symbolBit b s = completeLeaf (withFieldBit b s) :=
  if_pos ((symCnt_succ s.symCnt (by omega)).trans h)

/-- Any other bit of a field is only shifted in. -/
theorem symbolBit_more {s : State} (b : Bool) (hbits : s.cfg.symBits ≤ 15) (h : s.symCnt.val + 1 < s.cfg.symBits) :
    symbolBit b s = .next (withFieldBit b s) :=
  if_neg fun e => h.ne ((symCnt_succ s.symCnt (by omega)).symm.trans e)

/-- Settles O23: the field's value is the accumulator's, and completing the leaf compares it with 256. -/
theorem symbolFieldValue : Obligations.SymbolFieldValue := by
  refine ⟨fun n bits hn hlen => foldl_field_toNat hn hlen, fun s bits b hlegal hlen hcnt hacc t ht => ?_, by decide,
    by decide⟩
  obtain ⟨-, hbits, -⟩ := hlegal
  have hvalue : (withFieldBit b s).symAcc.toNat = fieldValue (bits ++ [b]) := by
    rw [← foldl_field_toNat hbits (bits := bits ++ [b]) (by simpa using hlen), List.foldl_append, ← hacc]
    rfl
  have hstep : completeLeaf (withFieldBit b s) = .next t := by
    rw [← symbolBit_last b hbits (by omega)]
    exact ht
  by_cases hbad : eosSym < (withFieldBit b s).symAcc
  · obtain rfl : raiseFault .badSymbol (withFieldBit b s) = t :=
      Host.Outcome.next.inj ((completeLeaf_bad hbad).symm.trans hstep)
    have habove : 256 < fieldValue (bits ++ [b]) := hvalue ▸ hbad
    exact ⟨hvalue, fun _ => ⟨rfl, rfl, rfl⟩, fun hle => absurd habove (Nat.not_lt.mpr hle)⟩
  · obtain ⟨hkeep, hcode⟩ := completeLeaf_keepsSymbol hbad t hstep
    have hle : fieldValue (bits ++ [b]) ≤ 256 := hvalue ▸ Nat.not_lt.mp hbad
    exact ⟨(congrArg BitVec.toNat hkeep).trans hvalue, fun habove => absurd habove (Nat.not_lt.mpr hle),
      fun _ hne h => hne (hcode h)⟩

end Sys2Proof.Machine
end

section
/-! SUPPORT. Assembler lines (`30_encoding.md` R59): what a mnemonic and its operand assemble to, and the moves of a
command. -/

namespace Sys2Proof.Machine

open Sys2Proof

/-- The commands whose line has no operand. -/
def bareCommands : List Instr := [.nop, .decStart, .decAbort, .rdBit, .rdByte, .wrFlush, .clrErr, .softReset]

/-- Everything that assembles: the mnemonics without an operand, and the two with one. -/
theorem assemble_some {m : String} {op : Option Nat} {i : Instr} (h : assemble m op = some i) :
    i.mnemonic = m ∧ ((op = none ∧ i ∈ bareCommands) ∨ (∃ b < 2, op = some b ∧ i = .wrBit (BitVec.ofNat 8 b)) ∨
      ∃ v < 256, op = some v ∧ i = .wrByte (BitVec.ofNat 8 v)) := by
  unfold assemble at h
  split at h
  case h_6 b =>
    obtain ⟨hb, hi⟩ := (Option.ite_none_right_eq_some ..).mp h
    cases hi
    exact ⟨rfl, .inr (.inl ⟨b, hb, rfl, rfl⟩)⟩
  case h_7 v =>
    obtain ⟨hv, hi⟩ := (Option.ite_none_right_eq_some ..).mp h
    cases hi
    exact ⟨rfl, .inr (.inr ⟨v, hv, rfl, rfl⟩)⟩
  case h_11 => cases h
  all_goals
    cases h
    exact ⟨rfl, .inl ⟨rfl, by decide⟩⟩

theorem bareCommands_spec : ∀ i ∈ bareCommands, i.wellFormed = true ∧ (wordOf i).isSome = true ∧
    i.mnemonic ≠ "WR_BIT" ∧ i.mnemonic ≠ "WR_BYTE" := by
  decide

theorem wrBit_wellFormed {b : Nat} (h : b < 2) : (Instr.wrBit (BitVec.ofNat 8 b)).wellFormed = true := by
  match b, h with
  | 0, _ | 1, _ => decide

/-- A line's operand is there for WR_BIT and WR_BYTE only, and its instruction is a well-formed command. -/
theorem assembled_spec {m : String} {op : Option Nat} {i : Instr} (h : assemble m op = some i) :
    i.wellFormed = true ∧ (wordOf i).isSome = true ∧ (op = none ↔ m ≠ "WR_BIT" ∧ m ≠ "WR_BYTE") := by
  obtain ⟨rfl, ⟨rfl, hi⟩ | ⟨b, hb, rfl, rfl⟩ | ⟨v, -, rfl, rfl⟩⟩ := assemble_some h
  · obtain ⟨hwf, hword, hbit, hbyte⟩ := bareCommands_spec i hi
    exact ⟨hwf, hword, iff_of_true rfl ⟨hbit, hbyte⟩⟩
  · exact ⟨wrBit_wellFormed hb, rfl, iff_of_false (fun e => nomatch e) fun ⟨hbit, _⟩ => hbit rfl⟩
  · exact ⟨rfl, rfl, iff_of_false (fun e => nomatch e) fun ⟨_, hbyte⟩ => hbyte rfl⟩

theorem encode_of_wordOf {i : Instr} {w : Word} (h : wordOf i = some w) : encode i = .command w := by
  unfold wordOf at h
  split at h
  · rename_i v hv
    rw [hv, Option.some.inj h]
  · cases h
  · cases h

/-- `X` of a well-formed command is the CMD write of a word that decodes to it, and WAIT_CMD. -/
theorem issue_spec {i : Instr} (hwf : i.wellFormed = true) (hword : (wordOf i).isSome = true) :
    ∃ w, wordOf i = some w ∧ decodeCommand w = .ok i ∧ issue i = [.writeReg .cmd w, .waitCmd] := by
  obtain ⟨w, hw⟩ := Option.isSome_iff_exists.mp hword
  refine ⟨w, hw, ?_, ?_⟩
  · have hdecode := decode_encode i hwf
    rwa [encode_of_wordOf hw] at hdecode
  · simp only [issue, hw]

/-- `X WR_BIT` of a bit. -/
theorem issue_wrBit (b : Bool) : issue (.wrBit ((BitVec.ofBool b).setWidth 8)) =
    [.writeReg .cmd (if b then 0x00002001 else 0x00002000), .waitCmd] := by
  cases b <;> rfl

/-- A row's mnemonic assembles, with operand 0 where it takes one. -/
theorem assemble_row {r : CommandRow} (h : r ∈ commandTable) :
    ∃ op i, assemble r.mnemonic op = some i ∧ i.mnemonic = r.mnemonic := by
  simp only [commandTable, List.mem_cons, List.not_mem_nil, or_false] at h
  obtain rfl | rfl | rfl | rfl | rfl | rfl | rfl | rfl | rfl | rfl := h
  · exact ⟨none, .nop, rfl, rfl⟩
  · exact ⟨none, .decStart, rfl, rfl⟩
  · exact ⟨none, .decAbort, rfl, rfl⟩
  · exact ⟨none, .rdBit, rfl, rfl⟩
  · exact ⟨none, .rdByte, rfl, rfl⟩
  · exact ⟨some 0, .wrBit 0, rfl, rfl⟩
  · exact ⟨some 0, .wrByte 0, rfl, rfl⟩
  · exact ⟨none, .wrFlush, rfl, rfl⟩
  · exact ⟨none, .clrErr, rfl, rfl⟩
  · exact ⟨none, .softReset, rfl, rfl⟩

/-- Settles O5, from the list of what assembles and the value of a symbol field. -/
theorem assemblerLines : Obligations.AssemblerLines := by
  refine ⟨fun m op i h => ?_, fun r => assemble_row, fun b => rfl, fun v => rfl, fun m op i h => ?_, fun bits => ?_,
    fun n sym => rfl, fun n sym _ hsym => ⟨symbolField_length n sym, fieldValue_symbolField hsym⟩⟩
  · obtain ⟨hwf, hword, -⟩ := assembled_spec h
    obtain ⟨hname, -⟩ := assemble_some h
    exact ⟨hname, issue_spec hwf hword⟩
  · obtain ⟨-, -, hoperand⟩ := assembled_spec h
    exact hoperand
  · simp only [writeBits, issue_wrBit]

end Sys2Proof.Machine
end

section
/-! SUPPORT. Runs of a decode that the host leaves alone: one step per unread bit (`20_memory.md` R52, assumption
log 3), and runs put together. -/

namespace Sys2Proof.Machine

open Sys2Proof

variable {s t : State}

/-! ### Runs -/

theorem run_succ (h : step s = .next t) (k : Nat) : Sys2Proof.core.run (k + 1) s = Sys2Proof.core.run k t := by
  have hstep : Sys2Proof.core.step s = .next t := h
  simp only [Host.Core.run, hstep]

theorem run_one (s : State) : Sys2Proof.core.run 1 s = step s := by
  cases hs : step s with
  | next t => exact run_succ hs 0
  | fault r =>
    have hstep : Sys2Proof.core.step s = .fault r := hs
    simp only [Host.Core.run, hstep]
    rfl
  | refused r =>
    have hstep : Sys2Proof.core.step s = .refused r := hs
    simp only [Host.Core.run, hstep]
    rfl

/-- A run goes on from where its first part ended. -/
theorem run_add {j : Nat} (h : Sys2Proof.core.run j s = .next t) (k : Nat) :
    Sys2Proof.core.run (j + k) s = Sys2Proof.core.run k t := by
  induction j generalizing s with
  | zero =>
    obtain rfl : s = t := Host.Outcome.next.inj h
    rw [Nat.zero_add]
  | succ j ih =>
    cases hs : step s with
    | next a =>
      rw [run_succ hs] at h
      rw [Nat.succ_add, run_succ hs, ih h]
    | fault r =>
      have hstep : Sys2Proof.core.step s = .fault r := hs
      simp [Host.Core.run, hstep] at h
    | refused r =>
      have hstep : Sys2Proof.core.step s = .refused r := hs
      simp [Host.Core.run, hstep] at h

/-! ### Steps of an undisturbed decode -/

/-- No host move is left and no command is latched, so every step is the decode state's. -/
def Undisturbed (s : State) : Prop := s.sched = [] ∧ s.cmdPend = false

theorem Undisturbed.step_eq (h : Undisturbed s) : step s = fsmStep s := by
  obtain ⟨hsched, hpend⟩ := h
  simp [step, machineStep, hsched, blockStep, hpend]

theorem fsmStep_bit (phase : BitPhase) (hf : s.fsm = phaseFsm phase) : fsmStep s = bitStep phase s := by
  cases phase <;> simp only [fsmStep, hf, phaseFsm]

/-- With a bit unread, the step of a state that reads one runs the token the bit is. -/
theorem step_bit {phase : BitPhase} {b : Bool} {rest : List Bool} (h : Undisturbed s) (hf : s.fsm = phaseFsm phase)
    (hbits : unreadBits s = b :: rest) :
    ∃ v r q, step s = exec (decodeBit phase b) { s with rdByte := v, rdRem := r, srcQ := q } ∧
      unreadBits { s with rdByte := v, rdRem := r, srcQ := q } = rest := by
  obtain ⟨v, r, q, hread, hrest, -⟩ := readBit_of_unreadBits s b rest hbits
  refine ⟨v, r, q, ?_, hrest⟩
  rw [h.step_eq, fsmStep_bit phase hf, bitStep, hread]

/-- With no bit unread and the source closed, it is the fault of that state (`60_exceptions.md` R103, R104). -/
theorem step_bit_end {phase : BitPhase} (h : Undisturbed s) (hf : s.fsm = phaseFsm phase) (hbits : unreadBits s = [])
    (hclosed : s.srcClosed = true) : step s = .next (raiseFault (endFault phase) s) := by
  obtain ⟨hrem, hsrc⟩ := (unreadBits_nil s).mp hbits
  rw [h.step_eq, fsmStep_bit phase hf, bitStep, readBit_end s hrem hsrc hclosed]

end Sys2Proof.Machine
end

section
/-! SUPPORT. The tree that a header's bits build (`41_tree_deserializer.md` R76 to R83): where a node is attached, what
one subtree's bits leave behind, and where the decode goes at the header's end. -/

namespace Sys2Proof.Machine

open Sys2Proof

/-! ### The tree in node memory -/

/-- Node memory holds `t` in pre-order from entry `i` on: a node, its left subtree right behind it, and then its right
one (`41_tree_deserializer.md` R76). -/
def holdsPreorder (s : State) : Nat → Tree → Prop
  | i, .leaf sym => nodeRead s i = some { kind := .leaf, sym := sym, left := none, right := none }
  | i, .node l r =>
      nodeRead s i =
          some { kind := .internal, sym := nas, left := some (i + 1), right := some (i + 1 + l.size) } ∧
        holdsPreorder s (i + 1) l ∧ holdsPreorder s (i + 1 + l.size) r

/-- A tree in pre-order takes the entries from its root on, one per node. -/
theorem holdsPreorder_congr {s t : State} (tree : Tree) (i : Nat)
    (hread : ∀ j, i ≤ j → j < i + tree.size → nodeRead t j = nodeRead s j) (h : holdsPreorder s i tree) :
    holdsPreorder t i tree := by
  induction tree generalizing i with
  | leaf sym => exact (hread i (Nat.le_refl i) (Nat.lt_succ_self i)).trans h
  | node l r ihl ihr =>
    obtain ⟨hnode, hl, hr⟩ := h
    rw [Tree.size] at hread
    refine ⟨(hread i (Nat.le_refl i) (by omega)).trans hnode, ihl _ (fun j hj hlt => ?_) hl,
      ihr _ (fun j hj hlt => ?_) hr⟩
    · exact hread j (by omega) (by omega)
    · exact hread j (by omega) (by omega)

theorem holdsTree_of_preorder {s : State} (t : Tree) (i : Nat) (h : holdsPreorder s i t) : holdsTree s i t := by
  induction t generalizing i with
  | leaf sym => exact h
  | node l r ihl ihr =>
    obtain ⟨hnode, hl, hr⟩ := h
    exact ⟨_, _, hnode, ihl _ hl, ihr _ hr⟩

/-- `holdsTree` looks only at node memory and the node count. -/
theorem holdsTree_congr {s t : State} (tree : Tree) (i : Nat) (hn : t.nodes = s.nodes)
    (hc : t.nodeCount = s.nodeCount) (h : holdsTree s i tree) : holdsTree t i tree := by
  induction tree generalizing i with
  | leaf sym => exact (nodeRead_congr s t i hn hc).trans h
  | node l r ihl ihr =>
    obtain ⟨a, b, hnode, hl, hr⟩ := h
    exact ⟨a, b, (nodeRead_congr s t i hn hc).trans hnode, ihl a hl, ihr b hr⟩

/-! ### Attaching a node (`41_tree_deserializer.md` R77) -/

/-- `t` is `s` with node `n` attached: as the root, or as a child of the node on top of the stack, which is older. -/
inductive Attaches (n : Nat) (s : State) : State → Prop where
  | root (hr : s.root = none) : Attaches n s { s with root := some n }
  | left {p : Nat} {below : List Nat} {nd : Node} (hr : s.root ≠ none) (hs : s.stack = p :: below) (hp : p < n)
      (hn : nodeRead s p = some nd) (hl : nd.left = none) : Attaches n s (nodeWrite s p { nd with left := some n })
  | right {p : Nat} {below : List Nat} {nd : Node} (hr : s.root ≠ none) (hs : s.stack = p :: below) (hp : p < n)
      (hn : nodeRead s p = some nd) (hl : nd.left ≠ none) :
      Attaches n s { nodeWrite s p { nd with right := some n } with stack := below }

theorem attach_of_attaches {n : Nat} {s t : State} (h : Attaches n s t) (k : State → Out) : attach n s k = k t := by
  cases h with
  | root hr => exact attach_root n s k hr
  | left hr hs _ hn hl => exact attach_left n _ _ _ s k hr hs hn hl
  | right hr hs _ hn hl => exact attach_right n _ _ _ s k hr hs hn hl

theorem Attaches.eq {n : Nat} {s t : State} (h : Attaches n s t) :
    ∃ mem rt st, t = { s with nodes := mem, root := some rt, stack := st } := by
  cases h with
  | root hr => exact ⟨s.nodes, n, s.stack, rfl⟩
  | left hr | right hr =>
    obtain ⟨r, hr⟩ := Option.ne_none_iff_exists'.mp hr
    exact ⟨_, r, _, by rw [← hr]; rfl⟩

/-- `t` has the root, the stack and the entries below `n` of `s`. -/
structure TreeAgree (n : Nat) (s t : State) : Prop where
  root : t.root = s.root
  stack : t.stack = s.stack
  read : ∀ i < n, nodeRead t i = nodeRead s i

theorem nodeRead_nodeWrite {s : State} {p : Nat} {q nd : Node} (h : nodeRead s p = some nd) (i : Nat) :
    nodeRead (nodeWrite s p q) i = if i = p then some q else nodeRead s i := by
  split
  · rename_i hip
    rw [hip]
    exact nodeRead_nodeWrite_same s p q (lt_of_nodeRead s p nd h)
  · rename_i hip
    exact nodeRead_nodeWrite_other s p i q hip

/-- Where an older entry is attached depends on the root, the stack and the older entries only, and no other entry is
written. -/
theorem Attaches.congr {n : Nat} {s s' t : State} (h : Attaches n s s') (hagree : TreeAgree n s t) :
    ∃ t', Attaches n t t' ∧ TreeAgree n s' t' ∧ ∀ i, n ≤ i → nodeRead t' i = nodeRead t i := by
  obtain ⟨hroot, hstack, hread⟩ := hagree
  cases h with
  | root hr => exact ⟨_, .root (hroot.trans hr), ⟨rfl, hstack, hread⟩, fun _ _ => rfl⟩
  | left hr hs hp hn hl =>
    have hn' := (hread _ hp).trans hn
    refine ⟨_, .left (hroot ▸ hr) (hstack.trans hs) hp hn' hl, ⟨hroot, hstack, fun i hi => ?_⟩, fun i hi => ?_⟩
    · rw [nodeRead_nodeWrite hn', nodeRead_nodeWrite hn, hread i hi]
    · exact nodeRead_nodeWrite_other _ _ _ _ (by omega)
  | right hr hs hp hn hl =>
    have hn' := (hread _ hp).trans hn
    refine ⟨_, .right (hroot ▸ hr) (hstack.trans hs) hp hn' hl, ⟨hroot, rfl, fun i hi => ?_⟩, fun i hi => ?_⟩
    · refine (nodeRead_nodeWrite hn' i).trans ?_
      rw [hread i hi]
      exact (nodeRead_nodeWrite hn i).symm
    · exact nodeRead_nodeWrite_other t _ i _ (by omega)

end Sys2Proof.Machine
end

section
/-! SUPPORT. The token of a leaf (`41_tree_deserializer.md` R79 to R81): its marker, its field bits, and what no header
token writes. -/

namespace Sys2Proof.Machine

open Sys2Proof

/-- What the header tokens do not write before the header's end: everything but the tree, the symbol being read, the
reader and `fsm`. Two states that agree on it have equal values here. -/
def outsideHeader (s : State) : State :=
  { s with
    fsm := .idle, symAcc := 0, symCnt := 0, nodes := [], nodeCount := 0, stack := [], root := none, leafCount := 0
    rdByte := 0, rdRem := 0, srcQ := [] }

/-- A field the header does not write, or any value of such fields, is the same in both. -/
theorem eq_of_outsideHeader {α : Type} {s t : State} (h : outsideHeader t = outsideHeader s) (field : State → α)
    (hfield : ∀ u, field (outsideHeader u) = field u := by exact fun _ => rfl) : field t = field s := by
  rw [← hfield t, h, hfield]

theorem Undisturbed.of_outsideHeader {s t : State} (hs : Undisturbed s) (h : outsideHeader t = outsideHeader s) :
    Undisturbed t := by
  obtain ⟨hsched, hpend⟩ := hs
  exact ⟨(eq_of_outsideHeader h State.sched).trans hsched, (eq_of_outsideHeader h State.cmdPend).trans hpend⟩

/-! ### The token of a leaf -/

/-- Field bits that do not complete the field are shifted in (`41_tree_deserializer.md` R80). -/
theorem run_field (bits : List Bool) {s : State} {rest : List Bool} (h : Undisturbed s) (hf : s.fsm = .hdrSym)
    (hsymBits : s.cfg.symBits ≤ 15) (hlen : s.symCnt.val + bits.length < s.cfg.symBits)
    (hbits : unreadBits s = bits ++ rest) :
    ∃ v r q c, Sys2Proof.core.run bits.length s = .next { s with
        rdByte := v, rdRem := r, srcQ := q, symAcc := bits.foldl (shiftSymbol s.cfg.symBits) s.symAcc, symCnt := c } ∧
      c.val = s.symCnt.val + bits.length ∧ unreadBits { s with rdByte := v, rdRem := r, srcQ := q } = rest := by
  induction bits generalizing s with
  | nil => exact ⟨s.rdByte, s.rdRem, s.srcQ, s.symCnt, rfl, rfl, hbits⟩
  | cons b bits ih =>
    rw [List.length_cons] at hlen
    obtain ⟨v, r, q, hstep, hrest⟩ := step_bit (phase := .hdrSym) h hf hbits
    have hone : step s = .next (withFieldBit b { s with rdByte := v, rdRem := r, srcQ := q }) :=
      hstep.trans (symbolBit_more b hsymBits (by change s.symCnt.val + 1 < s.cfg.symBits; omega))
    have hcnt : (s.symCnt + 1).val = s.symCnt.val + 1 := symCnt_succ _ (by omega)
    obtain ⟨v', r', q', c, hrun, hc, hend⟩ :=
      ih (s := withFieldBit b { s with rdByte := v, rdRem := r, srcQ := q }) h hf hsymBits
        (by change (s.symCnt + 1).val + bits.length < s.cfg.symBits; omega) hrest
    refine ⟨v', r', q', c, (run_succ hone _).trans hrun, hc.trans ?_, hend⟩
    change (s.symCnt + 1).val + bits.length = s.symCnt.val + (bits.length + 1)
    omega

/-- The marker step (`41_tree_deserializer.md` R79). -/
theorem step_marker {s : State} {rest : List Bool} (h : Undisturbed s) (hf : s.fsm = .hdrBit)
    (hbits : unreadBits s = true :: rest) :
    ∃ v r q, step s = .next { s with
        rdByte := v, rdRem := r, srcQ := q, symAcc := 0, symCnt := 0, fsm := .hdrSym } ∧
      unreadBits { s with rdByte := v, rdRem := r, srcQ := q } = rest :=
  step_bit (phase := .hdrBit) h hf hbits

/-- The marker and field bits that do not complete the field. -/
theorem run_leaf_cut (bits : List Bool) {s : State} {rest : List Bool} (h : Undisturbed s) (hf : s.fsm = .hdrBit)
    (hsymBits : s.cfg.symBits ≤ 15) (hlen : bits.length < s.cfg.symBits)
    (hbits : unreadBits s = true :: (bits ++ rest)) :
    ∃ v r q c, Sys2Proof.core.run (bits.length + 1) s = .next { s with
        rdByte := v, rdRem := r, srcQ := q, symAcc := bits.foldl (shiftSymbol s.cfg.symBits) 0, symCnt := c
        fsm := .hdrSym } ∧
      c.val = bits.length ∧ unreadBits { s with rdByte := v, rdRem := r, srcQ := q } = rest := by
  obtain ⟨v, r, q, hstep, hrest⟩ := step_marker h hf hbits
  obtain ⟨v', r', q', c, hrun, hc, hend⟩ := run_field bits
    (s := { s with rdByte := v, rdRem := r, srcQ := q, symAcc := 0, symCnt := 0, fsm := .hdrSym }) h rfl hsymBits
    (by simpa using hlen) hrest
  exact ⟨v', r', q', c, (run_succ hstep _).trans hrun, by simpa using hc, hend⟩

/-- The whole token of a leaf ends in its completion, with its symbol in the accumulator. -/
theorem run_leaf {s : State} {sym : Sym} {rest : List Bool} (h : Undisturbed s) (hf : s.fsm = .hdrBit)
    (hlegal : s.cfg.Legal) (hsym : sym ≤ eosSym)
    (hbits : unreadBits s = (Tree.leaf sym).header s.cfg.symBits ++ rest) :
    ∃ v r q c, Sys2Proof.core.run ((Tree.leaf sym).header s.cfg.symBits).length s = completeLeaf { s with
        rdByte := v, rdRem := r, srcQ := q, symAcc := sym, symCnt := c, fsm := .hdrSym } ∧
      unreadBits { s with rdByte := v, rdRem := r, srcQ := q } = rest := by
  obtain ⟨hnine, hsymBits, -⟩ := hlegal
  have hlt : sym.toNat < 2 ^ s.cfg.symBits :=
    (Nat.lt_of_le_of_lt hsym (by decide : eosSym.toNat < 2 ^ 9)).trans_le (Nat.pow_le_pow_right Nat.two_pos hnine)
  have hfold := foldl_symbolField hsymBits hlt
  have hlen := symbolField_length s.cfg.symBits sym
  rw [Tree.header] at hbits ⊢
  obtain hnil | ⟨init, last, hsplit⟩ := List.eq_nil_or_concat (symbolField s.cfg.symBits sym)
  · rw [hnil, List.length_nil] at hlen
    omega
  rw [List.concat_eq_append] at hsplit
  rw [hsplit, List.length_append, List.length_singleton] at hlen
  rw [hsplit, List.cons_append, List.append_assoc] at hbits
  rw [hsplit, List.foldl_append] at hfold
  obtain ⟨v, r, q, c, hrun, hc, hrest⟩ := run_leaf_cut init h hf hsymBits (by omega) hbits
  obtain ⟨v', r', q', hstep, hend⟩ := step_bit (phase := .hdrSym) (s := { s with
    rdByte := v, rdRem := r, srcQ := q, symAcc := init.foldl (shiftSymbol s.cfg.symBits) 0, symCnt := c
    fsm := .hdrSym }) h rfl hrest
  refine ⟨v', r', q', c + 1, ?_, hend⟩
  rw [hsplit, List.length_cons, List.length_append, List.length_singleton, run_add hrun 1, run_one, hstep]
  refine (symbolBit_last (s := { s with
    rdByte := v', rdRem := r', srcQ := q', symAcc := init.foldl (shiftSymbol s.cfg.symBits) 0, symCnt := c
    fsm := .hdrSym }) last hsymBits (by change c.val + 1 = s.cfg.symBits; omega)).trans ?_
  rw [← hfold]
  rfl

end Sys2Proof.Machine
end

section
/-! SUPPORT. The bits of one subtree (`41_tree_deserializer.md` R76 to R83): each token's step, what is open inside an
internal node, and the induction on the tree. -/

namespace Sys2Proof.Machine

open Sys2Proof

/-! ### The tokens of one subtree -/

/-- A leaf completed: with the stack empty the header ends, and otherwise the next token is read
(`41_tree_deserializer.md` R81). -/
def closeLeaf (s : State) : Out := if s.stack = [] then headerComplete s else .next { s with fsm := .hdrBit }

theorem closeLeaf_open {s : State} (h : s.stack ≠ []) : closeLeaf s = .next { s with fsm := .hdrBit } := if_neg h

/-- The completion of a leaf with a legal symbol and room for its node. -/
theorem completeLeaf_of_attaches {s s' : State} (hsym : s.symAcc ≤ eosSym) (hroom : s.nodeCount.toNat < s.cfg.nodeCap)
    (h : Attaches s.nodeCount.toNat { allocated .leaf s.symAcc s with leafCount := s.leafCount + 1 } s') :
    completeLeaf s = closeLeaf s' := by
  rw [completeLeaf, if_neg (BitVec.not_lt.mpr hsym), allocNode_room _ _ _ _ hroom]
  exact attach_of_attaches h _

/-- What the bits of a subtree leave behind, where `s'` is the start `s` with the subtree's root attached: the subtree
in pre-order from the first free entry on, and otherwise the tree of `s'`. -/
structure Built (tree : Tree) (rest : List Bool) (s s' t : State) : Prop where
  unread : unreadBits t = rest
  agree : TreeAgree s.nodeCount.toNat s' t
  holds : holdsPreorder t s.nodeCount.toNat tree
  count : t.nodeCount.toNat = s.nodeCount.toNat + tree.size
  leaves : t.leafCount = s.leafCount + BitVec.ofNat 32 tree.leaves
  fsm : t.fsm = .hdrSym
  frame : outsideHeader t = outsideHeader s

/-- Inside the subtree of the internal node that was allocated in `s` and attached in `s'`: the node is on the stack,
with `left` as its left child and no right one. -/
structure InsideNode (left : Option Nat) (rest : List Bool) (s s' t : State) : Prop where
  unread : unreadBits t = rest
  root : t.root = s'.root
  stack : t.stack = s.nodeCount.toNat :: s'.stack
  read : ∀ i < s.nodeCount.toNat, nodeRead t i = nodeRead s' i
  node : nodeRead t s.nodeCount.toNat = some { kind := .internal, sym := nas, left := left, right := none }
  fsm : t.fsm = .hdrBit
  frame : outsideHeader t = outsideHeader s

theorem Attaches.root_ne_none {n : Nat} {s t : State} (h : Attaches n s t) : t.root ≠ none := by
  obtain ⟨mem, rt, st, rfl⟩ := h.eq
  exact Option.some_ne_none rt

theorem nodeCount_lt_of_room {s : State} (hlegal : s.cfg.Legal) (hroom : s.nodeCount.toNat < s.cfg.nodeCap) :
    s.nodeCount.toNat < 65535 := by
  obtain ⟨-, -, -, hcap⟩ := hlegal
  exact hroom.trans_le hcap

/-- An allocation leaves the older entries, and the new one reads as it was written. -/
theorem treeAgree_allocated (kind : NodeKind) (sym : Sym) {s t : State} (h : s.nodeCount.toNat < 65535)
    (hn : t.nodes = (allocated kind sym s).nodes := by rfl) (hc : t.nodeCount = s.nodeCount + 1 := by rfl)
    (hr : t.root = s.root := by rfl) (hs : t.stack = s.stack := by rfl) :
    TreeAgree s.nodeCount.toNat s t ∧
      nodeRead t s.nodeCount.toNat = some { kind := kind, sym := sym, left := none, right := none } := by
  have hread : ∀ i, nodeRead t i = nodeRead (allocated kind sym s) i := fun i => nodeRead_congr _ _ i hn hc
  exact ⟨⟨hr, hs, fun i hi => (hread i).trans (nodeRead_allocated_old kind sym s i h hi)⟩,
    (hread _).trans (nodeRead_allocated_new kind sym s h)⟩

/-- The leaf's bits build the leaf. -/
theorem run_leaf_built {s s' : State} {sym : Sym} {rest : List Bool} (h : Undisturbed s) (hf : s.fsm = .hdrBit)
    (hlegal : s.cfg.Legal) (hsym : sym ≤ eosSym) (hroom : s.nodeCount.toNat < s.cfg.nodeCap)
    (hattach : Attaches s.nodeCount.toNat s s')
    (hbits : unreadBits s = (Tree.leaf sym).header s.cfg.symBits ++ rest) :
    ∃ t, Sys2Proof.core.run ((Tree.leaf sym).header s.cfg.symBits).length s = closeLeaf t ∧
      Built (.leaf sym) rest s s' t := by
  have h65 : s.nodeCount.toNat < 65535 := nodeCount_lt_of_room hlegal hroom
  obtain ⟨v, r, q, c, hrun, hrest⟩ := run_leaf h hf hlegal hsym hbits
  obtain ⟨hagree, hnew⟩ := treeAgree_allocated .leaf sym (s := s) (t := { allocated .leaf sym { s with
      rdByte := v, rdRem := r, srcQ := q, symAcc := sym, symCnt := c, fsm := .hdrSym } with
    leafCount := s.leafCount + 1 }) h65
  obtain ⟨t, ht, hagree', hkept⟩ := hattach.congr hagree
  refine ⟨t, hrun.trans (completeLeaf_of_attaches hsym hroom ht), ?_⟩
  have hholds := (hkept _ (Nat.le_refl _)).trans hnew
  obtain ⟨mem, rt, st, rfl⟩ := ht.eq
  exact ⟨hrest, hagree', hholds, nodeCount_succ s.nodeCount h65, rfl, rfl, rfl⟩

/-- HDR.NODE with room for its node (`41_tree_deserializer.md` R79). -/
theorem execHdrNode_of_attaches {s s' : State} (hroom : s.nodeCount.toNat < s.cfg.nodeCap)
    (h : Attaches s.nodeCount.toNat (allocated .internal nas s) s') :
    execHdrNode s = .next { s' with stack := s.nodeCount.toNat :: s'.stack } :=
  (allocNode_room _ _ _ _ hroom).trans (attach_of_attaches h _)

/-- The structure bit 0 opens an internal node. -/
theorem step_openNode {s s' : State} {rest : List Bool} (h : Undisturbed s) (hf : s.fsm = .hdrBit)
    (hlegal : s.cfg.Legal) (hroom : s.nodeCount.toNat < s.cfg.nodeCap) (hattach : Attaches s.nodeCount.toNat s s')
    (hbits : unreadBits s = false :: rest) :
    ∃ t, step s = .next t ∧ InsideNode none rest s s' t ∧ t.nodeCount.toNat = s.nodeCount.toNat + 1 ∧
      t.leafCount = s.leafCount := by
  have h65 : s.nodeCount.toNat < 65535 := nodeCount_lt_of_room hlegal hroom
  obtain ⟨v, r, q, hstep, hrest⟩ := step_bit (phase := .hdrBit) h hf hbits
  obtain ⟨hagree, hnew⟩ := treeAgree_allocated .internal nas (s := s)
    (t := allocated .internal nas { s with rdByte := v, rdRem := r, srcQ := q }) h65
  obtain ⟨t, ht, ⟨hroot, hstack, hread⟩, hkept⟩ := hattach.congr hagree
  have hnode := (hkept _ (Nat.le_refl _)).trans hnew
  refine ⟨_, hstep.trans (execHdrNode_of_attaches hroom ht), ?_⟩
  obtain ⟨mem, rt, st, rfl⟩ := ht.eq
  exact ⟨⟨hrest, hroot, congrArg (s.nodeCount.toNat :: ·) hstack, hread, hnode, hf, rfl⟩,
    nodeCount_succ s.nodeCount h65, rfl⟩

variable {child : Option Nat} {rest : List Bool} {s s' t : State} {l r : Tree}

/-- Node `n` as the left child of the internal node `p`. -/
def leftAttached (p n : Nat) (t : State) : State := nodeWrite t p ⟨.internal, nas, some n, none⟩

/-- Node `n` as the right child of the internal node `p`, whose left child is `a`, with the stack popped to `below`. -/
def rightAttached (p a n : Nat) (below : List Nat) (t : State) : State :=
  { nodeWrite t p ⟨.internal, nas, some a, some n⟩ with stack := below }

/-- The next node becomes the left child. -/
theorem InsideNode.attachLeft (h : InsideNode none rest s s' t) (hroot : s'.root ≠ none) {n : Nat}
    (hn : s.nodeCount.toNat < n) : Attaches n t (leftAttached s.nodeCount.toNat n t) :=
  .left (h.root ▸ hroot) h.stack hn h.node rfl

/-- The next node becomes the right child, and the parent is popped. -/
theorem InsideNode.attachRight {a : Nat} (h : InsideNode (some a) rest s s' t) (hroot : s'.root ≠ none) {n : Nat}
    (hn : s.nodeCount.toNat < n) : Attaches n t (rightAttached s.nodeCount.toNat a n s'.stack t) :=
  .right (h.root ▸ hroot) h.stack hn h.node (Option.some_ne_none a)

/-- The left subtree is built, and the node stays open. -/
theorem InsideNode.leftBuilt {v : State} {rest' : List Bool} (h : InsideNode none rest s s' t)
    (hcount : t.nodeCount.toNat = s.nodeCount.toNat + 1)
    (hb : Built l rest' t (leftAttached s.nodeCount.toNat t.nodeCount.toNat t) v) :
    InsideNode (some (s.nodeCount.toNat + 1)) rest' s s' { v with fsm := .hdrBit } ∧
      holdsPreorder { v with fsm := .hdrBit } (s.nodeCount.toNat + 1) l := by
  have hread : ∀ i ≤ s.nodeCount.toNat, nodeRead v i = if i = s.nodeCount.toNat
      then some ⟨.internal, nas, some (s.nodeCount.toNat + 1), none⟩ else nodeRead t i := fun i hi => by
    rw [hb.agree.read i (by omega), leftAttached, nodeRead_nodeWrite h.node, hcount]
  refine ⟨⟨hb.unread, hb.agree.root.trans h.root, hb.agree.stack.trans h.stack, fun i hi => ?_, ?_, rfl,
    hb.frame.trans h.frame⟩, ?_⟩
  · exact (hread i hi.le).trans ((if_neg hi.ne).trans (h.read i hi))
  · exact (hread _ (Nat.le_refl _)).trans (if_pos rfl)
  · exact hcount ▸ holdsPreorder_congr (s := v) l _ (fun _ _ _ => rfl) hb.holds

/-- The right subtree is built, and with it the whole subtree of the node. -/
theorem InsideNode.rightBuilt {v : State} {rest' : List Bool}
    (h : InsideNode (some (s.nodeCount.toNat + 1)) rest s s' t) (hl : holdsPreorder t (s.nodeCount.toNat + 1) l)
    (hcount : t.nodeCount.toNat = s.nodeCount.toNat + 1 + l.size)
    (hb : Built r rest' t
      (rightAttached s.nodeCount.toNat (s.nodeCount.toNat + 1) t.nodeCount.toNat s'.stack t) v) :
    TreeAgree s.nodeCount.toNat s' v ∧ holdsPreorder v s.nodeCount.toNat (.node l r) := by
  have hread : ∀ i < t.nodeCount.toNat, nodeRead v i = if i = s.nodeCount.toNat
      then some ⟨.internal, nas, some (s.nodeCount.toNat + 1), some (s.nodeCount.toNat + 1 + l.size)⟩
      else nodeRead t i := fun i hi => by
    rw [hb.agree.read i hi, ← hcount]
    exact nodeRead_nodeWrite h.node i
  refine ⟨⟨hb.agree.root.trans h.root, hb.agree.stack, fun i hi => ?_⟩, ?_, ?_, hcount ▸ hb.holds⟩
  · exact (hread i (by omega)).trans ((if_neg hi.ne).trans (h.read i hi))
  · exact (hread _ (by omega)).trans (if_pos rfl)
  · refine holdsPreorder_congr l _ (fun i hi hlt => ?_) hl
    exact (hread i (by omega)).trans (if_neg (by omega))

/-! ### The induction on the tree -/

theorem Tree.symbolsLegal_node : (Tree.node l r).symbolsLegal = true ↔ l.symbolsLegal = true ∧ r.symbolsLegal = true :=
  Bool.and_eq_true_iff

/-- The start of a subtree's bits: legal parameters and symbols, room for its nodes, and a place for its root, which
`s'` has attached. -/
structure SubtreeStart (tree : Tree) (s s' : State) : Prop where
  undisturbed : Undisturbed s
  fsm : s.fsm = .hdrBit
  legal : s.cfg.Legal
  symbols : tree.symbolsLegal = true
  room : s.nodeCount.toNat + tree.size ≤ s.cfg.nodeCap
  attach : Attaches s.nodeCount.toNat s s'

/-- The bits of a subtree build it, one step per bit, up to the completion of its last leaf. -/
def Builds (tree : Tree) : Prop :=
  ∀ s s' rest, SubtreeStart tree s s' → unreadBits s = tree.header s.cfg.symBits ++ rest →
    ∃ t, Sys2Proof.core.run (tree.header s.cfg.symBits).length s = closeLeaf t ∧ Built tree rest s s' t

/-- The structure bit 0 takes an internal node, and its left subtree starts. -/
theorem SubtreeStart.step_node (h : SubtreeStart (.node l r) s s') (hbits : unreadBits s = false :: rest) :
    ∃ t, step s = .next t ∧ InsideNode none rest s s' t ∧ t.nodeCount.toNat = s.nodeCount.toNat + 1 ∧
      t.leafCount = s.leafCount ∧ SubtreeStart l t (leftAttached s.nodeCount.toNat t.nodeCount.toNat t) := by
  obtain ⟨hrun, hf, hlegal, hsymbols, hroom, hattach⟩ := h
  obtain ⟨hleft, -⟩ := Tree.symbolsLegal_node.mp hsymbols
  rw [Tree.size] at hroom
  obtain ⟨t, hstep, ht, hcount, hleaves⟩ := step_openNode hrun hf hlegal (by omega) hattach hbits
  have hcfg : t.cfg = s.cfg := eq_of_outsideHeader ht.frame State.cfg
  exact ⟨t, hstep, ht, hcount, hleaves, hrun.of_outsideHeader ht.frame, ht.fsm, hcfg ▸ hlegal, hleft,
    by rw [hcfg]; omega, ht.attachLeft hattach.root_ne_none (by omega)⟩

/-- The bits up to the end of the left subtree build it, and the right subtree starts. -/
theorem SubtreeStart.run_left (h : SubtreeStart (.node l r) s s') (ih : Builds l)
    (hbits : unreadBits s = false :: (l.header s.cfg.symBits ++ rest)) :
    ∃ t, Sys2Proof.core.run ((l.header s.cfg.symBits).length + 1) s = .next t ∧
      InsideNode (some (s.nodeCount.toNat + 1)) rest s s' t ∧ holdsPreorder t (s.nodeCount.toNat + 1) l ∧
      t.nodeCount.toNat = s.nodeCount.toNat + 1 + l.size ∧ t.leafCount = s.leafCount + BitVec.ofNat 32 l.leaves ∧
      SubtreeStart r t
        (rightAttached s.nodeCount.toNat (s.nodeCount.toNat + 1) t.nodeCount.toNat s'.stack t) := by
  obtain ⟨a, hstep, ha, hcount, hleaves, hstart⟩ := h.step_node hbits
  have hcfg : a.cfg = s.cfg := eq_of_outsideHeader ha.frame State.cfg
  obtain ⟨v, hrun, hv⟩ := ih a _ rest hstart (hcfg ▸ ha.unread)
  rw [hcfg, closeLeaf_open (by rw [hv.agree.stack]; exact ha.stack ▸ List.cons_ne_nil _ _)] at hrun
  obtain ⟨hinside, hholds⟩ := ha.leftBuilt hcount hv
  have hcount' := hv.count
  rw [hcount] at hcount'
  obtain ⟨hundisturbed, -, hlegal, hsymbols, hroom, hattach⟩ := h
  obtain ⟨-, hright⟩ := Tree.symbolsLegal_node.mp hsymbols
  rw [Tree.size] at hroom
  have hcfg' : v.cfg = s.cfg := eq_of_outsideHeader (hv.frame.trans ha.frame) State.cfg
  refine ⟨_, (run_succ hstep _).trans hrun, hinside, hholds, hcount', hleaves ▸ hv.leaves,
    hundisturbed.of_outsideHeader hinside.frame, rfl, hcfg' ▸ hlegal, hright, ?_,
    hinside.attachRight hattach.root_ne_none (hcount' ▸ by omega)⟩
  change v.nodeCount.toNat + r.size ≤ v.cfg.nodeCap
  rw [hcfg']
  omega

/-- Every subtree's bits build it. -/
theorem builds (tree : Tree) : Builds tree := by
  induction tree with
  | leaf sym =>
    intro s s' rest h hbits
    exact run_leaf_built h.undisturbed h.fsm h.legal (of_decide_eq_true h.symbols) h.room h.attach hbits
  | node l r ihl ihr =>
    intro s s' rest h hbits
    rw [Tree.header, List.cons_append, List.append_assoc] at hbits
    obtain ⟨a, hrunl, ha, hholds, hcount, hleaves, hstart⟩ := h.run_left ihl hbits
    have hcfg : a.cfg = s.cfg := eq_of_outsideHeader ha.frame State.cfg
    obtain ⟨v, hrunr, hv⟩ := ihr a _ rest hstart (hcfg ▸ ha.unread)
    obtain ⟨hagree, htree⟩ := ha.rightBuilt hholds hcount hv
    refine ⟨v, ?_, hv.unread, hagree, htree, ?_, ?_, hv.fsm, hv.frame.trans ha.frame⟩
    · rw [Tree.header, List.length_cons, List.length_append, Nat.add_right_comm, run_add hrunl, ← hcfg, hrunr]
    · rw [hv.count, hcount, Tree.size]
      omega
    · rw [hv.leaves, hleaves, Tree.leaves, BitVec.ofNat_add, BitVec.add_assoc]

end Sys2Proof.Machine
end

section
/-! SUPPORT. A whole header from the start of a decode: where it ends (`41_tree_deserializer.md` R82, R83), and what a
source that ends inside it leads to (`60_exceptions.md` R103). -/

namespace Sys2Proof.Machine

open Sys2Proof

/-! ### The size of a header (`30_encoding.md` R64, `41_tree_deserializer.md` R83) -/

theorem Tree.size_add_one (t : Tree) : t.size + 1 = 2 * t.leaves := by
  induction t with
  | leaf sym => rfl
  | node l r ihl ihr =>
    rw [Tree.size, Tree.leaves]
    omega

theorem Tree.header_length (n : Nat) (t : Tree) : (t.header n).length = t.size + n * t.leaves := by
  induction t with
  | leaf sym => simp [Tree.header, Tree.size, Tree.leaves, Nat.add_comm]
  | node l r ihl ihr =>
    rw [Tree.header, List.length_cons, List.length_append, ihl, ihr, Tree.size, Tree.leaves, Nat.mul_add]
    omega

/-! ### The start and the end of a header -/

variable {s t : State} {tree : Tree} {rest : List Bool}

/-- The start of a decode's header (`43_control.md` R97): an empty tree. -/
structure HeaderStart (tree : Tree) (s : State) : Prop where
  undisturbed : Undisturbed s
  fsm : s.fsm = .hdrBit
  legal : s.cfg.Legal
  symbols : tree.symbolsLegal = true
  room : tree.size ≤ s.cfg.nodeCap
  root : s.root = none
  stack : s.stack = []
  nodeCount : s.nodeCount = 0

theorem HeaderStart.nodeCount_toNat (h : HeaderStart tree s) : s.nodeCount.toNat = 0 := by rw [h.nodeCount]; rfl

/-- The header's tree is a subtree whose root becomes the root. -/
theorem HeaderStart.subtree (h : HeaderStart tree s) : SubtreeStart tree s { s with root := some 0 } := by
  have hzero := h.nodeCount_toNat
  exact ⟨h.undisturbed, h.fsm, h.legal, h.symbols, by rw [hzero, Nat.zero_add]; exact h.room,
    hzero.symm ▸ .root h.root⟩

/-- Where the decode goes at the end of its header (`41_tree_deserializer.md` R82): SEP under an internal root, DONE for
a single EOS leaf, and DEGENERATE_TREE for a single byte leaf. -/
def headerEnd (tree : Tree) (s : State) : State :=
  match tree with
  | .node _ _ => { s with fsm := .sep }
  | .leaf sym => if sym = eosSym then { s with fsm := .done } else raiseFault .degenerateTree s

theorem headerComplete_eq (hroot : s.root = some 0) (h : holdsPreorder s 0 tree) :
    headerComplete s = .next (headerEnd tree s) := by
  cases tree with
  | leaf sym =>
    have hread : nodeRead s 0 = some ⟨.leaf, sym, none, none⟩ := h
    simp only [headerComplete, hroot, withIndex, withNode, hread, headerEnd, if_true]
    split <;> rfl
  | node l r =>
    obtain ⟨hread, -⟩ := h
    simp only [headerComplete, hroot, withIndex, withNode, hread, headerEnd]
    rfl

/-- What the whole header has built, before the decode goes on. -/
structure HeaderBuilt (tree : Tree) (rest : List Bool) (s t : State) : Prop where
  unread : unreadBits t = rest
  root : t.root = some 0
  stack : t.stack = []
  holds : holdsPreorder t 0 tree
  count : t.nodeCount.toNat = tree.size
  leaves : t.leafCount = s.leafCount + BitVec.ofNat 32 tree.leaves
  fsm : t.fsm = .hdrSym
  frame : outsideHeader t = outsideHeader s

/-- The header's bits build its tree, and the decode goes on from there. -/
theorem run_header (h : HeaderStart tree s) (hbits : unreadBits s = tree.header s.cfg.symBits ++ rest) :
    ∃ t, Sys2Proof.core.run (tree.header s.cfg.symBits).length s = .next (headerEnd tree t) ∧
      HeaderBuilt tree rest s t := by
  obtain ⟨t, hrun, ht⟩ := builds tree s _ rest h.subtree hbits
  have hroot : t.root = some 0 := ht.agree.root
  have hstack : t.stack = [] := ht.agree.stack.trans h.stack
  have hholds := ht.holds
  have hcount := ht.count
  rw [h.nodeCount_toNat] at hholds hcount
  rw [closeLeaf, if_pos hstack, headerComplete_eq hroot hholds] at hrun
  exact ⟨t, hrun, ht.unread, hroot, hstack, hholds, hcount.trans (Nat.zero_add _), ht.leaves, ht.fsm, ht.frame⟩

/-- The end of the header writes `fsm` and the fault record only. -/
theorem headerEnd_eq (tree : Tree) (s : State) :
    ∃ f c fs, headerEnd tree s = { s with fsm := f, fcode := c, fstate := fs } := by
  cases tree with
  | leaf sym =>
    rw [headerEnd]
    split
    · exact ⟨.done, s.fcode, s.fstate, rfl⟩
    · exact ⟨.fault, .degenerateTree, s.fsm, rfl⟩
  | node l r => exact ⟨.sep, s.fcode, s.fstate, rfl⟩

theorem headerEnd_node (h : tree.isNode = true) (s : State) : headerEnd tree s = { s with fsm := .sep } := by
  cases tree with
  | leaf sym => cases h
  | node l r => rfl

theorem headerEnd_eosLeaf (s : State) : headerEnd (.leaf eosSym) s = { s with fsm := .done } := rfl

theorem headerEnd_byteLeaf (hleaf : tree.isNode = false) (hsym : tree ≠ .leaf eosSym) (s : State) :
    headerEnd tree s = raiseFault .degenerateTree s := by
  cases tree with
  | leaf sym => exact if_neg fun h => hsym (congrArg Tree.leaf h)
  | node l r => cases hleaf

/-- After reading `n` bits from a byte's end, the reader stands `n` bits behind one (`20_memory.md` R44). -/
theorem rdRem_of_unread {bits : List Bool} (hs : unreadBits s = bits ++ rest) (ht : unreadBits t = rest)
    (hrem : s.rdRem = 0) : t.rdRem.val = (8 - bits.length % 8) % 8 := by
  have hlen := congrArg List.length hs
  have hlen' := congrArg List.length ht
  have hlt := t.rdRem.isLt
  have hzero : s.rdRem.val = 0 := congrArg Fin.val hrem
  rw [List.length_append, unreadBits_length] at hlen
  rw [unreadBits_length] at hlen'
  omega

theorem HeaderBuilt.leafCount_toNat (h : HeaderBuilt tree rest s t) (hstart : HeaderStart tree s)
    (hzero : s.leafCount = 0) : t.leafCount.toNat = tree.leaves := by
  obtain ⟨-, -, -, hcap⟩ := hstart.legal
  have hsize := tree.size_add_one
  have hroom := hstart.room
  rw [h.leaves, hzero, BitVec.toNat_add, BitVec.toNat_ofNat]
  change (0 + tree.leaves % 2 ^ 32) % 2 ^ 32 = tree.leaves
  omega

theorem HeaderBuilt.nodeCount_toNat (h : HeaderBuilt tree rest s t) : t.nodeCount.toNat = 2 * tree.leaves - 1 :=
  h.count.trans (Nat.eq_sub_of_add_eq tree.size_add_one)

/-- Settles O24: the run of the header's bits, by induction on the tree, and then the end of the header. -/
theorem headerBuildsTree : Obligations.HeaderBuildsTree := by
  intro s t rest hlegal hsymbols hroom hsched hpend hf hroot hstack hcount hleaves hbits
  have hstart : HeaderStart t s := ⟨⟨hsched, hpend⟩, hf, hlegal, hsymbols, hroom, hroot, hstack, hcount⟩
  obtain ⟨v, hrun, hv⟩ := run_header hstart hbits
  have kept {α : Type} (field : State → α) (hfield : ∀ u, field (outsideHeader u) = field u) : field v = field s :=
    eq_of_outsideHeader hv.frame field hfield
  have hcode : v.fcode = s.fcode := kept State.fcode fun _ => rfl
  have hnode : t.isNode = true → (headerEnd t v).fsm = .sep ∧ (headerEnd t v).fcode = s.fcode := fun h => by
    rw [headerEnd_node h]
    exact ⟨rfl, hcode⟩
  have heos : t = .leaf eosSym → (headerEnd t v).fsm = .done ∧ (headerEnd t v).fcode = s.fcode := fun h => by
    rw [h, headerEnd_eosLeaf]
    exact ⟨rfl, hcode⟩
  have hbyte : t.isNode = false → t ≠ .leaf eosSym → (headerEnd t v).fsm = .fault ∧
      (headerEnd t v).fcode = .degenerateTree ∧ (headerEnd t v).fstate = .hdrSym := fun hleaf hsym => by
    rw [headerEnd_byteLeaf hleaf hsym]
    exact ⟨rfl, rfl, hv.fsm⟩
  refine ⟨?_, headerEnd t v, hrun, ?_⟩
  · rw [Tree.header_length, Nat.eq_sub_of_add_eq t.size_add_one]
  obtain ⟨f, c, fs, hend⟩ := headerEnd_eq t v
  rw [hend] at hnode heos hbyte ⊢
  exact ⟨holdsTree_congr (s := v) t 0 rfl rfl (holdsTree_of_preorder t 0 hv.holds), hv.root, hv.stack, hv.unread,
    hv.nodeCount_toNat, hv.leafCount_toNat hstart hleaves, rdRem_of_unread hbits hv.unread, hnode, heos, hbyte,
    kept State.snk fun _ => rfl, kept State.wrAcc fun _ => rfl, kept State.wrCnt fun _ => rfl,
    kept State.outCount fun _ => rfl, kept State.cur fun _ => rfl, kept State.srcClosed fun _ => rfl⟩

/-! ### A source that ends inside the header -/

/-- Inside a header, with every bit of the source read. -/
structure InsideHeader (s t : State) : Prop where
  fsm : t.fsm = .hdrBit ∨ t.fsm = .hdrSym
  unread : unreadBits t = []
  frame : outsideHeader t = outsideHeader s

/-- What cuts off `xs ++ ys` cuts off `ys`, or cuts `xs` before its end. -/
theorem append_cut {xs ys bits lost : List Bool} (h : xs ++ ys = bits ++ lost) :
    (∃ kept, bits = xs ++ kept ∧ ys = kept ++ lost) ∨ ∃ more, more ≠ [] ∧ xs = bits ++ more := by
  obtain hkept | ⟨more, hxs, hmore⟩ := List.append_eq_append_iff.mp h
  · exact .inl hkept
  · by_cases hnil : more = []
    · subst hnil
      exact .inl ⟨[], by rw [hxs, List.append_nil, List.append_nil], hmore.symm⟩
    · exact .inr ⟨more, hnil, hxs⟩

/-- A subtree's bits, cut off before their end. -/
theorem run_subtree_cut (tree : Tree) {s s' : State} {bits lost : List Bool} (h : SubtreeStart tree s s')
    (hbits : unreadBits s = bits) (hlost : lost ≠ []) (hheader : tree.header s.cfg.symBits = bits ++ lost) :
    ∃ t, Sys2Proof.core.run bits.length s = .next t ∧ InsideHeader s t := by
  induction tree generalizing s s' bits lost with
  | leaf sym =>
    cases bits with
    | nil => exact ⟨s, rfl, .inl h.fsm, hbits, rfl⟩
    | cons b bits =>
      rw [Tree.header, List.cons_append, List.cons.injEq] at hheader
      obtain ⟨rfl, hfield⟩ := hheader
      have hlen := congrArg List.length hfield
      have hpos := List.length_pos_of_ne_nil hlost
      rw [symbolField_length, List.length_append] at hlen
      obtain ⟨-, hsymBits, -⟩ := h.legal
      obtain ⟨v, r, q, c, hrun, -, hrest⟩ := run_leaf_cut bits (rest := []) h.undisturbed h.fsm hsymBits (by omega)
        (by rw [hbits, List.append_nil])
      exact ⟨_, hrun, .inr rfl, hrest, rfl⟩
  | node l r ihl ihr =>
    cases bits with
    | nil => exact ⟨s, rfl, .inl h.fsm, hbits, rfl⟩
    | cons b bits =>
      rw [Tree.header, List.cons_append, List.cons.injEq] at hheader
      obtain ⟨rfl, hheader⟩ := hheader
      obtain ⟨kept, rfl, hr⟩ | ⟨more, hmore, hl⟩ := append_cut hheader
      · obtain ⟨a, hrunl, ha, -, -, -, hstart⟩ := h.run_left (builds l) hbits
        have hcfg : a.cfg = s.cfg := eq_of_outsideHeader ha.frame State.cfg
        obtain ⟨t, hrunr, ht⟩ := ihr hstart ha.unread hlost (hcfg.symm ▸ hr)
        refine ⟨t, ?_, ht.fsm, ht.unread, ht.frame.trans ha.frame⟩
        rw [List.length_cons, List.length_append, Nat.add_right_comm, run_add hrunl, hrunr]
      · obtain ⟨a, hstep, ha, -, -, hstart⟩ := h.step_node hbits
        have hcfg : a.cfg = s.cfg := eq_of_outsideHeader ha.frame State.cfg
        obtain ⟨t, hrun, ht⟩ := ihl hstart ha.unread hmore (hcfg.symm ▸ hl)
        exact ⟨t, (run_succ hstep _).trans hrun, ht.fsm, ht.unread, ht.frame.trans ha.frame⟩

/-- Settles O25: the cut header's bits are read, and the next read meets the end of the source. -/
theorem truncatedHeader : Obligations.TruncatedHeader := by
  intro s t bits rest hlegal hsymbols hroom hsched hpend hf hroot hstack hcount hclosed hbits hrest hheader
  have hstart : HeaderStart t s := ⟨⟨hsched, hpend⟩, hf, hlegal, hsymbols, hroom, hroot, hstack, hcount⟩
  obtain ⟨v, hrun, hphase, hunread, hframe⟩ := run_subtree_cut t hstart.subtree hbits hrest hheader
  have hundisturbed : Undisturbed v := hstart.undisturbed.of_outsideHeader hframe
  have hclosed' : v.srcClosed = true := (eq_of_outsideHeader hframe State.srcClosed).trans hclosed
  have hstep : step v = .next (raiseFault .malformedHeader v) := by
    obtain hf | hf := hphase
    · exact step_bit_end (phase := .hdrBit) hundisturbed hf hunread hclosed'
    · exact step_bit_end (phase := .hdrSym) hundisturbed hf hunread hclosed'
  exact ⟨_, (run_add hrun 1).trans ((run_one v).trans hstep), rfl, rfl, hphase, hunread,
    eq_of_outsideHeader hframe State.snk⟩

end Sys2Proof.Machine
end

section
/-! SUPPORT. The walk along one code (`42_tree_walker.md` R86 to R88): a path of the tree node memory holds, read bit by
bit, ends at its leaf. -/

namespace Sys2Proof.Machine

open Sys2Proof

/-! ### Codes and paths (`30_encoding.md` R67) -/

theorem Tree.symbolAt_leaf {x sym : Sym} {p : List Bool} (h : (Tree.leaf x).symbolAt p = some sym) :
    p = [] ∧ x = sym := by
  cases p with
  | nil => exact ⟨rfl, Option.some.inj h⟩
  | cons b p => cases h

/-- A symbol's code is a path to a leaf with that symbol. -/
theorem Tree.symbolAt_code {t : Tree} {sym : Sym} {p : List Bool} (h : t.code sym = some p) :
    t.symbolAt p = some sym := by
  induction t generalizing p with
  | leaf x =>
    obtain ⟨rfl, hp⟩ := (Option.ite_none_right_eq_some ..).mp h
    cases hp
    rfl
  | node l r ihl ihr =>
    rw [Tree.code] at h
    split at h
    · rename_i q hq
      cases h
      exact ihl hq
    · obtain ⟨q, hq, rfl⟩ := Option.map_eq_some_iff.mp h
      exact ihr hq

/-- No leaf's path goes on to another leaf. -/
theorem Tree.symbolAt_append {t : Tree} {p q : List Bool} {x y : Sym} (hp : t.symbolAt p = some x)
    (hpq : t.symbolAt (p ++ q) = some y) : q = [] := by
  induction t generalizing p with
  | leaf sym =>
    obtain ⟨rfl, -⟩ := Tree.symbolAt_leaf hp
    exact (Tree.symbolAt_leaf hpq).1
  | node l r ihl ihr =>
    cases p with
    | nil => cases hp
    | cons b p =>
      cases b with
      | false => exact ihl hp hpq
      | true => exact ihr hp hpq

/-! ### The walker's step -/

variable {s : State}

/-- What a leaf does when the walker arrives at it: EOS ends the decode there, a byte is emitted
(`42_tree_walker.md` R87, R88). -/
def leafReached (sym : Sym) (d : Nat) (s : State) : State :=
  if sym = eosSym then endOfStream d s else emitLeaf sym s

theorem arriveAt_leaf {d : Nat} {sym : Sym} (h : nodeRead s d = some ⟨.leaf, sym, none, none⟩) :
    arriveAt d s = .next (leafReached sym d s) := by
  simp only [arriveAt, withNode, h, reduceCtorEq, if_false, leafReached]
  split <;> rfl

theorem arriveAt_internal {d : Nat} {n : Node} (h : nodeRead s d = some n) (hk : n.kind = .internal) :
    arriveAt d s = .next { s with cur := some d } := by
  simp only [arriveAt, withNode, h, hk, if_true]

theorem descend_eq {c d : Nat} {n : Node} {b : Bool} (hcur : s.cur = some c) (hn : nodeRead s c = some n)
    (hd : (if b then n.right else n.left) = some d) : descend b s = arriveAt d s := by
  simp only [descend, hcur, withIndex, withNode, hn, hd]

/-- The step of a payload bit arrives at the child the bit chooses. -/
theorem step_walk {c d : Nat} {n : Node} {b : Bool} {rest : List Bool} (h : Undisturbed s) (hf : s.fsm = .walk)
    (hcur : s.cur = some c) (hn : nodeRead s c = some n) (hd : (if b then n.right else n.left) = some d)
    (hbits : unreadBits s = b :: rest) :
    ∃ v r q, step s = arriveAt d { s with rdByte := v, rdRem := r, srcQ := q } ∧
      unreadBits { s with rdByte := v, rdRem := r, srcQ := q } = rest := by
  obtain ⟨v, r, q, hstep, hrest⟩ := step_bit (phase := .walk) h hf hbits
  have hexec : exec (decodeBit .walk b) { s with rdByte := v, rdRem := r, srcQ := q } =
      descend b { s with rdByte := v, rdRem := r, srcQ := q } := by cases b <;> rfl
  exact ⟨v, r, q, hstep.trans (hexec.trans (descend_eq hcur hn hd)), hrest⟩

/-! ### The induction on the tree -/

/-- From the node at entry `c`, under which node memory holds `t`, the bits of a leaf's path lead to that leaf. -/
def Walks (t : Tree) : Prop :=
  ∀ (s : State) (c : Nat) (p rest : List Bool) (sym : Sym), Undisturbed s → s.fsm = .walk → s.cur = some c →
    holdsTree s c t → t.isNode = true → t.symbolAt p = some sym → unreadBits s = p ++ rest →
    ∃ v r q e d, Sys2Proof.core.run p.length s =
        .next (leafReached sym d { s with rdByte := v, rdRem := r, srcQ := q, cur := e }) ∧
      unreadBits { s with rdByte := v, rdRem := r, srcQ := q } = rest ∧
      nodeRead s d = some ⟨.leaf, sym, none, none⟩

/-- The walk through a child: a leaf is reached, and in an internal node the walk goes on. -/
theorem Walks.child {t : Tree} (ih : Walks t) {d : Nat} {p rest : List Bool} {sym : Sym} (h : Undisturbed s)
    (hf : s.fsm = .walk) (ht : holdsTree s d t) (hp : t.symbolAt p = some sym)
    (hstep : ∃ v r q, step s = arriveAt d { s with rdByte := v, rdRem := r, srcQ := q } ∧
      unreadBits { s with rdByte := v, rdRem := r, srcQ := q } = p ++ rest) :
    ∃ v r q e d, Sys2Proof.core.run (p.length + 1) s =
        .next (leafReached sym d { s with rdByte := v, rdRem := r, srcQ := q, cur := e }) ∧
      unreadBits { s with rdByte := v, rdRem := r, srcQ := q } = rest ∧
      nodeRead s d = some ⟨.leaf, sym, none, none⟩ := by
  obtain ⟨v, r, q, hstep, hrest⟩ := hstep
  cases t with
  | leaf x =>
    obtain ⟨rfl, rfl⟩ := Tree.symbolAt_leaf hp
    exact ⟨v, r, q, s.cur, d, (run_one s).trans (hstep.trans (arriveAt_leaf ht)), hrest, ht⟩
  | node l r' =>
    have ⟨a, b, hnode, _⟩ := ht
    have hmove : step s = .next { s with rdByte := v, rdRem := r, srcQ := q, cur := some d } :=
      hstep.trans (arriveAt_internal hnode rfl)
    obtain ⟨v', r'', q', e, d', hrun, hrest', hleaf⟩ :=
      ih { s with rdByte := v, rdRem := r, srcQ := q, cur := some d } d p rest sym h hf rfl
        (holdsTree_congr (s := s) _ d rfl rfl ht) rfl hp hrest
    exact ⟨v', r'', q', e, d', (run_succ hmove _).trans hrun, hrest', hleaf⟩

theorem walks (t : Tree) : Walks t := by
  induction t with
  | leaf x => exact fun _ _ _ _ _ _ _ _ _ hnode => nomatch hnode
  | node l r ihl ihr =>
    intro s c p rest sym h hf hcur ht _ hp hbits
    obtain ⟨a, b, hnode, hl, hr⟩ := ht
    cases p with
    | nil => cases hp
    | cons bit p =>
      cases bit with
      | false => exact ihl.child h hf hl hp (step_walk h hf hcur hnode rfl hbits)
      | true => exact ihr.child h hf hr hp (step_walk h hf hcur hnode rfl hbits)

/-! ### One code from the root -/

/-- What the walk does not write: everything but `fsm`, `cur`, the writer, the sink, `out_count` and the reader. Two
states that agree on it have equal values here. -/
def outsideWalk (s : State) : State :=
  { s with
    fsm := .idle, cur := none, outCount := 0, snk := [], wrAcc := 0, wrCnt := 0, rdByte := 0, rdRem := 0, srcQ := [] }

/-- A field the walk does not write, or any value of such fields, is the same in both. -/
theorem eq_of_outsideWalk {α : Type} {s t : State} (h : outsideWalk t = outsideWalk s) (field : State → α)
    (hfield : ∀ u, field (outsideWalk u) = field u := by exact fun _ => rfl) : field t = field s := by
  rw [← hfield t, h, hfield]

/-- A byte leaf's emission in one equation (`42_tree_walker.md` R87, `20_memory.md` R47). -/
theorem emitLeaf_eq (sym : Sym) (s : State) : ∃ acc, emitLeaf sym s = { s with
    snk := s.snk ++ (if s.wrCnt = 0 then [] else [s.wrAcc]) ++ [sym.setWidth 8], wrAcc := acc, wrCnt := 0
    outCount := s.outCount + 1, cur := s.root } := by
  by_cases h : s.wrCnt = 0
  · refine ⟨s.wrAcc, ?_⟩
    rw [emitLeaf, putByte_aligned _ s h, if_pos h, List.append_nil, ← h]
    rfl
  · refine ⟨0, ?_⟩
    rw [emitLeaf, putByte_pending _ s h, if_neg h, List.append_assoc]
    rfl

/-- The walker stands at the root of `t`. -/
structure AtRoot (t : Tree) (r : Nat) (s : State) : Prop where
  undisturbed : Undisturbed s
  fsm : s.fsm = .walk
  root : s.root = some r
  cur : s.cur = some r
  holds : holdsTree s r t
  isNode : t.isNode = true

variable {t : Tree} {root : Nat} {p rest : List Bool} {sym : Sym}

/-- Reading the path of a byte emits it and returns to the root. -/
theorem AtRoot.run_byte (h : AtRoot t root s) (hp : t.symbolAt p = some sym) (hsym : sym ≠ eosSym)
    (hbits : unreadBits s = p ++ rest) :
    ∃ u, Sys2Proof.core.run p.length s = .next u ∧ AtRoot t root u ∧ unreadBits u = rest ∧
      outsideWalk u = outsideWalk s ∧ u.outCount = s.outCount + 1 ∧ u.wrCnt = 0 ∧
      u.snk = s.snk ++ (if s.wrCnt = 0 then [] else [s.wrAcc]) ++ [sym.setWidth 8] := by
  obtain ⟨hundisturbed, hf, hroot, hcur, hholds, hnode⟩ := h
  obtain ⟨v, r, q, e, d, hrun, hrest, -⟩ := walks t s root p rest sym hundisturbed hf hcur hholds hnode hp hbits
  obtain ⟨acc, hemit⟩ := emitLeaf_eq sym { s with rdByte := v, rdRem := r, srcQ := q, cur := e }
  rw [leafReached, if_neg hsym, hemit] at hrun
  exact ⟨_, hrun, ⟨hundisturbed, hf, hroot, hroot, holdsTree_congr (s := s) t root rfl rfl hholds, hnode⟩, hrest, rfl,
    rfl, rfl, rfl⟩

/-- Reading the path of EOS ends the decode at its leaf and emits nothing. -/
theorem AtRoot.run_eos (h : AtRoot t root s) (hp : t.symbolAt p = some eosSym) (hbits : unreadBits s = p ++ rest) :
    ∃ u, Sys2Proof.core.run p.length s = .next u ∧ u.fsm = .done ∧ unreadBits u = rest ∧
      outsideWalk u = outsideWalk s ∧ u.outCount = s.outCount ∧ u.snk = s.snk ∧ u.wrCnt = s.wrCnt ∧
      ∃ c, u.cur = some c ∧ symAt u c = some eosSym := by
  obtain ⟨hundisturbed, hf, hroot, hcur, hholds, hnode⟩ := h
  obtain ⟨v, r, q, e, d, hrun, hrest, hleaf⟩ := walks t s root p rest eosSym hundisturbed hf hcur hholds hnode hp hbits
  rw [leafReached, if_pos rfl] at hrun
  exact ⟨_, hrun, rfl, hrest, rfl, rfl, rfl, rfl, d, rfl, symAt_of_nodeRead (s := s) hleaf⟩

/-- Settles O28, by the walk along a path and the two inductions on the tree about codes. -/
theorem payloadCode : Obligations.PayloadCode := by
  refine ⟨fun s t root p rest sym hsched hpend hf hroot hcur hholds hnode hp hbits => ?_,
    fun t sym p => Tree.symbolAt_code, fun t p q x y => Tree.symbolAt_append⟩
  have hstart : AtRoot t root s := ⟨⟨hsched, hpend⟩, hf, hroot, hcur, hholds, hnode⟩
  by_cases hsym : sym = eosSym
  · subst hsym
    obtain ⟨u, hrun, hdone, hrest, hframe, hout, hsnk, hcnt, hleaf⟩ := hstart.run_eos hp hbits
    exact ⟨u, hrun, hrest, eq_of_outsideWalk hframe State.nodes, eq_of_outsideWalk hframe State.nodeCount,
      eq_of_outsideWalk hframe State.root, fun hne => absurd rfl hne, fun _ => ⟨hdone, hout, hsnk, hcnt, hleaf⟩⟩
  · obtain ⟨u, hrun, hu, hrest, hframe, hout, hcnt, hsnk⟩ := hstart.run_byte hp hsym hbits
    exact ⟨u, hrun, hrest, eq_of_outsideWalk hframe State.nodes, eq_of_outsideWalk hframe State.nodeCount,
      eq_of_outsideWalk hframe State.root, fun _ => ⟨hu.fsm, hu.cur, hout, hcnt, hsnk⟩, fun he => absurd he hsym⟩

end Sys2Proof.Machine
end

section
/-! SUPPORT. Whole decodes (`42_tree_walker.md` R90, R92): from the latched DEC_START through the header, the separator
and the message to EOS, on a source that begins with a stream. -/

namespace Sys2Proof.Machine

open Sys2Proof

variable {s t : State}

/-! ### Bits and bytes of the source -/

/-- Bytes are their bits. -/
theorem flatMap_byteBits_inj (o : BitOrder) {q q' : List Byte}
    (h : q.flatMap (byteBits o) = q'.flatMap (byteBits o)) : q = q' := by
  induction q generalizing q' with
  | nil =>
    have hlen := congrArg List.length h
    rw [flatMap_byteBits_length, flatMap_byteBits_length, List.length_nil] at hlen
    exact (List.length_eq_zero_iff.mp (by omega)).symm
  | cons v q ih =>
    cases q' with
    | nil => simp [byteBits] at h
    | cons v' q' =>
      rw [List.flatMap_cons, List.flatMap_cons] at h
      obtain ⟨hv, hq⟩ := List.append_inj h ((byteBits_length o v).trans (byteBits_length o v').symm)
      rw [byteBits_inj o v v' hv, ih hq]

/-- Where fewer than eight bits are unread in front of whole bytes, they are the partial byte's and the bytes are the
source's (`20_memory.md` R44). -/
theorem srcQ_of_unreadBits {pad : List Bool} {q : List Byte} (hpad : pad.length < 8)
    (h : unreadBits s = pad ++ q.flatMap (byteBits s.cfg.bitOrder)) : s.srcQ = q := by
  have hlen := congrArg List.length h
  have hrem := s.rdRem.isLt
  rw [unreadBits_length, List.length_append, flatMap_byteBits_length] at hlen
  obtain ⟨-, hbytes⟩ := List.append_inj h ((partialBits_length s).trans (by omega))
  exact flatMap_byteBits_inj _ hbytes

/-! ### The first step and the separator -/

/-- The step of a latched DEC_START, outside a decode (`43_control.md` R97). -/
theorem step_decStart (hsched : s.sched = []) (hbusy : busy s = false) (hpend : s.cmdPend = true)
    (hword : s.cmdWord = 0x00000100) : step s = .next (retire (startDecode s)) := by
  have hdecode : decode (.command s.cmdWord) = .ok .decStart := by rw [hword]; rfl
  have hexec : exec .decStart s = .next (retire (startDecode s)) := if_neg (Bool.eq_false_iff.mp hbusy)
  simp only [step, machineStep, hsched, blockStep, hpend, if_true, commandStep, hdecode, hexec]

/-- DEC_START leaves the start of a header (`43_control.md` R97). -/
theorem headerStart_startDecode {tree : Tree} (hlegal : s.cfg.Legal) (hsymbols : tree.symbolsLegal = true)
    (hroom : tree.size ≤ s.cfg.nodeCap) (hsched : s.sched = []) : HeaderStart tree (retire (startDecode s)) :=
  ⟨⟨hsched, rfl⟩, rfl, hlegal, hsymbols, hroom, rfl, rfl, rfl⟩

/-- It leaves the source's bits unread. -/
theorem unreadBits_startDecode (s : State) :
    unreadBits (retire (startDecode s)) = s.srcQ.flatMap (byteBits s.cfg.bitOrder) :=
  unreadBits_aligned (s := retire (startDecode s)) rfl

/-- The SEP step on a byte (`42_tree_walker.md` R85). -/
theorem step_separator {v : Byte} {q : List Byte} (h : Undisturbed s) (hf : s.fsm = .sep) (hq : s.srcQ = v :: q) :
    step s = .next { s with rdRem := 0, srcQ := q, cur := s.root, fsm := .walk } := by
  have hbyte : getByte s = .got v { s with rdRem := 0, srcQ := q } := by rw [getByte, srcFetch_cons s v q hq]
  rw [h.step_eq]
  simp only [fsmStep, hf, sepStep, hbyte]
  rfl

/-- A decode up to the end of its header: DEC_START, then one step per header bit. -/
theorem run_startDecode {tree : Tree} {rest : List Byte} (hlegal : s.cfg.Legal) (hsymbols : tree.symbolsLegal = true)
    (hroom : tree.size ≤ s.cfg.nodeCap) (hsched : s.sched = []) (hbusy : busy s = false) (hpend : s.cmdPend = true)
    (hword : s.cmdWord = 0x00000100)
    (hsource : s.srcQ = packBits s.cfg.bitOrder (tree.header s.cfg.symBits) ++ rest) :
    ∃ u pad, Sys2Proof.core.run (1 + (tree.header s.cfg.symBits).length) s = .next (headerEnd tree u) ∧
      HeaderStart tree (retire (startDecode s)) ∧ HeaderBuilt tree pad (retire (startDecode s)) u ∧
      u.srcQ = rest ∧ u.rdRem.val = (8 - (tree.header s.cfg.symBits).length % 8) % 8 := by
  have hstart := headerStart_startDecode hlegal hsymbols hroom hsched
  obtain ⟨k, hk, hpad⟩ := flatMap_byteBits_packBits s.cfg.bitOrder (tree.header s.cfg.symBits)
  have hbits : unreadBits (retire (startDecode s)) = tree.header s.cfg.symBits ++
      (List.replicate k false ++ rest.flatMap (byteBits s.cfg.bitOrder)) := by
    rw [unreadBits_startDecode, hsource, List.flatMap_append, hpad, List.append_assoc]
  obtain ⟨u, hrun, hu⟩ := run_header hstart hbits
  have hcfg : u.cfg = s.cfg := eq_of_outsideHeader hu.frame State.cfg
  refine ⟨u, _, ?_, hstart, hu, srcQ_of_unreadBits (by simpa using hk) (hcfg.symm ▸ hu.unread),
    rdRem_of_unread hbits hu.unread rfl⟩
  rw [Nat.add_comm, run_succ (step_decStart hsched hbusy hpend hword)]
  exact hrun

/-- Settles O30: the header of the single EOS leaf is the whole stream. -/
theorem degenerateStream_decodes : Obligations.DegenerateStream := by
  refine ⟨fun s extra hlegal hsched hbusy hpend hword hsource => ?_, by decide, by decide⟩
  have ⟨_, _, hcap, _⟩ := hlegal
  obtain ⟨u, pad, hrun, hstart, hu, hsrc, hrem⟩ :=
    run_startDecode (tree := .leaf eosSym) hlegal (by decide) hcap hsched hbusy hpend hword hsource
  have hlen : ((Tree.leaf eosSym).header s.cfg.symBits).length = 1 + s.cfg.symBits := by
    rw [Tree.header, List.length_cons, symbolField_length, Nat.add_comm]
  have kept {α : Type} (field : State → α) (hfield : ∀ v, field (outsideHeader v) = field v) :
      field u = field (retire (startDecode s)) := eq_of_outsideHeader hu.frame field hfield
  rw [hlen, ← Nat.add_assoc] at hrun
  rw [hlen] at hrem
  exact ⟨_, hrun, rfl, kept State.snk fun _ => rfl, kept State.outCount fun _ => rfl, hu.leaves,
    BitVec.eq_of_toNat_eq hu.count, kept State.cur fun _ => rfl, hsrc, hrem⟩

/-! ### The message -/

/-- The symbol of a byte is not EOS. -/
theorem byteSymbol_ne_eosSym (b : Byte) : (b.setWidth 15 : Sym) ≠ eosSym := by
  revert b
  decide

/-- The byte of a byte's symbol is the byte. -/
theorem byteSymbol_setWidth (b : Byte) : (b.setWidth 15 : Sym).setWidth 8 = b := by
  rw [BitVec.setWidth_setWidth_of_le b (by decide), BitVec.setWidth_eq]

/-- A message's codes are its first byte's and the rest's. -/
theorem Tree.codes_cons {tree : Tree} {b : Byte} {message : List Byte} {body : List Bool}
    (h : tree.codes (b :: message) = some body) :
    ∃ p rest, tree.code (b.setWidth 15) = some p ∧ tree.codes message = some rest ∧ body = p ++ rest := by
  rw [Tree.codes] at h
  split at h
  · rename_i p rest hp hrest
    cases h
    exact ⟨p, rest, hp, hrest, rfl⟩
  · cases h

variable {tree : Tree} {r : Nat}

/-- Reading a message's codes emits the message. -/
theorem AtRoot.run_message (message : List Byte) {body rest : List Bool} (h : AtRoot tree r s) (hcnt : s.wrCnt = 0)
    (hcodes : tree.codes message = some body) (hbits : unreadBits s = body ++ rest) :
    ∃ u, Sys2Proof.core.run body.length s = .next u ∧ AtRoot tree r u ∧ u.wrCnt = 0 ∧ unreadBits u = rest ∧
      outsideWalk u = outsideWalk s ∧ u.snk = s.snk ++ message ∧
      u.outCount = s.outCount + BitVec.ofNat 32 message.length := by
  induction message generalizing s body with
  | nil =>
    cases hcodes
    exact ⟨s, rfl, h, hcnt, hbits, rfl, (List.append_nil _).symm, (BitVec.add_zero _).symm⟩
  | cons b message ih =>
    obtain ⟨p, body', hp, hcodes', rfl⟩ := Tree.codes_cons hcodes
    rw [List.append_assoc] at hbits
    obtain ⟨a, hrun, ha, hrest, hframe, hout, hcnt', hsnk⟩ := h.run_byte (Tree.symbolAt_code hp)
      (byteSymbol_ne_eosSym b) hbits
    obtain ⟨u, hrun', hu, hcnt'', hrest', hframe', hsnk', hout'⟩ := ih ha hcnt' hcodes' hrest
    refine ⟨u, ?_, hu, hcnt'', hrest', hframe'.trans hframe, ?_, ?_⟩
    · rw [List.length_append, run_add hrun, hrun']
    · rw [hsnk', hsnk, if_pos hcnt, byteSymbol_setWidth, List.append_nil, List.append_assoc]
      rfl
    · rw [hout', hout, List.length_cons, BitVec.add_assoc, Nat.add_comm, BitVec.ofNat_add]
      rfl

/-- A stream is the packed header, the separator, and the packed payload (`30_encoding.md` R60). -/
theorem streamOf_eq {c : Config} {separator : Byte} {message stream : List Byte} {body e : List Bool}
    (hcodes : tree.codes message = some body) (hcode : tree.code eosSym = some e)
    (h : streamOf c tree separator message = some stream) :
    stream = packBits c.bitOrder (tree.header c.symBits) ++
      separator :: packBits c.bitOrder (body ++ e ++ e) := by
  simp only [streamOf, Tree.payload, hcodes, hcode, Option.map_some, Option.some.injEq] at h
  exact h.symm

/-- At the end of a header with an internal root the separator's step takes the walker to the root. -/
theorem HeaderBuilt.step_sep {rest : List Bool} {separator : Byte} {q : List Byte} (h : HeaderBuilt tree rest s t)
    (hs : Undisturbed s) (hnode : tree.isNode = true) (hq : t.srcQ = separator :: q) :
    step (headerEnd tree t) = .next { t with rdRem := 0, srcQ := q, cur := t.root, fsm := .walk } ∧
      AtRoot tree 0 { t with rdRem := 0, srcQ := q, cur := t.root, fsm := .walk } := by
  have ht : Undisturbed t := hs.of_outsideHeader h.frame
  rw [headerEnd_node hnode]
  exact ⟨step_separator (s := { t with fsm := .sep }) ht rfl hq, ht, rfl, h.root, h.root,
    holdsTree_congr (s := t) tree 0 rfl rfl (holdsTree_of_preorder tree 0 h.holds), hnode⟩

/-- Settles O29: DEC_START and the header, the separator, the message's codes, and EOS's code. -/
theorem decodesStream : Obligations.DecodesStream := by
  intro s tree separator message stream extra body e hlegal hnode hsymbols hroom hsched hbusy hpend hword hcnt hcodes
    hcode hstream hsource
  rw [streamOf_eq hcodes hcode hstream, List.append_assoc] at hsource
  obtain ⟨a, pad, hrunHeader, hstart, ha, hsrc, -⟩ :=
    run_startDecode hlegal hsymbols hroom hsched hbusy hpend hword hsource
  have kept {α : Type} (field : State → α) (hfield : ∀ v, field (outsideHeader v) = field v) :
      field a = field (retire (startDecode s)) := eq_of_outsideHeader ha.frame field hfield
  have hcfg : a.cfg = s.cfg := kept State.cfg fun _ => rfl
  obtain ⟨hsep, hroot⟩ := ha.step_sep hstart.undisturbed hnode hsrc
  obtain ⟨z, hz, hpacked⟩ := flatMap_byteBits_packBits s.cfg.bitOrder (body ++ e ++ e)
  have hpayload : unreadBits { a with
      rdRem := 0, srcQ := packBits s.cfg.bitOrder (body ++ e ++ e) ++ extra, cur := a.root, fsm := .walk } =
      body ++ (e ++ (e ++ List.replicate z false ++ extra.flatMap (byteBits s.cfg.bitOrder))) := by
    rw [unreadBits_aligned rfl]
    change List.flatMap (byteBits a.cfg.bitOrder) _ = _
    rw [hcfg, List.flatMap_append, hpacked]
    simp only [List.append_assoc]
  obtain ⟨b, hrunBody, hb, hcnt', hrest, hframe, hsnk, hout⟩ :=
    hroot.run_message message ((kept State.wrCnt fun _ => rfl).trans hcnt) hcodes hpayload
  obtain ⟨u, hrunEos, hdone, hend, hframe', hout', hsnk', -⟩ := hb.run_eos (Tree.symbolAt_code hcode) hrest
  have walked {α : Type} (field : State → α) (hfield : ∀ v, field (outsideWalk v) = field v) :=
    eq_of_outsideWalk (hframe'.trans hframe) field hfield
  have hnodes : u.nodes = a.nodes := walked State.nodes fun _ => rfl
  have hcount : u.nodeCount = a.nodeCount := walked State.nodeCount fun _ => rfl
  have hleaves : u.leafCount = a.leafCount := walked State.leafCount fun _ => rfl
  refine ⟨u, ?_, hdone, ?_, ?_, ?_, ?_, ?_, ?_, ?_, ?_, ?_, ?_, z, hz, hend⟩
  · have hrunSep := (run_add hrunHeader 1).trans ((run_one _).trans hsep)
    have hrunMessage := (run_add hrunSep body.length).trans hrunBody
    rw [run_add hrunMessage, hrunEos]
  · rw [hsnk', hsnk]
    exact congrArg (· ++ message) (kept State.snk fun _ => rfl)
  · rw [hout', hout]
    exact (congrArg (· + BitVec.ofNat 32 message.length) (kept State.outCount fun _ => rfl)).trans (BitVec.zero_add _)
  · rw [hleaves]
    exact ha.leafCount_toNat hstart rfl
  · rw [hcount]
    exact ha.nodeCount_toNat
  · exact holdsTree_congr tree 0 hnodes hcount (holdsTree_of_preorder tree 0 ha.holds)
  · exact (walked State.fcode fun _ => rfl).trans (kept State.fcode fun _ => rfl)
  · exact (walked State.cmdPend fun _ => rfl).trans (kept State.cmdPend fun _ => rfl)
  · exact (walked State.errIllegal fun _ => rfl).trans (kept State.errIllegal fun _ => rfl)
  · exact (walked State.errBusy fun _ => rfl).trans (kept State.errBusy fun _ => rfl)
  · exact (walked State.errOverrun fun _ => rfl).trans (kept State.errOverrun fun _ => rfl)

end Sys2Proof.Machine
end

section
/-! SUPPORT. The command step with the decoded word known, and the words an OPC without an operand has
(`30_encoding.md` R56, R57; `43_control.md` R95). -/

namespace Sys2Proof.Machine

open Sys2Proof

variable {s : State}

theorem commandStep_of_ok {i : Instr} (h : decodeCommand s.cmdWord = .ok i) : commandStep s = exec i s := by
  simp only [commandStep, decode, h]

theorem commandStep_of_error (h : ∃ e, decodeCommand s.cmdWord = .error e) :
    commandStep s = .next { s with errIllegal := true, cmdPend := false } := by
  obtain ⟨e, he⟩ := h
  simp only [commandStep, decode, he]
  rfl

/-- A word of an OPC without an operand, other than the one with the other fields 0, is illegal. -/
theorem decodeCommand_bare_error {opc : Byte} {w : Word} (hbare : opc ∈ bareOpcodes) (hopc : opcOf w = opc)
    (hne : w ≠ commandWord opc 0) : ∃ e, decodeCommand w = .error e := by
  rw [decodeCommand_error_iff]
  by_cases hrsvd : rsvdOf w = 0#16
  · refine .inr ?_
    rw [hopc, decodeOpcode_bare hbare]
    intro hopd
    exact hne (by rw [← commandWord_of_rsvdOf hrsvd, hopc, hopd]; rfl)
  · exact .inl hrsvd

/-- An OPC without an operand has one legal word. -/
theorem encodedOnlyAs_bare {opc : Byte} {i : Instr} (hbare : opc ∈ bareOpcodes)
    (hok : decodeCommand (commandWord opc 0) = .ok i) : encodedOnlyAs opc (commandWord opc 0) i :=
  ⟨fun _ hw => commandStep_of_ok (by rw [hw]; exact hok),
    fun _ hopc hne => commandStep_of_error (decodeCommand_bare_error hbare hopc hne)⟩

/-- A word whose RSVD is not 0 is illegal, whatever its OPC. -/
theorem decodeCommand_rsvd_error {w : Word} (h : rsvdOf w ≠ 0#16) : ∃ e, decodeCommand w = .error e :=
  (decodeCommand_error_iff w).mpr (.inl h)

theorem decodeCommand_wrBit_error {w : Word} (hopc : opcOf w = 0x20#8) (hopd : w.extractLsb' 1 7 ≠ 0#7) :
    ∃ e, decodeCommand w = .error e := by
  rw [decodeCommand_error_iff, hopc, decodeOpcode_wrBit, opdOf_extract]
  exact .inr hopd

theorem decodeCommand_wrByte (v : Byte) : decodeCommand (0x00002100 ||| v.setWidth 32) = .ok (.wrByte v) := by
  have hword : (0x00002100 ||| v.setWidth 32 : Word) = commandWord 0x21 v := rfl
  rw [hword]
  exact decode_encode (.wrByte v) rfl

theorem decodeCommand_wrBit (b : Bool) : decodeCommand (0x00002000 ||| (BitVec.ofBool b).setWidth 32) =
    .ok (.wrBit ((BitVec.ofBool b).setWidth 8)) := by
  cases b <;> rfl

/-! ### The BUSY test -/

/-- A `BUSY_REJECT` command in a decode only sets err_busy (`43_control.md` R95). -/
theorem exec_of_busy {i : Instr} (hi : busyRejected i = true) (hbusy : busy s = true) :
    exec i s = .next { s with errBusy := true, cmdPend := false } := by
  cases i with
  | decStart | rdBit | rdByte | wrBit | wrByte | wrFlush => exact if_pos hbusy
  | nop | decAbort | clrErr | softReset | hdrNode | hdrLeaf | sep | payLeft | payRight => cases hi

theorem unlessBusy_free {k : State → Out} (h : busy s = false) : unlessBusy s k = k s :=
  if_neg (Bool.eq_false_iff.mp h)

end Sys2Proof.Machine
end

section
/-! SUPPORT. The bit-stream I/O commands outside a decode, by what the reader answers and the writer writes
(`40_bitstream_io.md` R71 to R75), and what each can change. -/

namespace Sys2Proof.Machine

open Sys2Proof

variable {s t : State}

/-! ### RD_BIT and RD_BYTE -/

/-- RDATA of a bit (`10_state.md` R31). -/
theorem rdataOf_bit (b : Bool) : rdataOf false false ((BitVec.ofBool b).setWidth 8) = if b then 0x001 else 0x000 := by
  cases b <;> rfl

/-- RDATA of a byte (`10_state.md` R31). -/
theorem rdataOf_byte (v : Byte) : rdataOf true false v = 0x200#10 ||| v.setWidth 10 := rfl

theorem execRdBit_got {b : Bool} (hfree : busy s = false) (h : readBit s = .got b t) :
    execRdBit s = .next { t with rdata := if b then 0x001 else 0x000, rvalid := true, cmdPend := false } := by
  rw [execRdBit, unlessBusy_free hfree, h, ← rdataOf_bit]
  rfl

theorem execRdBit_eof (hfree : busy s = false) (h : readBit s = .eof t) :
    execRdBit s = .next { t with rdata := 0x100, rvalid := true, cmdPend := false } := by
  rw [execRdBit, unlessBusy_free hfree, h]
  rfl

theorem execRdBit_hold (hfree : busy s = false) (h : readBit s = .hold) : execRdBit s = .next s := by
  rw [execRdBit, unlessBusy_free hfree, h]

theorem execRdByte_got {v : Byte} (hfree : busy s = false) (h : getByte s = .got v t) :
    execRdByte s = .next { t with rdata := 0x200#10 ||| v.setWidth 10, rvalid := true, cmdPend := false } := by
  rw [execRdByte, unlessBusy_free hfree, h, ← rdataOf_byte]
  rfl

theorem execRdByte_eof (hfree : busy s = false) (h : getByte s = .eof t) :
    execRdByte s = .next { t with rdata := 0x300, rvalid := true, cmdPend := false } := by
  rw [execRdByte, unlessBusy_free hfree, h]
  rfl

theorem execRdByte_hold (hfree : busy s = false) (h : getByte s = .hold) : execRdByte s = .next s := by
  rw [execRdByte, unlessBusy_free hfree, h]

/-- Settles O14, by what the reader answers in each case of the partial byte and the source. -/
theorem rdBitCommand : Obligations.RdBitCommand := by
  refine ⟨encodedOnlyAs_bare (opc := 0x10) (by decide) rfl, fun s => exec_of_busy rfl, fun s hfree =>
    ⟨fun hrem => ?bitLeft, fun v q hrem hq => ?fetch, fun hrem hq hc => ?atEnd, fun hrem hq hc t h => ?hold⟩⟩
  case bitLeft =>
    refine (execRdBit_got hfree (rdRem_pred hrem ▸ readBit_partial s hrem)).trans ?_
    cases s.cfg.bitOrder <;> rfl
  case fetch =>
    refine (execRdBit_got hfree (readBit_fetch s v q hrem hq)).trans ?_
    cases s.cfg.bitOrder <;> rfl
  case atEnd => exact execRdBit_eof hfree (readBit_end s hrem hq hc)
  case hold => exact (Host.Outcome.next.inj ((execRdBit_hold hfree (readBit_hold s hrem hq hc)).symm.trans h)).symm

/-- Settles O15, by what the reader answers in each case of the source. -/
theorem rdByteCommand : Obligations.RdByteCommand := by
  refine ⟨encodedOnlyAs_bare (opc := 0x11) (by decide) rfl, fun s => exec_of_busy rfl, fun s hfree =>
    ⟨fun v q hq => ?fetch, fun hq hc => ?atEnd, fun hq hc t h => ?hold⟩⟩
  case fetch => exact execRdByte_got hfree (by rw [getByte, srcFetch_cons s v q hq])
  case atEnd => exact execRdByte_eof hfree (by rw [getByte, srcFetch_end s hq hc])
  case hold =>
    have hgot : getByte s = .hold := by rw [getByte, srcFetch_hold s hq hc]
    exact (Host.Outcome.next.inj ((execRdByte_hold hfree hgot).symm.trans h)).symm

/-! ### WR_BIT, WR_BYTE and WR_FLUSH -/

theorem execWrBit_free (hfree : busy s = false) (opd : Byte) :
    execWrBit opd s = .next { writeBit (opd.getLsbD 0) s with cmdPend := false } := unlessBusy_free hfree

theorem execWrByte_free (hfree : busy s = false) (v : Byte) :
    execWrByte v s = .next { putByte v s with cmdPend := false } := unlessBusy_free hfree

theorem execWrFlush_free (hfree : busy s = false) : execWrFlush s = .next { flush s with cmdPend := false } :=
  unlessBusy_free hfree

/-- Settles O16: the accumulator bit by bit, and the sink at the eighth bit. -/
theorem wrBitCommand : Obligations.WrBitCommand := by
  refine ⟨fun s b hw => commandStep_of_ok (hw ▸ decodeCommand_wrBit b), fun s hopc hbad => ?illegal,
    fun s opd => exec_of_busy rfl, fun s opd hfree => ?written⟩
  case illegal =>
    exact commandStep_of_error (hbad.elim (decodeCommand_wrBit_error hopc) decodeCommand_rsvd_error)
  case written =>
    obtain ⟨acc, hbits, hmore, hlast⟩ := writerPrimitives.1 s (opd.getLsbD 0)
    refine ⟨acc, hbits, fun hcnt => (execWrBit_free hfree opd).trans ?_,
      fun hcnt => (execWrBit_free hfree opd).trans ?_⟩
    · rw [hmore (wrCnt_succ s hcnt ▸ (s.wrCnt + 1).isLt)]
    · rw [hlast (congrArg (·.val + 1) hcnt)]

/-- Settles O17: the byte on an aligned writer, and after the padded partial byte. -/
theorem wrByteCommand : Obligations.WrByteCommand := by
  refine ⟨fun s v hw => commandStep_of_ok (hw ▸ decodeCommand_wrByte v),
    fun s _ hrsvd => commandStep_of_error (decodeCommand_rsvd_error hrsvd), fun s v => exec_of_busy rfl,
    fun s v hfree => ⟨fun haligned => ?aligned, fun hpending => ?pending⟩⟩
  case aligned => exact (execWrByte_free hfree v).trans (by rw [putByte_aligned v s haligned])
  case pending => exact (execWrByte_free hfree v).trans (by rw [putByte_pending v s hpending])

/-- Settles O18: nothing on an aligned writer, and the padded partial byte. -/
theorem wrFlushCommand : Obligations.WrFlushCommand := by
  refine ⟨encodedOnlyAs_bare (opc := 0x22) (by decide) rfl, fun s => exec_of_busy rfl,
    fun s hfree => ⟨fun haligned => ?aligned, fun hpending => ?pending⟩⟩
  case aligned => exact (execWrFlush_free hfree).trans (by rw [flush_empty s haligned])
  case pending => exact (execWrFlush_free hfree).trans (by rw [flush_pending s hpending])

/-! ### Frames -/

/-- The elements RD_BIT can write. -/
def RdBitFrame (s t : State) : Prop :=
  t = { s with
    rdata := t.rdata, rvalid := t.rvalid, rdByte := t.rdByte, rdRem := t.rdRem, srcQ := t.srcQ, cmdPend := t.cmdPend,
    errBusy := t.errBusy }

/-- The elements RD_BYTE can write. -/
def RdByteFrame (s t : State) : Prop :=
  t = { s with
    rdata := t.rdata, rvalid := t.rvalid, rdRem := t.rdRem, srcQ := t.srcQ, cmdPend := t.cmdPend,
    errBusy := t.errBusy }

/-- The elements a WR command can write: the sink only grows, and node memory is not written. -/
def WriterFrame (s t : State) : Prop :=
  t = { s with wrAcc := t.wrAcc, wrCnt := t.wrCnt, snk := t.snk, cmdPend := false, errBusy := t.errBusy } ∧
  (∀ i, i < s.snk.length → t.snk[i]? = s.snk[i]?) ∧ ∀ i, nodeRead t i = nodeRead s i

theorem execRdBit_frame (s : State) : Yields (RdBitFrame s) (execRdBit s) := by
  refine yields_unlessBusy rfl fun _ => ?_
  obtain hg | hg | ⟨b, v, r, q, hg, -⟩ := readBit_answers s
  · rw [hg]; exact (yields_next ..).mpr rfl
  · rw [hg]; exact (yields_next ..).mpr rfl
  · rw [hg]; exact (yields_next ..).mpr rfl

theorem execRdByte_frame (s : State) : Yields (RdByteFrame s) (execRdByte s) := by
  refine yields_unlessBusy rfl fun _ => ?_
  obtain ⟨-, -, hg⟩ | ⟨-, -, hg⟩ | ⟨v, q, -, hg⟩ := getByte_cases s
  · rw [hg]; exact (yields_next ..).mpr rfl
  · rw [hg]; exact (yields_next ..).mpr rfl
  · rw [hg]; exact (yields_next ..).mpr rfl

/-- Bytes appended to the sink leave those already in it. -/
theorem writerFrame_append (s : State) (acc : Byte) (n : Fin 8) (bs : List Byte) :
    WriterFrame s { s with wrAcc := acc, wrCnt := n, snk := s.snk ++ bs, cmdPend := false } :=
  ⟨rfl, fun _ hi => List.getElem?_append_left hi, fun _ => rfl⟩

/-- Nothing is emitted. -/
theorem writerFrame_silent (s : State) (acc : Byte) (n : Fin 8) (rejected : Bool) :
    WriterFrame s { s with wrAcc := acc, wrCnt := n, cmdPend := false, errBusy := rejected } :=
  ⟨rfl, fun _ _ => rfl, fun _ => rfl⟩

theorem execWrBit_frame (opd : Byte) (s : State) : Yields (WriterFrame s) (execWrBit opd s) := by
  refine yields_unlessBusy (writerFrame_silent s s.wrAcc s.wrCnt true) fun _ => (yields_next ..).mpr ?_
  by_cases h : s.wrCnt = 7
  · rw [writeBit_last _ s h]; exact writerFrame_append s 0 0 [_]
  · rw [writeBit_more _ s h]; exact writerFrame_silent s _ _ s.errBusy

theorem execWrByte_frame (v : Byte) (s : State) : Yields (WriterFrame s) (execWrByte v s) := by
  refine yields_unlessBusy (writerFrame_silent s s.wrAcc s.wrCnt true) fun _ => (yields_next ..).mpr ?_
  rw [putByte_eq]
  exact writerFrame_append s _ 0 _

theorem execWrFlush_frame (s : State) : Yields (WriterFrame s) (execWrFlush s) := by
  refine yields_unlessBusy (writerFrame_silent s s.wrAcc s.wrCnt true) fun _ => (yields_next ..).mpr ?_
  by_cases h : s.wrCnt = 0
  · rw [flush_empty s h]; exact writerFrame_silent s s.wrAcc s.wrCnt s.errBusy
  · rw [flush_pending s h]; exact writerFrame_append s 0 0 [_]

/-- Settles O57, from the frame of each command. -/
theorem bitIoFrame : Obligations.BitIoFrame := by
  refine fun s t => ⟨execRdBit_frame s t, execRdByte_frame s t, fun opd h => ?_⟩
  obtain hbit | hbyte | hflush := h
  · exact execWrBit_frame opd s t hbit
  · exact execWrByte_frame opd s t hbyte
  · exact execWrFlush_frame s t hflush

end Sys2Proof.Machine
end

section
/-! SUPPORT. The header tokens case by case (`41_tree_deserializer.md` R77 to R82): the step that reads their bit, the
linking of the new node, and where a completed leaf takes the decode. -/

namespace Sys2Proof.Machine

open Sys2Proof

variable {s t : State}

/-! ### The step that reads a bit (`20_memory.md` R44, `43_control.md` R95) -/

theorem blockStep_bit {phase : BitPhase} (hempty : s.cmdPend = false) (hf : s.fsm = phaseFsm phase) :
    blockStep s = bitStep phase s := by
  rw [blockStep, hempty, ← fsmStep_bit phase hf]
  rfl

theorem bitStep_got {phase : BitPhase} {b : Bool} (h : readBit s = .got b t) :
    bitStep phase s = exec (decodeBit phase b) t := by rw [bitStep, h]

/-- The end of the source is a fault in the state that needed the bit (`60_exceptions.md` R103, R104). -/
theorem bitStep_end {phase : BitPhase} (hf : s.fsm = phaseFsm phase) (h : readBit s = .eof s) :
    bitStep phase s = .next { s with fstate := phaseFsm phase, fcode := endFault phase, fsm := .fault } := by
  rw [bitStep, h, ← hf]
  rfl

/-- The step of a state that reads a bit: a hold on an empty open source, the fault of END on an empty closed one, and
otherwise the token the bit is. -/
theorem blockStep_bit_cases {phase : BitPhase} (hempty : s.cmdPend = false) (hf : s.fsm = phaseFsm phase) :
    (s.rdRem = 0 → s.srcQ = [] → s.srcClosed = false → ∀ t, blockStep s = .next t → t = s) ∧
    (s.rdRem = 0 → s.srcQ = [] → s.srcClosed = true →
      blockStep s = .next { s with fstate := phaseFsm phase, fcode := endFault phase, fsm := .fault }) ∧
    (∀ b t, readBit s = .got b t → blockStep s = exec (decodeBit phase b) t) := by
  rw [blockStep_bit hempty hf]
  refine ⟨fun hr hq hc t ht => ?_, fun hr hq hc => bitStep_end hf (readBit_end s hr hq hc), fun _ _ h => bitStep_got h⟩
  rw [bitStep_hold phase s (readBit_hold s hr hq hc)] at ht
  exact (Host.Outcome.next.inj ht).symm

/-! ### Linking the allocated node (`41_tree_deserializer.md` R77, R78) -/

/-- With a root, the new node becomes the left child of the node on top of the stack. `u` is the state after the
allocation. -/
theorem attaches_left_of_agree {u : State} {r top : Nat} {below : List Nat} {p : Node}
    (h : TreeAgree s.nodeCount.toNat s u) (hr : s.root = some r) (hs : s.stack = top :: below)
    (hp : nodeRead s top = some p) (hl : p.left = none) :
    Attaches s.nodeCount.toNat u (nodeWrite u top { p with left := some s.nodeCount.toNat }) :=
  have htop := lt_of_nodeRead s top p hp
  .left (by simp [h.root, hr]) (h.stack.trans hs) htop ((h.read top htop).trans hp) hl

/-- It becomes the right child, with the parent popped, when there is a left child already. -/
theorem attaches_right_of_agree {u : State} {r top : Nat} {below : List Nat} {p : Node}
    (h : TreeAgree s.nodeCount.toNat s u) (hr : s.root = some r) (hs : s.stack = top :: below)
    (hp : nodeRead s top = some p) (hl : p.left ≠ none) :
    Attaches s.nodeCount.toNat u
      { nodeWrite u top { p with right := some s.nodeCount.toNat } with stack := below } :=
  have htop := lt_of_nodeRead s top p hp
  .right (by simp [h.root, hr]) (h.stack.trans hs) htop ((h.read top htop).trans hp) hl

/-! ### HDR_BIT -/

theorem execHdrNode_full (h : s.nodeCount.toNat = s.cfg.nodeCap) :
    execHdrNode s = .next (raiseFault .treeOverflow s) := allocNode_full _ _ _ _ h

/-- Settles O20: the step by what the bit read answers, and a NODE by how it is attached. -/
theorem hdrBitStep : Obligations.HdrBitStep := by
  refine ⟨fun s hempty hf => ?_, fun _ => rfl, fun s => execHdrNode_full, fun s hlegal hroom => ?_⟩
  · obtain ⟨hold, ended, token⟩ := blockStep_bit_cases (phase := .hdrBit) hempty hf
    exact ⟨hold, ended, token true, token false⟩
  · obtain ⟨hagree, -⟩ := treeAgree_allocated .internal nas (nodeCount_lt_of_room hlegal hroom)
      (t := allocated .internal nas s)
    refine ⟨fun hr => execHdrNode_of_attaches hroom (.root hr), fun r top below p hr hs hp hl => ?_,
      fun r top below p hr hs hp hl => execHdrNode_of_attaches hroom (attaches_right_of_agree hagree hr hs hp hl)⟩
    rw [← hs]
    exact execHdrNode_of_attaches hroom (attaches_left_of_agree hagree hr hs hp hl)

/-! ### HDR_SYM -/

/-- The accumulator with one more field bit, as a number (`41_tree_deserializer.md` R80). -/
theorem withFieldBit_eq (b : Bool) {v : Sym} (hbits : s.cfg.symBits ≤ 15)
    (hv : v.toNat = (2 * s.symAcc.toNat + b.toNat) % 2 ^ s.cfg.symBits) :
    withFieldBit b s = { s with symAcc := v, symCnt := s.symCnt + 1 } := by
  rw [withFieldBit, BitVec.eq_of_toNat_eq ((shiftSymbol_toNat hbits s.symAcc b).trans hv.symm)]

/-- A value cut to `SYM_BITS` bits fits the 15 bits that hold it. -/
theorem fieldBit_toNat (b : Bool) (hbits : s.cfg.symBits ≤ 15) :
    (BitVec.ofNat 15 ((2 * s.symAcc.toNat + b.toNat) % 2 ^ s.cfg.symBits)).toNat =
      (2 * s.symAcc.toNat + b.toNat) % 2 ^ s.cfg.symBits := by
  rw [← shiftSymbol_toNat hbits, BitVec.ofNat_toNat, BitVec.setWidth_eq]

/-- A bit that does not make the count `SYM_BITS` is only shifted in; unlike in `symbolBit_more`, the count may also
be past it, and wrap at 16. -/
theorem symbolBit_of_ne (b : Bool) (hbits : s.cfg.symBits ≤ 15) (hpos : 0 < s.cfg.symBits)
    (h : s.symCnt.val + 1 ≠ s.cfg.symBits) : symbolBit b s = .next (withFieldBit b s) := by
  refine if_neg fun e => ?_
  have hcount : (s.symCnt + 1).val = s.cfg.symBits := e
  rw [Fin.val_add] at hcount
  omega

/-- Settles O21: the step by what the bit read answers, and a field bit by the count it reaches. -/
theorem hdrSymStep : Obligations.HdrSymStep := by
  refine ⟨fun s hempty hf => blockStep_bit_cases (phase := .hdrSym) hempty hf, fun s b hlegal => ?_⟩
  obtain ⟨hpos, hbits, -⟩ := hlegal
  rw [← withFieldBit_eq b hbits (fieldBit_toNat b hbits)]
  exact ⟨symbolBit_of_ne b hbits (by omega), symbolBit_last b hbits⟩

/-! ### The completed leaf (`41_tree_deserializer.md` R81, R82) -/

theorem completeLeaf_full (hsym : s.symAcc ≤ eosSym) (h : s.nodeCount.toNat = s.cfg.nodeCap) :
    completeLeaf s = .next (raiseFault .treeOverflow s) := by
  rw [completeLeaf, if_neg (BitVec.not_lt.mpr hsym), allocNode_full _ _ _ _ h]

/-- A rewritten entry of the same kind changes no kind. -/
theorem kindAt_nodeWrite {top : Nat} {p q : Node} (hp : nodeRead s top = some p) (hk : q.kind = p.kind) (i : Nat) :
    kindAt (nodeWrite s top q) i = kindAt s i := by
  rw [kindAt, nodeRead_nodeWrite hp, kindAt]
  split
  · rename_i hi
    rw [hi, hp, Option.map_some, Option.map_some, hk]
  · rfl

theorem kindAt_of_agree {u : State} {i : Nat} {k : NodeKind} (h : TreeAgree s.nodeCount.toNat s u)
    (hk : kindAt s i = some k) : kindAt u i = some k := by
  obtain ⟨nd, hnd, -⟩ := Option.map_eq_some_iff.mp hk
  rw [kindAt, h.read i (lt_of_nodeRead s i nd hnd)]
  exact hk

/-- The header of a tree with an internal root ends before the separator. -/
theorem closeLeaf_internal {r : Nat} (hs : s.stack = []) (hr : s.root = some r) (hk : kindAt s r = some .internal) :
    closeLeaf s = .next { s with fsm := .sep } := by
  obtain ⟨n, hn, hkind⟩ := Option.map_eq_some_iff.mp hk
  simp [closeLeaf, hs, headerComplete, withIndex, withNode, hr, hn, hkind]

/-- The header of a tree that is one leaf ends the decode: in DONE for EOS, in DEGENERATE_TREE otherwise. -/
theorem closeLeaf_rootLeaf {r : Nat} {sym : Sym} (hs : s.stack = []) (hr : s.root = some r)
    (hn : nodeRead s r = some ⟨.leaf, sym, none, none⟩) :
    closeLeaf s = .next (if sym = eosSym then { s with fsm := .done } else raiseFault .degenerateTree s) := by
  simp only [closeLeaf, hs, headerComplete, withIndex, withNode, hr, hn, if_true]
  split <;> rfl

/-- The state in which the leaf of a completed field `v` is linked. -/
def leafAllocated (v : Sym) (s : State) : State :=
  { allocated .leaf v s with symAcc := v, symCnt := s.symCnt + 1, leafCount := s.leafCount + 1 }

/-- Settles O22: the completed field against 256, the capacity, and the way the leaf is attached. -/
theorem leafCompletion : Obligations.LeafCompletion := by
  intro s b v hlegal hlast hv
  have ⟨_, hbits, _⟩ := hlegal
  have hexec : exec (.hdrLeaf (.field b)) s = completeLeaf { s with symAcc := v, symCnt := s.symCnt + 1 } := by
    rw [← withFieldBit_eq b hbits hv]
    exact symbolBit_last b hbits hlast
  rw [hexec]
  refine ⟨fun habove => completeLeaf_bad habove, fun hle hfull => completeLeaf_full hle hfull, fun hle hroom => ?_⟩
  have h65 := nodeCount_lt_of_room hlegal hroom
  obtain ⟨hagree, hnew⟩ := treeAgree_allocated .leaf v h65 (t := leafAllocated v s)
  have hlinked : ∀ {s'}, Attaches s.nodeCount.toNat (leafAllocated v s) s' →
      completeLeaf { s with symAcc := v, symCnt := s.symCnt + 1 } = closeLeaf s' :=
    completeLeaf_of_attaches (s := { s with symAcc := v, symCnt := s.symCnt + 1 }) hle hroom
  have hclose (hs : s.stack = []) :=
    closeLeaf_rootLeaf (s := { leafAllocated v s with root := some s.nodeCount.toNat }) hs rfl hnew
  refine ⟨fun hr hs heos => ?_, fun hr hs hbyte => ?_, fun r top below p hr hs hp => ⟨fun hl => ?_,
    fun hl hbelow => ?_, fun hl hbelow hk => ?_⟩⟩
  · rw [hlinked (.root hr), hclose hs, if_pos (BitVec.eq_of_toNat_eq heos)]
    rfl
  · rw [hlinked (.root hr), hclose hs, if_neg fun e => hbyte.ne (congrArg BitVec.toNat e)]
    rfl
  · rw [hlinked (attaches_left_of_agree hagree hr hs hp hl)]
    exact closeLeaf_open (by simp [hagree.stack, hs])
  · rw [hlinked (attaches_right_of_agree hagree hr hs hp hl)]
    exact closeLeaf_open hbelow
  · subst hbelow
    rw [hlinked (attaches_right_of_agree hagree hr hs hp hl)]
    refine closeLeaf_internal rfl hr ?_
    have hp' := (hagree.read top (lt_of_nodeRead s top p hp)).trans hp
    exact (kindAt_nodeWrite (q := { p with right := some s.nodeCount.toNat }) hp' rfl r).trans
      (kindAt_of_agree hagree hk)

end Sys2Proof.Machine
end

section
/-! SUPPORT. What a header token can lead to (`41_tree_deserializer.md` R77 to R82): one rule per shared operation, for
the entries of node memory it leaves alone and for the states in which a header ends. -/

namespace Sys2Proof.Machine

open Sys2Proof

variable {P : State → Prop} {s : State}

/-- Of node memory, only the entry a header token allocates and its parent, on top of the stack, can read otherwise. -/
def EntriesKept (s : State) (mem : NodeMem) : Prop :=
  ∀ i, i ≠ s.nodeCount.toNat → s.stack.head? ≠ some i → NodeMem.read mem i = NodeMem.read s.nodes i

/-- `yields_attach` with node memory known: only the entry on top of the stack is written. -/
theorem yields_attach_read {n : Nat} {k : State → Out}
    (h : ∀ mem rt st, (∀ i, s.stack.head? ≠ some i → NodeMem.read mem i = NodeMem.read s.nodes i) →
      Yields P (k { s with nodes := mem, root := rt, stack := st })) : Yields P (attach n s k) := by
  unfold attach
  split
  · exact h s.nodes _ s.stack fun _ _ => rfl
  · exact yields_fault P _
  · rename_i top below _ hs
    have hother : ∀ (q : Node) i, s.stack.head? ≠ some i →
        NodeMem.read (NodeMem.write s.nodes top q) i = NodeMem.read s.nodes i := fun q i hi =>
      NodeMem.read_write_other _ _ _ _ fun e => hi (by rw [hs, e]; rfl)
    refine yields_withNode fun p _ => ?_
    split
    · exact h _ s.root s.stack (hother _)
    · exact h _ s.root below (hother _)

/-- A memory that differs from the one after the allocation only at the parent. -/
theorem EntriesKept.of_allocated {kind : NodeKind} {sym : Sym} {mem : NodeMem}
    (h : ∀ i, s.stack.head? ≠ some i → NodeMem.read mem i = NodeMem.read (allocated kind sym s).nodes i) :
    EntriesKept s mem :=
  fun i hi hs => (h i hs).trans (NodeMem.read_write_other _ _ _ _ hi)

theorem EntriesKept.refl (s : State) : EntriesKept s s.nodes := fun _ _ _ => rfl

/-- A NODE raises TREE_OVERFLOW or is linked (`41_tree_deserializer.md` R79). -/
theorem yields_execHdrNode (full : P (raiseFault .treeOverflow s))
    (linked : ∀ mem rt st, EntriesKept s mem →
      P { s with nodes := mem, nodeCount := s.nodeCount + 1, root := rt, stack := st }) :
    Yields P (execHdrNode s) :=
  yields_allocNode full fun _ => yields_attach_read fun mem rt _ hmem =>
    (yields_next ..).mpr (linked mem rt _ (.of_allocated hmem))

/-- A completed leaf leaves the header open, or ends it by what the root is (`41_tree_deserializer.md` R81, R82). -/
theorem yields_closeLeaf (stillOpen : P { s with fsm := .hdrBit })
    (eos : ∀ r n, s.root = some r → nodeRead s r = some n → n.kind = .leaf → n.sym = eosSym →
      P { s with fsm := .done })
    (degenerate : P (raiseFault .degenerateTree s)) (sep : P { s with fsm := .sep }) : Yields P (closeLeaf s) := by
  unfold closeLeaf
  split
  · refine yields_withIndex fun r hr => yields_withNode fun n hn => ?_
    split
    · split
      · exact (yields_next ..).mpr (eos r n hr hn ‹_› ‹_›)
      · exact (yields_next ..).mpr degenerate
    · exact (yields_next ..).mpr sep
  · exact (yields_next ..).mpr stillOpen

/-- A completed field raises BAD_SYMBOL or TREE_OVERFLOW, or its leaf is linked (`41_tree_deserializer.md` R81). -/
theorem yields_completeLeaf (bad : P (raiseFault .badSymbol s)) (full : P (raiseFault .treeOverflow s))
    (linked : ∀ mem rt st, EntriesKept s mem → Yields P (closeLeaf { s with
      nodes := mem, nodeCount := s.nodeCount + 1, root := rt, stack := st, leafCount := s.leafCount + 1 })) :
    Yields P (completeLeaf s) := by
  unfold completeLeaf
  split
  · exact (yields_next ..).mpr bad
  · exact yields_allocNode full fun _ => yields_attach_read fun mem rt st hmem =>
      linked mem rt st (.of_allocated hmem)

/-- A field bit is shifted in, and the last one completes the leaf (`41_tree_deserializer.md` R80). -/
theorem yields_symbolBit {b : Bool} (more : P (withFieldBit b s)) (last : Yields P (completeLeaf (withFieldBit b s))) :
    Yields P (symbolBit b s) := by
  simp only [symbolBit]
  split
  · exact last
  · exact (yields_next ..).mpr more

/-! ### Frames -/

/-- What HDR.NODE can change (`41_tree_deserializer.md` R79, "State written"). -/
def NodeFrame (s t : State) : Prop :=
  t = { s with
    nodes := t.nodes, nodeCount := t.nodeCount, root := t.root, stack := t.stack, fsm := t.fsm, fcode := t.fcode,
    fstate := t.fstate } ∧
  EntriesKept s t.nodes

/-- What a field bit of HDR.LEAF can change (`41_tree_deserializer.md` R80 to R82, "State written"). -/
def FieldFrame (s t : State) : Prop :=
  t = { s with
    symAcc := t.symAcc, symCnt := t.symCnt, nodes := t.nodes, nodeCount := t.nodeCount, root := t.root,
    stack := t.stack, leafCount := t.leafCount, fsm := t.fsm, fcode := t.fcode, fstate := t.fstate } ∧
  EntriesKept s t.nodes

theorem execHdrNode_frame (s : State) : Yields (NodeFrame s) (execHdrNode s) :=
  yields_execHdrNode ⟨rfl, .refl s⟩ fun _ _ _ hmem => ⟨rfl, hmem⟩

theorem symbolBit_frame (b : Bool) (s : State) : Yields (FieldFrame s) (symbolBit b s) :=
  yields_symbolBit ⟨rfl, .refl s⟩ <| yields_completeLeaf ⟨rfl, .refl s⟩ ⟨rfl, .refl s⟩ fun _ _ _ hmem =>
    yields_closeLeaf ⟨rfl, hmem⟩ (fun _ _ _ _ _ _ => ⟨rfl, hmem⟩) ⟨rfl, hmem⟩ ⟨rfl, hmem⟩

/-- Settles O59, from the frame of each token. -/
theorem headerFrame : Obligations.HeaderFrame := by
  refine ⟨execHdrNode_frame, fun s t ht => ?_, fun s t b => symbolBit_frame b s t⟩
  obtain rfl : ({ s with symAcc := 0, symCnt := 0, fsm := .hdrSym } : State) = t := Host.Outcome.next.inj ht
  rfl

end Sys2Proof.Machine
end

section
/-! SUPPORT. How DONE is entered (`41_tree_deserializer.md` R82, `42_tree_walker.md` R88): by no command, and by a token
only at an EOS leaf. -/

namespace Sys2Proof.Machine

open Sys2Proof

variable {s : State}

/-- A decode ends at the EOS leaf `leaf t`, and its last step emits nothing. -/
def EndsAtEos (leaf : State → Option Nat) (s t : State) : Prop :=
  t.snk = s.snk ∧ t.outCount = s.outCount ∧
    ∃ c, leaf t = some c ∧ kindAt t c = some .leaf ∧ symAt t c = some eosSym

/-- A block step ends the decode: at the walker's node, or at the root of a tree that is one leaf. -/
def FinishesDecode (s t : State) : Prop :=
  s.cmdPend = false ∧
    ((s.fsm = .walk ∧ EndsAtEos State.cur s t) ∨ (s.fsm = .hdrSym ∧ EndsAtEos State.root s t))

/-! ### The commands enter no DONE -/

theorem flush_fsm (s : State) : (flush s).fsm = s.fsm := by
  by_cases h : s.wrCnt = 0
  · rw [flush_empty s h]
  · rw [flush_pending s h]

theorem putByte_fsm (v : Byte) (s : State) : (putByte v s).fsm = s.fsm := flush_fsm s

theorem writeBit_fsm (b : Bool) (s : State) : (writeBit b s).fsm = s.fsm := by
  by_cases h : s.wrCnt = 7
  · rw [writeBit_last b s h]
  · rw [writeBit_more b s h]

theorem commandStep_done (s : State) : Yields (fun t => t.fsm = .done → s.fsm = .done) (commandStep s) := by
  refine yields_commandStep (illegal := id) ?nop ?decStart ?decAbort ?rdBit ?rdByte ?wrBit ?wrByte ?wrFlush ?clrErr
    ?softReset
  case nop | clrErr => exact (yields_next ..).mpr id
  case softReset => exact (yields_next ..).mpr fun h => nomatch h
  case decStart => exact yields_unlessBusy id fun _ => (yields_next ..).mpr fun h => nomatch h
  case decAbort =>
    rw [execDecAbort, yields_next]
    split
    · exact fun h => nomatch h
    · exact id
  case rdBit =>
    refine yields_unlessBusy id fun _ => ?_
    obtain hg | hg | ⟨b, v, r, q, hg, -⟩ := readBit_answers s <;> rw [hg] <;> exact (yields_next ..).mpr id
  case rdByte =>
    refine yields_unlessBusy id fun _ => ?_
    obtain ⟨-, -, hg⟩ | ⟨-, -, hg⟩ | ⟨v, q, -, hg⟩ := getByte_cases s <;> rw [hg] <;> exact (yields_next ..).mpr id
  case wrBit =>
    exact fun opd => yields_unlessBusy id fun _ =>
      (yields_next ..).mpr ((writeBit_fsm (operandBit opd) s).symm.trans)
  case wrByte =>
    exact fun opd => yields_unlessBusy id fun _ =>
      (yields_next ..).mpr ((putByte_fsm (operandByte opd) s).symm.trans)
  case wrFlush => exact yields_unlessBusy id fun _ => (yields_next ..).mpr ((flush_fsm s).symm.trans)

/-! ### The tokens -/

theorem execHdrNode_done (hf : s.fsm ≠ .done) : Yields (fun t => t.fsm ≠ .done) (execHdrNode s) :=
  yields_execHdrNode (fun h => nomatch h) fun _ _ _ _ => hf

/-- In the header the EOS leaf is the root. -/
theorem symbolBit_done (b : Bool) (hf : s.fsm ≠ .done) :
    Yields (fun t => t.fsm = .done → EndsAtEos State.root s t) (symbolBit b s) :=
  yields_symbolBit (fun h => absurd h hf) <| yields_completeLeaf (fun h => nomatch h) (fun h => nomatch h)
    fun _ _ _ _ => yields_closeLeaf (stillOpen := fun h => nomatch h) (degenerate := fun h => nomatch h)
      (sep := fun h => nomatch h) (eos := fun r _ hr hn hk hsym _ =>
        ⟨rfl, rfl, r, hr, (kindAt_of_nodeRead hn).trans (congrArg some hk),
          (symAt_of_nodeRead hn).trans (congrArg some hsym)⟩)

/-- In the walk the EOS leaf is the node the walker arrives at. -/
theorem arriveAt_done (c : Nat) (hf : s.fsm ≠ .done) :
    Yields (fun t => t.fsm = .done → EndsAtEos State.cur s t) (arriveAt c s) := by
  refine yields_withNode fun n hn => ?_
  split
  · exact (yields_next ..).mpr fun h => absurd h hf
  · rename_i hk
    split
    · rename_i hsym
      exact (yields_next ..).mpr fun _ => ⟨rfl, rfl, c, rfl,
        (kindAt_of_nodeRead hn).trans (congrArg some (NodeKind.eq_leaf_of_ne hk)),
        (symAt_of_nodeRead hn).trans (congrArg some hsym)⟩
    · exact (yields_next ..).mpr fun h => absurd ((putByte_fsm (symbolByte n.sym) s).symm.trans h) hf

theorem descend_done (right : Bool) (hf : s.fsm ≠ .done) :
    Yields (fun t => t.fsm = .done → EndsAtEos State.cur s t) (descend right s) :=
  yields_withIndex fun _ _ => yields_withNode fun _ _ => yields_withIndex fun c _ => arriveAt_done c hf

/-! ### The step -/

theorem hdrBitStep_done (hf : s.fsm ≠ .done) : Yields (fun t => t.fsm ≠ .done) (bitStep .hdrBit s) :=
  yields_bitStep (hold := hf) (ended := fun h => nomatch h) fun b _ _ _ _ => by
    cases b with
    | false => exact execHdrNode_done hf
    | true => exact (yields_next ..).mpr fun h => nomatch h

theorem hdrSymStep_done (hf : s.fsm ≠ .done) :
    Yields (fun t => t.fsm = .done → EndsAtEos State.root s t) (bitStep .hdrSym s) :=
  yields_bitStep (hold := fun h => absurd h hf) (ended := fun h => nomatch h) fun b _ _ _ _ =>
    symbolBit_done b hf

theorem walkStep_done (hf : s.fsm ≠ .done) :
    Yields (fun t => t.fsm = .done → EndsAtEos State.cur s t) (bitStep .walk s) :=
  yields_bitStep (hold := fun h => absurd h hf) (ended := fun h => nomatch h) fun b _ _ _ _ => by
    cases b with
    | false => exact descend_done false hf
    | true => exact descend_done true hf

theorem blockStep_done (s : State) :
    Yields (fun t => t.fsm = .done → s.fsm = .done ∨ FinishesDecode s t) (blockStep s) := by
  refine blockStep_of_latch ?command ?idle ?hdrBit ?hdrSym ?sep ?walk
  case command => exact fun _ => (commandStep_done s).mono fun _ h hdone => .inl (h hdone)
  case idle => exact (yields_next ..).mpr .inl
  case hdrBit => exact fun _ hf => (hdrBitStep_done (by simp [hf])).mono fun _ h hdone => absurd hdone h
  case hdrSym =>
    exact fun hempty hf => (hdrSymStep_done (by simp [hf])).mono fun _ h hdone => .inr ⟨hempty, .inr ⟨hf, h hdone⟩⟩
  case sep =>
    exact fun _ _ => yields_sepStep (hold := .inl) (ended := fun h => nomatch h) fun _ _ _ =>
      (yields_next ..).mpr fun h => nomatch h
  case walk =>
    exact fun hempty hf => (walkStep_done (by simp [hf])).mono fun _ h hdone => .inr ⟨hempty, .inl ⟨hf, h hdone⟩⟩

theorem step_done (s : State) :
    Yields (fun t => t.fsm = .done → s.fsm = .done ∨ (blockTurn s = true ∧ FinishesDecode s t)) (step s) :=
  yields_step_of_turn
    (block := fun hturn _ => (blockStep_done _).mono fun _ h hdone => (h hdone).imp_right fun hend => ⟨hturn, hend⟩)
    (sched := fun _ _ h => h) (rst := fun _ _ h => nomatch h) (host := fun _ _ _ _ _ _ _ _ _ => .inl)

/-- Settles O36, from what each kind of step can do to `fsm`. -/
theorem doneOnlyAtEos : Obligations.DoneOnlyAtEos := by
  intro s t h hf hdone
  obtain ⟨hturn, hempty, ⟨hwalk, hsnk, hcount, heos⟩ | ⟨hsym, hsnk, hcount, heos⟩⟩ :=
    (step_done s t h hdone).resolve_left hf
  · exact ⟨hturn, hempty, hsnk, hcount, .inl ⟨hwalk, heos⟩⟩
  · exact ⟨hturn, hempty, hsnk, hcount, .inr ⟨hsym, heos⟩⟩

end Sys2Proof.Machine
end

section
/-! SUPPORT. The separator and the payload tokens case by case (`42_tree_walker.md` R85 to R88), and what each can
change. -/

namespace Sys2Proof.Machine

open Sys2Proof

variable {s t : State}

/-! ### SEP -/

theorem blockStep_sep (hempty : s.cmdPend = false) (hf : s.fsm = .sep) : blockStep s = sepStep s := by
  simp only [blockStep, hempty, fsmStep, hf, Bool.false_eq_true, if_false]

/-- Settles O26: the step by what the byte read answers. -/
theorem sepStep_spec : Obligations.SepStep := by
  refine ⟨fun s hempty hf => ?_, fun _ _ => rfl⟩
  rw [blockStep_sep hempty hf]
  refine ⟨fun hq hc t ht => ?hold, fun hq hc => ?atEnd, fun v q hq => ?byte⟩
  case hold =>
    rw [sepStep_hold s (by rw [getByte, srcFetch_hold s hq hc])] at ht
    exact (Host.Outcome.next.inj ht).symm
  case atEnd =>
    have hread : getByte s = .eof { s with rdRem := 0 } := by rw [getByte, srcFetch_end s hq hc]
    rw [sepStep, hread, ← hf]
    rfl
  case byte =>
    have hread : getByte s = .got v { s with rdRem := 0, srcQ := q } := by rw [getByte, srcFetch_cons s v q hq]
    rw [sepStep, hread]
    rfl

/-! ### PAY.LEFT and PAY.RIGHT -/

/-- A payload token is the descent on the bit it is (`30_encoding.md` R67). -/
theorem exec_payload (right : Bool) (s : State) :
    exec (if right then .payRight else .payLeft) s = descend right s := by
  cases right <;> rfl

theorem arriveAt_of_leaf {d : Nat} {m : Node} (h : nodeRead s d = some m) (hk : m.kind = .leaf) :
    arriveAt d s = .next (leafReached m.sym d s) := by
  simp only [arriveAt, withNode, h, hk, reduceCtorEq, if_false, leafReached]
  split <;> rfl

/-- The walker stays in an internal child, and otherwise does what a leaf does (`42_tree_walker.md` R86). -/
theorem yields_arriveAt {P : State → Prop} {d : Nat} (internal : P { s with cur := some d })
    (leaf : ∀ sym, P (leafReached sym d s)) : Yields P (arriveAt d s) := by
  refine yields_withNode fun n _ => ?_
  split
  · exact (yields_next ..).mpr internal
  · rw [← apply_ite Host.Outcome.next]
    exact (yields_next ..).mpr (leaf n.sym)

/-- Settles O27: the step by what the bit read answers, and the descent by the child it arrives at. -/
theorem walkStep : Obligations.WalkStep := by
  refine ⟨fun s hempty hf => ?_, fun s right c d n m hcur hn hd hm => ?_⟩
  · obtain ⟨hold, ended, token⟩ := blockStep_bit_cases (phase := .walk) hempty hf
    exact ⟨hold, ended, token false, token true⟩
  · rw [exec_payload, descend_eq hcur hn hd]
    have hbyte (hk : m.kind = .leaf) (hsym : m.sym ≠ 256) : arriveAt d s = .next (emitLeaf m.sym s) := by
      rw [arriveAt_of_leaf hm hk]
      exact congrArg Host.Outcome.next (if_neg hsym)
    refine ⟨arriveAt_internal hm, fun hk heos => ?_, fun hk hsym haligned => ?_, fun hk hsym hpending => ?_⟩
    · rw [arriveAt_of_leaf hm hk]
      exact congrArg Host.Outcome.next (if_pos heos)
    · rw [hbyte hk hsym, emitLeaf, putByte_aligned _ s haligned]
      rfl
    · rw [hbyte hk hsym, emitLeaf, putByte_pending _ s hpending]
      rfl

/-! ### Frames -/

/-- What a payload token can change (`42_tree_walker.md` R86 to R88, "State written"): the sink only grows, and node
memory is not written. -/
def PayloadFrame (s t : State) : Prop :=
  t = { s with
    cur := t.cur, fsm := t.fsm, snk := t.snk, wrAcc := t.wrAcc, wrCnt := t.wrCnt, outCount := t.outCount } ∧
  (∀ i, i < s.snk.length → t.snk[i]? = s.snk[i]?) ∧ ∀ i, nodeRead t i = nodeRead s i

theorem leafReached_frame (sym : Sym) (d : Nat) (s : State) : PayloadFrame s (leafReached sym d s) := by
  by_cases hsym : sym = eosSym
  · rw [leafReached, if_pos hsym]
    exact ⟨rfl, fun _ _ => rfl, fun _ => rfl⟩
  · rw [leafReached, if_neg hsym, emitLeaf, putByte_eq]
    exact ⟨rfl, fun _ hi => List.getElem?_append_left hi, fun _ => rfl⟩

theorem arriveAt_frame (d : Nat) (s : State) : Yields (PayloadFrame s) (arriveAt d s) :=
  yields_arriveAt ⟨rfl, fun _ _ => rfl, fun _ => rfl⟩ fun sym => leafReached_frame sym d s

theorem descend_frame (right : Bool) (s : State) : Yields (PayloadFrame s) (descend right s) :=
  yields_withIndex fun _ _ => yields_withNode fun _ _ => yields_withIndex fun d _ => arriveAt_frame d s

/-- Settles O60, from the frame of each token. -/
theorem walkFrame : Obligations.WalkFrame := by
  refine ⟨fun s t v ht => ?_, fun s t ht => ht.elim (descend_frame false s t) (descend_frame true s t)⟩
  obtain rfl : ({ s with cur := s.root, fsm := .walk } : State) = t := Host.Outcome.next.inj ht
  rfl

end Sys2Proof.Machine
end

section
/-! SUPPORT. Which commands write `fsm` outside a decode (`43_control.md` R96 to R100). -/

namespace Sys2Proof.Machine

open Sys2Proof

variable {s t : State}

theorem RdBitFrame.fsm (h : RdBitFrame s t) : t.fsm = s.fsm := by rw [RdBitFrame] at h; rw [h]

theorem RdByteFrame.fsm (h : RdByteFrame s t) : t.fsm = s.fsm := by rw [RdByteFrame] at h; rw [h]

theorem WriterFrame.fsm (h : WriterFrame s t) : t.fsm = s.fsm := by rw [h.1]

/-- Outside a decode only DEC_START and SOFT_RESET write `fsm`. -/
theorem commandStep_fsm (hfree : busy s = false) :
    Yields (fun t => t.fsm ≠ s.fsm → decodeCommand s.cmdWord = .ok .decStart ∨ decodeCommand s.cmdWord = .ok .softReset)
      (commandStep s) := by
  have kept {o : Out} (h : Yields (fun t => t.fsm = s.fsm) o) : Yields (fun t => t.fsm ≠ s.fsm →
      decodeCommand s.cmdWord = .ok .decStart ∨ decodeCommand s.cmdWord = .ok .softReset) o :=
    h.mono fun _ hsame hne => absurd hsame hne
  refine commandStep_of_decode ?illegal ?nop ?decStart ?decAbort ?rdBit ?rdByte ?wrBit ?wrByte ?wrFlush ?clrErr
    ?softReset
  case illegal => exact kept ((yields_next ..).mpr rfl)
  case nop | clrErr => exact fun _ => kept ((yields_next ..).mpr rfl)
  case decStart => exact fun hd _ _ _ => .inl hd
  case softReset => exact fun hd _ _ _ => .inr hd
  case decAbort =>
    rw [execDecAbort, hfree]
    exact fun _ => kept ((yields_next ..).mpr rfl)
  case rdBit => exact fun _ => kept ((execRdBit_frame s).mono fun _ => RdBitFrame.fsm)
  case rdByte => exact fun _ => kept ((execRdByte_frame s).mono fun _ => RdByteFrame.fsm)
  case wrBit => exact fun opd _ => kept ((execWrBit_frame opd s).mono fun _ => WriterFrame.fsm)
  case wrByte => exact fun opd _ => kept ((execWrByte_frame opd s).mono fun _ => WriterFrame.fsm)
  case wrFlush => exact fun _ => kept ((execWrFlush_frame s).mono fun _ => WriterFrame.fsm)

/-- IDLE, DONE and FAULT have no FSM step (`42_tree_walker.md` R93, assumption log 7). -/
theorem blockStep_terminal (hf : s.fsm = .idle ∨ s.fsm = .done ∨ s.fsm = .fault) (hempty : s.cmdPend = false) :
    blockStep s = .next s := by
  obtain hf | hf | hf := hf <;> simp only [blockStep, hempty, fsmStep, hf, Bool.false_eq_true, if_false]

theorem blockStep_command (hpend : s.cmdPend = true) : blockStep s = commandStep s := if_pos hpend

/-- From DONE or FAULT a block step goes elsewhere only as a latched DEC_START or SOFT_RESET. -/
theorem blockStep_leaves_terminal (hf : s.fsm = .done ∨ s.fsm = .fault) :
    Yields (fun t => t.fsm ≠ s.fsm → s.cmdPend = true ∧
      (decodeCommand s.cmdWord = .ok .decStart ∨ decodeCommand s.cmdWord = .ok .softReset)) (blockStep s) := by
  obtain hpend | hempty := Bool.eq_false_or_eq_true s.cmdPend
  · have hfree : busy s = false := by obtain hf | hf := hf <;> rw [busy, hf] <;> rfl
    rw [blockStep_command hpend]
    exact (commandStep_fsm hfree).mono fun _ h hne => ⟨hpend, h hne⟩
  · rw [blockStep_terminal (.inr hf) hempty]
    exact (yields_next ..).mpr fun hne => absurd rfl hne

theorem step_leaves_terminal (hf : s.fsm = .done ∨ s.fsm = .fault) :
    Yields (fun t => t.fsm ≠ s.fsm → runsCommand .decStart s ∨ runsCommand .softReset s ∨ resetTurn s = true)
      (step s) := by
  refine yields_step_of_turn ?block (sched := fun _ _ h => h) (rst := fun hreset _ _ => .inr (.inr hreset))
    (host := fun _ _ _ _ _ _ _ _ _ hne => absurd rfl hne)
  case block =>
    refine fun hturn l => (blockStep_leaves_terminal (s := { s with sched := l }) hf).mono fun t h hne => ?_
    obtain ⟨hpend, hstart | hreset⟩ := h hne
    · exact .inl ⟨hturn, hpend, hstart⟩
    · exact .inr (.inl ⟨hturn, hpend, hreset⟩)

/-- Settles O34: no FSM step, and the moves that write `fsm`. -/
theorem terminalStates : Obligations.TerminalStates := by
  refine ⟨fun s t hf hempty ht => ?_, fun s t hf => step_leaves_terminal hf t⟩
  rw [blockStep_terminal hf hempty] at ht
  exact (Host.Outcome.next.inj ht).symm

end Sys2Proof.Machine
end

section
/-! SUPPORT. Runs as reachability: what every step keeps, every run keeps. -/

namespace Sys2Proof.Machine

open Sys2Proof

variable {s t u : State}

/-- What every step keeps, every run keeps. -/
theorem yields_run {P : State → Prop} (hkeep : ∀ s, P s → Yields P (step s)) (k : Nat) (h : P s) :
    Yields P (Sys2Proof.core.run k s) := by
  induction k generalizing s with
  | zero => exact (yields_next P s).mpr h
  | succ k ih =>
    simp only [Host.Core.run]
    split
    · rename_i a ha
      exact ih (hkeep s h a ha)
    · exact yields_fault P _
    · exact yields_refused P _

/-- Some run leads from `s` to `t`. -/
def Reaches (s t : State) : Prop := ∃ k, Sys2Proof.core.run k s = .next t

theorem Reaches.trans (hst : Reaches s t) (htu : Reaches t u) : Reaches s u := by
  obtain ⟨j, hj⟩ := hst
  obtain ⟨k, hk⟩ := htu
  exact ⟨j + k, (run_add hj k).trans hk⟩

theorem Reaches.of_step (h : step s = .next t) : Reaches s t := ⟨1, (run_one s).trans h⟩

theorem Reaches.keeps {P : State → Prop} (h : Reaches s t) (hkeep : ∀ s, P s → Yields P (step s)) (hs : P s) :
    P t := by
  obtain ⟨k, hk⟩ := h
  exact yields_run hkeep k hs t hk

end Sys2Proof.Machine
end

section
/-! SUPPORT. A source that ends inside the payload (`42_tree_walker.md` R89, R91): the walk along a path that is cut
off, and the part of the message emitted before it. -/

namespace Sys2Proof.Machine

open Sys2Proof

variable {s : State} {tree : Tree} {c r : Nat} {sym : Sym}

/-! ### The walk along a path that is cut off -/

/-- A path that starts with bit `b` goes through the child that bit chooses. -/
theorem holdsTree_child {b : Bool} {p : List Bool} (h : holdsTree s c tree) (hp : tree.symbolAt (b :: p) = some sym) :
    ∃ n d child, nodeRead s c = some n ∧ n.kind = .internal ∧ (if b then n.right else n.left) = some d ∧
      holdsTree s d child ∧ child.symbolAt p = some sym := by
  cases tree with
  | leaf x => cases hp
  | node left right =>
    obtain ⟨i, j, hnode, hl, hr⟩ := h
    cases b with
    | false => exact ⟨_, i, left, hnode, rfl, rfl, hl, hp⟩
    | true => exact ⟨_, j, right, hnode, rfl, rfl, hr, hp⟩

/-- The bits of a path that is cut off before its leaf lead to an internal node. -/
theorem run_path_cut (bits : List Bool) {more : List Bool} (h : Undisturbed s) (hf : s.fsm = .walk)
    (hcur : s.cur = some c) (ht : holdsTree s c tree) (hp : tree.symbolAt (bits ++ more) = some sym) (hmore : more ≠ [])
    (hbits : unreadBits s = bits) :
    ∃ v r q e, Sys2Proof.core.run bits.length s = .next { s with rdByte := v, rdRem := r, srcQ := q, cur := e } ∧
      unreadBits { s with rdByte := v, rdRem := r, srcQ := q } = [] := by
  induction bits generalizing s c tree with
  | nil => exact ⟨s.rdByte, s.rdRem, s.srcQ, s.cur, rfl, hbits⟩
  | cons b bits ih =>
    obtain ⟨n, d, child, hn, -, hd, hchild, hp'⟩ := holdsTree_child ht hp
    obtain ⟨b', p', hsplit⟩ := List.exists_cons_of_ne_nil (List.append_ne_nil_of_right_ne_nil bits hmore)
    obtain ⟨m, -, -, hm, hinternal, -⟩ := holdsTree_child (p := p') hchild (by rw [← hsplit]; exact hp')
    obtain ⟨v, r, q, hstep, hrest⟩ := step_walk h hf hcur hn hd hbits
    have hmove : step s = .next { s with rdByte := v, rdRem := r, srcQ := q, cur := some d } :=
      hstep.trans (arriveAt_internal hm hinternal)
    obtain ⟨v', r', q', e, hrun, hend⟩ := ih (s := { s with rdByte := v, rdRem := r, srcQ := q, cur := some d }) h hf
      rfl (holdsTree_congr (s := s) child d rfl rfl hchild) hp' hrest
    exact ⟨v', r', q', e, (run_succ hmove _).trans hrun, hend⟩

/-! ### The message before the end of the source -/

/-- In the walk, with every bit of the source read and a beginning of the message emitted. -/
structure InsideMessage (message : List Byte) (s t : State) : Prop where
  fsm : t.fsm = .walk
  unread : unreadBits t = []
  frame : outsideWalk t = outsideWalk s
  emitted : ∃ emitted rest, message = emitted ++ rest ∧ t.snk = s.snk ++ emitted

/-- Inside the first code nothing is emitted. -/
theorem AtRoot.run_code_cut (h : AtRoot tree r s) (message : List Byte) {bits more : List Bool}
    (hp : tree.symbolAt (bits ++ more) = some sym) (hmore : more ≠ []) (hbits : unreadBits s = bits) :
    ∃ t, Reaches s t ∧ InsideMessage message s t := by
  obtain ⟨v, rem, q, e, hrun, hend⟩ := run_path_cut bits h.undisturbed h.fsm h.cur h.holds hp hmore hbits
  exact ⟨_, ⟨_, hrun⟩, h.fsm, hend, rfl, [], message, rfl, (List.append_nil _).symm⟩

/-- The codes of a message and of EOS, cut off before their end. -/
theorem AtRoot.run_message_cut (message : List Byte) {body e bits more : List Bool} (h : AtRoot tree r s)
    (hcnt : s.wrCnt = 0) (hcodes : tree.codes message = some body) (hcode : tree.code eosSym = some e)
    (hcut : body ++ e = bits ++ more) (hmore : more ≠ []) (hbits : unreadBits s = bits) :
    ∃ t, Reaches s t ∧ InsideMessage message s t := by
  induction message generalizing s body bits with
  | nil =>
    cases hcodes
    obtain rfl : e = bits ++ more := hcut
    exact h.run_code_cut [] (Tree.symbolAt_code hcode) hmore hbits
  | cons b message ih =>
    obtain ⟨p, body', hp, hcodes', rfl⟩ := Tree.codes_cons hcodes
    have hpath := Tree.symbolAt_code hp
    rw [List.append_assoc] at hcut
    obtain ⟨kept, rfl, hcut'⟩ | ⟨more', hmore', rfl⟩ := append_cut hcut
    · obtain ⟨a, hrun, ha, hrest, hframe, -, hcnt', hsnk⟩ := h.run_byte hpath (byteSymbol_ne_eosSym b) hbits
      obtain ⟨t, hreach, ht⟩ := ih ha hcnt' hcodes' hcut' hrest
      obtain ⟨emitted, rest, rfl, hsnk'⟩ := ht.emitted
      refine ⟨t, .trans ⟨_, hrun⟩ hreach, ht.fsm, ht.unread, ht.frame.trans hframe, b :: emitted, rest, rfl, ?_⟩
      rw [hsnk', hsnk, if_pos hcnt, byteSymbol_setWidth, List.append_nil, List.append_assoc]
      rfl
    · exact h.run_code_cut (b :: message) hpath hmore' hbits

end Sys2Proof.Machine
end

section
/-! SUPPORT. Decodes of a truncated stream (`42_tree_walker.md` R91, `90_conflicts.md` C2), by the part of the stream
its bytes end in. -/

namespace Sys2Proof.Machine

open Sys2Proof

variable {s t : State} {tree : Tree} {message : List Byte}

/-! ### The latch stays empty -/

theorem undisturbed_bitToken (h : Undisturbed s) (phase : BitPhase) (b : Bool) :
    Yields Undisturbed (exec (decodeBit phase b) s) := by
  cases phase with
  | hdrBit => cases b with
    | false => exact (execHdrNode_frame s).mono fun _ ⟨ht, _⟩ => by rw [ht]; exact h
    | true => exact (yields_next ..).mpr h
  | hdrSym => exact (symbolBit_frame b s).mono fun _ ⟨ht, _⟩ => by rw [ht]; exact h
  | walk => cases b with
    | false => exact (descend_frame false s).mono fun _ ⟨ht, _⟩ => by rw [ht]; exact h
    | true => exact (descend_frame true s).mono fun _ ⟨ht, _⟩ => by rw [ht]; exact h

/-- No step of a decode that the host leaves alone fills the latch. -/
theorem undisturbed_step (s : State) (h : Undisturbed s) : Yields Undisturbed (step s) := by
  have bit (phase : BitPhase) : Yields Undisturbed (bitStep phase s) :=
    yields_bitStep (hold := h) (ended := h) fun b v r q _ =>
      undisturbed_bitToken (s := { s with rdByte := v, rdRem := r, srcQ := q }) h phase b
  rw [h.step_eq]
  unfold fsmStep
  split
  · exact (yields_next ..).mpr h
  · exact bit .hdrBit
  · exact bit .hdrSym
  · exact yields_sepStep (hold := h) (ended := h) fun _ _ _ => (yields_next ..).mpr h
  · exact bit .walk
  · exact (yields_next ..).mpr h
  · exact (yields_next ..).mpr h

/-! ### The end of the source in each part of the stream -/

/-- A decode ended in a fault of its source, with a beginning of the message emitted behind the bytes `before`. -/
def CutOff (message before : List Byte) (t : State) : Prop :=
  t.fsm = .fault ∧ (t.fcode = .malformedHeader ∨ t.fcode = .truncatedPayload) ∧
    ∃ emitted rest, message = emitted ++ rest ∧ t.snk = before ++ emitted

/-- Fewer bytes than the packed header's are a cut header. -/
theorem header_cut_of_packBits {o : BitOrder} {header : List Bool} {kept more : List Byte}
    (h : packBits o header = kept ++ more) (hmore : more ≠ []) :
    ∃ lost, lost ≠ [] ∧ header = kept.flatMap (byteBits o) ++ lost := by
  obtain ⟨k, hk, hpacked⟩ := flatMap_byteBits_packBits o header
  rw [h, List.flatMap_append] at hpacked
  have hlen := congrArg List.length hpacked
  have hpos := List.length_pos_of_ne_nil hmore
  rw [List.length_append, List.length_append, List.length_replicate, flatMap_byteBits_length (vs := more)] at hlen
  obtain ⟨kept', hbits, -⟩ | hcut := append_cut hpacked.symm
  · rw [hbits, List.length_append] at hlen
    omega
  · exact hcut

/-- The source ends inside the header (`60_exceptions.md` R103). -/
theorem HeaderStart.cutOff {kept more : List Byte} (h : HeaderStart tree s) (hclosed : s.srcClosed = true)
    (hbits : unreadBits s = kept.flatMap (byteBits s.cfg.bitOrder))
    (hkept : packBits s.cfg.bitOrder (tree.header s.cfg.symBits) = kept ++ more) (hmore : more ≠ []) :
    ∃ t, Reaches s t ∧ CutOff message s.snk t := by
  obtain ⟨lost, hlost, hheader⟩ := header_cut_of_packBits hkept hmore
  obtain ⟨hsched, hpend⟩ := h.undisturbed
  obtain ⟨t, hrun, hfault, hcode, -, -, hsnk⟩ := truncatedHeader s tree _ lost h.legal h.symbols h.room hsched hpend
    h.fsm h.root h.stack h.nodeCount hclosed hbits hlost hheader
  exact ⟨t, ⟨_, hrun⟩, hfault, .inl hcode, [], message, rfl, by rw [hsnk, List.append_nil]⟩

theorem Undisturbed.step_eq_blockStep (h : Undisturbed s) : step s = blockStep s := by
  obtain ⟨hsched, -⟩ := h
  rw [step, machineStep, hsched]

/-- The source ends before the separator (`60_exceptions.md` R104). -/
theorem HeaderBuilt.cutOff {rest : List Bool} (h : HeaderBuilt tree rest s t) (hs : Undisturbed s)
    (hnode : tree.isNode = true) (hq : t.srcQ = []) (hclosed : s.srcClosed = true) :
    ∃ u, Reaches (headerEnd tree t) u ∧ CutOff message s.snk u := by
  have ht : Undisturbed t := hs.of_outsideHeader h.frame
  have hclosed' : t.srcClosed = true := (eq_of_outsideHeader h.frame State.srcClosed).trans hclosed
  have hsnk : t.snk = s.snk := eq_of_outsideHeader h.frame State.snk
  have hstep : step { t with fsm := .sep } = .next
      { t with rdRem := 0, fstate := .sep, fcode := .truncatedPayload, fsm := .fault } := by
    obtain ⟨hsep, -⟩ := sepStep_spec
    have ⟨_, hempty⟩ := ht
    obtain ⟨-, hend, -⟩ := hsep { t with fsm := .sep } hempty rfl
    exact (Undisturbed.step_eq_blockStep (s := { t with fsm := .sep }) ht).trans (hend hq hclosed')
  rw [headerEnd_node hnode]
  exact ⟨_, .of_step hstep, rfl, .inr rfl, [], message, rfl, hsnk.trans (List.append_nil _).symm⟩

/-- The source ends inside the payload, before the end of the first EOS code (`60_exceptions.md` R104). -/
theorem AtRoot.cutOff {r : Nat} {body e bits more : List Bool} (h : AtRoot tree r s) (hclosed : s.srcClosed = true)
    (hcnt : s.wrCnt = 0) (hcodes : tree.codes message = some body) (hcode : tree.code eosSym = some e)
    (hcut : body ++ e = bits ++ more) (hmore : more ≠ []) (hbits : unreadBits s = bits) :
    ∃ t, Reaches s t ∧ CutOff message s.snk t := by
  obtain ⟨t, hreach, ht⟩ := h.run_message_cut message hcnt hcodes hcode hcut hmore hbits
  have hstep : step t = .next (raiseFault .truncatedPayload t) :=
    step_bit_end (phase := .walk) (hreach.keeps undisturbed_step h.undisturbed) ht.fsm ht.unread
      ((eq_of_outsideWalk ht.frame State.srcClosed).trans hclosed)
  exact ⟨_, hreach.trans (.of_step hstep), rfl, .inr rfl, ht.emitted⟩

/-- The first EOS code is whole (`42_tree_walker.md` R88). -/
theorem AtRoot.decodes {r : Nat} {body e rest : List Bool} (h : AtRoot tree r s) (hcnt : s.wrCnt = 0)
    (hcodes : tree.codes message = some body) (hcode : tree.code eosSym = some e)
    (hbits : unreadBits s = body ++ (e ++ rest)) :
    ∃ t, Reaches s t ∧ t.fsm = .done ∧ t.snk = s.snk ++ message := by
  obtain ⟨a, hrun, ha, -, hrest, -, hsnk, -⟩ := h.run_message message hcnt hcodes hbits
  obtain ⟨t, hrun', hdone, -, -, -, hsnk', -⟩ := ha.run_eos (Tree.symbolAt_code hcode) hrest
  exact ⟨t, .trans ⟨_, hrun⟩ ⟨_, hrun'⟩, hdone, hsnk'.trans hsnk⟩

/-- The end of a decode whose source keeps `kept` bits of the `whole` bits up to the end of the first EOS code
(`42_tree_walker.md` R91). -/
def TruncatedEnd (kept whole : Nat) (message before : List Byte) (t : State) : Prop :=
  (whole ≤ kept ∧ t.fsm = .done ∧ t.snk = before ++ message) ∨ (kept < whole ∧ CutOff message before t)

/-- The walk over the bytes kept of a payload. -/
theorem AtRoot.truncatedEnd {r : Nat} {body e : List Bool} {kept lost : List Byte} (h : AtRoot tree r s)
    (hclosed : s.srcClosed = true) (hcnt : s.wrCnt = 0) (hcodes : tree.codes message = some body)
    (hcode : tree.code eosSym = some e) (hpayload : packBits s.cfg.bitOrder (body ++ e ++ e) = kept ++ lost)
    (hbits : unreadBits s = kept.flatMap (byteBits s.cfg.bitOrder)) :
    ∃ t, Reaches s t ∧ TruncatedEnd (8 * kept.length) (body.length + e.length) message s.snk t := by
  obtain ⟨k, -, hpacked⟩ := flatMap_byteBits_packBits s.cfg.bitOrder (body ++ e ++ e)
  rw [hpayload, List.flatMap_append, List.append_assoc (body ++ e)] at hpacked
  have hlen := flatMap_byteBits_length s.cfg.bitOrder kept
  obtain ⟨rest, hwhole, -⟩ | ⟨more, hmore, hcut⟩ := append_cut hpacked.symm
  · rw [hwhole, List.length_append, List.length_append] at hlen
    rw [hwhole, List.append_assoc] at hbits
    obtain ⟨t, hreach, hdone⟩ := h.decodes hcnt hcodes hcode hbits
    exact ⟨t, hreach, .inl ⟨by omega, hdone⟩⟩
  · have hlen' := congrArg List.length hcut
    have hpos := List.length_pos_of_ne_nil hmore
    rw [List.length_append, List.length_append] at hlen'
    obtain ⟨t, hreach, hcutOff⟩ := h.cutOff hclosed hcnt hcodes hcode hcut hmore hbits
    exact ⟨t, hreach, .inr ⟨by omega, hcutOff⟩⟩

/-! ### The whole decode -/

/-- A DEC_START is latched outside a decode, on a closed source and an aligned writer, and a tree with an internal root
fits node memory. -/
structure LatchedDecode (tree : Tree) (s : State) : Prop where
  legal : s.cfg.Legal
  isNode : tree.isNode = true
  symbols : tree.symbolsLegal = true
  room : tree.size ≤ s.cfg.nodeCap
  sched : s.sched = []
  free : busy s = false
  latched : s.cmdPend = true
  word : s.cmdWord = 0x00000100
  aligned : s.wrCnt = 0
  closed : s.srcClosed = true

theorem LatchedDecode.step_start (h : LatchedDecode tree s) : step s = .next (retire (startDecode s)) :=
  step_decStart h.sched h.free h.latched h.word

theorem LatchedDecode.headerStart (h : LatchedDecode tree s) : HeaderStart tree (retire (startDecode s)) :=
  headerStart_startDecode h.legal h.symbols h.room h.sched

/-- With the whole header kept the decode reaches its end. -/
theorem LatchedDecode.reaches_headerEnd {rest : List Byte} (h : LatchedDecode tree s)
    (hsource : s.srcQ = packBits s.cfg.bitOrder (tree.header s.cfg.symBits) ++ rest) :
    ∃ t pad, Reaches (retire (startDecode s)) (headerEnd tree t) ∧
      HeaderBuilt tree pad (retire (startDecode s)) t ∧ t.srcQ = rest := by
  obtain ⟨t, pad, hrun, -, ht, hq, -⟩ :=
    run_startDecode h.legal h.symbols h.room h.sched h.free h.latched h.word hsource
  rw [run_add ((run_one s).trans h.step_start)] at hrun
  exact ⟨t, pad, ⟨_, hrun⟩, ht, hq⟩

/-- The source holds exactly the header's bytes. -/
theorem LatchedDecode.cutOff_headerOnly (h : LatchedDecode tree s)
    (hsource : s.srcQ = packBits s.cfg.bitOrder (tree.header s.cfg.symBits)) :
    ∃ t, Reaches (retire (startDecode s)) t ∧ CutOff message s.snk t := by
  obtain ⟨a, pad, hreach, ha, hq⟩ := h.reaches_headerEnd (rest := []) (by rw [hsource, List.append_nil])
  obtain ⟨t, hreach', ht⟩ := ha.cutOff h.headerStart.undisturbed h.isNode hq h.closed
  exact ⟨t, hreach.trans hreach', ht⟩

/-- The source goes on into the payload. -/
theorem LatchedDecode.truncatedEnd_payload {separator : Byte} {body e : List Bool} {kept lost : List Byte}
    (h : LatchedDecode tree s) (hcodes : tree.codes message = some body) (hcode : tree.code eosSym = some e)
    (hpayload : packBits s.cfg.bitOrder (body ++ e ++ e) = kept ++ lost)
    (hsource : s.srcQ = packBits s.cfg.bitOrder (tree.header s.cfg.symBits) ++ separator :: kept) :
    ∃ t, Reaches (retire (startDecode s)) t ∧
      TruncatedEnd (8 * kept.length) (body.length + e.length) message s.snk t := by
  obtain ⟨a, pad, hreach, ha, hq⟩ := h.reaches_headerEnd hsource
  have started {α : Type} (field : State → α) (hfield : ∀ v, field (outsideHeader v) = field v) :
      field a = field (retire (startDecode s)) := eq_of_outsideHeader ha.frame field hfield
  have hcfg : a.cfg = s.cfg := started State.cfg fun _ => rfl
  have hsnk : a.snk = s.snk := started State.snk fun _ => rfl
  have hclosed : a.srcClosed = true := (started State.srcClosed fun _ => rfl).trans h.closed
  have hcnt : a.wrCnt = 0 := (started State.wrCnt fun _ => rfl).trans h.aligned
  obtain ⟨hsep, hroot⟩ := ha.step_sep h.headerStart.undisturbed h.isNode hq
  obtain ⟨t, hreach', ht⟩ := hroot.truncatedEnd hclosed hcnt hcodes hcode (hcfg.symm ▸ hpayload)
    (unreadBits_aligned rfl)
  exact ⟨t, hreach.trans (.trans (.of_step hsep) hreach'), hsnk ▸ ht⟩

/-- Settles O31: the bytes kept end inside the header, at its end, or behind the separator. -/
theorem truncatedStream : Obligations.TruncatedStream := by
  intro s tree separator message kept lost body e hlegal hnode hsymbols hroom hsched hbusy hpend hword hcnt hcodes hcode
    hstream hsource hclosed
  have h : LatchedDecode tree s :=
    ⟨hlegal, hnode, hsymbols, hroom, hsched, hbusy, hpend, hword, hcnt, hclosed⟩
  have hstart := h.headerStart
  suffices hend : ∃ t, Reaches (retire (startDecode s)) t ∧ TruncatedEnd (8 * kept.length)
      (8 * (packBits s.cfg.bitOrder (tree.header s.cfg.symBits)).length + 8 + body.length + e.length) message s.snk t by
    obtain ⟨t, hreach, ht⟩ := hend
    obtain ⟨-, hempty⟩ := hreach.keeps undisturbed_step hstart.undisturbed
    obtain ⟨k, hrun⟩ := (Reaches.of_step h.step_start).trans hreach
    refine ⟨k, t, hrun, hempty, ?_⟩
    obtain ⟨hle, hdone⟩ | ⟨hlt, hcut⟩ := ht
    · exact ⟨fun _ => hdone, fun hlt => absurd hle hlt.not_ge⟩
    · exact ⟨fun hle => absurd hle hlt.not_ge, fun _ => hcut⟩
  have hcutOff {n : Nat} (hlt : 8 * kept.length < n) (hcut : ∃ t, Reaches (retire (startDecode s)) t ∧
      CutOff message s.snk t) : ∃ t, Reaches (retire (startDecode s)) t ∧
      TruncatedEnd (8 * kept.length) n message s.snk t :=
    hcut.imp fun _ ⟨hreach, ht⟩ => ⟨hreach, .inr ⟨hlt, ht⟩⟩
  obtain ⟨more, hheader, -⟩ | ⟨rest, hkept, hrest⟩ :=
    List.append_eq_append_iff.mp (streamOf_eq hcodes hcode hstream)
  · have hlen := congrArg List.length hheader
    rw [List.length_append] at hlen
    refine hcutOff (by omega) ?_
    by_cases hmore : more = []
    · exact h.cutOff_headerOnly (by rw [hsource, hheader, hmore, List.append_nil])
    · exact hstart.cutOff hclosed (by rw [unreadBits_startDecode, hsource]; rfl) hheader hmore
  · have hlen := congrArg List.length hkept
    rw [List.length_append] at hlen
    cases rest with
    | nil =>
      rw [List.length_nil] at hlen
      exact hcutOff (by omega) (h.cutOff_headerOnly (by rw [hsource, hkept, List.append_nil]))
    | cons v payload =>
      obtain ⟨rfl, hpayload⟩ := List.cons.inj hrest
      rw [List.length_cons] at hlen
      obtain ⟨t, hreach, ht⟩ := h.truncatedEnd_payload hcodes hcode hpayload (hsource.trans hkept)
      refine ⟨t, hreach, ht.imp (And.imp_left fun hle => ?_) (And.imp_left fun hlt => ?_)⟩ <;> omega

end Sys2Proof.Machine
end

section
/-! SUPPORT. The control commands (`43_control.md` R96 to R100): their one legal word, their next states, and what each
can change. -/

namespace Sys2Proof.Machine

open Sys2Proof

variable {s : State}

/-! ### DEC_START and DEC_ABORT by BUSY -/

theorem execDecStart_free (hfree : busy s = false) : execDecStart s = .next (retire (startDecode s)) :=
  unlessBusy_free hfree

theorem execDecAbort_busy (hbusy : busy s = true) : execDecAbort s = .next (retire (raiseFault .aborted s)) := by
  rw [execDecAbort, if_pos hbusy]

theorem execDecAbort_free (hfree : busy s = false) : execDecAbort s = .next (retire s) := by
  rw [execDecAbort, if_neg (Bool.eq_false_iff.mp hfree)]

/-! ### The results -/

/-- Settles O9: OPC 0x00 has no operand, and NOP only retires. -/
theorem nopCommand : Obligations.NopCommand :=
  ⟨encodedOnlyAs_bare (opc := 0x00) (by decide) rfl, fun _ => rfl⟩

/-- Settles O10: rejected while BUSY, and otherwise the fields a decode starts from. -/
theorem decStartCommand : Obligations.DecStartCommand :=
  ⟨encodedOnlyAs_bare (opc := 0x01) (by decide) rfl, fun _ => exec_of_busy rfl,
    fun s hfree => ⟨s.nodes, execDecStart_free hfree⟩⟩

/-- Settles O11: the fault entry while BUSY, and only the latch otherwise. -/
theorem decAbortCommand : Obligations.DecAbortCommand :=
  ⟨encodedOnlyAs_bare (opc := 0x02) (by decide) rfl, fun _ => execDecAbort_busy, fun _ => execDecAbort_free⟩

/-- Settles O12: OPC 0x30 has no operand, and CLR_ERR clears the flags and retires. -/
theorem clrErrCommand : Obligations.ClrErrCommand :=
  ⟨encodedOnlyAs_bare (opc := 0x30) (by decide) rfl, fun _ => rfl⟩

/-- Settles O13: OPC 0x3F has no operand, and the reset keeps node memory as it was. -/
theorem softResetCommand : Obligations.SoftResetCommand :=
  ⟨encodedOnlyAs_bare (opc := 0x3F) (by decide) rfl, fun s => ⟨s.nodes, rfl⟩⟩

/-! ### Frames -/

/-- The elements DEC_ABORT can write. -/
def DecAbortFrame (s t : State) : Prop :=
  t = { s with cmdPend := false, fsm := t.fsm, fcode := t.fcode, fstate := t.fstate }

/-- The elements DEC_START can write. -/
def DecStartFrame (s t : State) : Prop :=
  t = { s with
    cmdPend := false, errBusy := t.errBusy, rdRem := t.rdRem, nodeCount := t.nodeCount, stack := t.stack,
    root := t.root, cur := t.cur, symAcc := t.symAcc, symCnt := t.symCnt, leafCount := t.leafCount,
    outCount := t.outCount, fcode := t.fcode, fstate := t.fstate, fsm := t.fsm }

theorem execDecAbort_frame (s : State) : Yields (DecAbortFrame s) (execDecAbort s) := by
  obtain hbusy | hfree := Bool.eq_false_or_eq_true (busy s)
  · rw [execDecAbort_busy hbusy]; exact (yields_next ..).mpr rfl
  · rw [execDecAbort_free hfree]; exact (yields_next ..).mpr rfl

theorem execDecStart_frame (s : State) : Yields (DecStartFrame s) (execDecStart s) :=
  yields_unlessBusy (rejected := rfl) fun _ => (yields_next ..).mpr rfl

/-- Settles O58, from the next state of each command. -/
theorem controlFrame : Obligations.ControlFrame := by
  refine fun s t => ⟨fun hnop => ?nop, fun hclr => ?clrErr, execDecAbort_frame s t, execDecStart_frame s t,
    fun hreset => ?softReset⟩
  case nop => exact (Host.Outcome.next.inj hnop).symm
  case clrErr =>
    obtain rfl : retire (clearErrors s) = t := Host.Outcome.next.inj hclr
    rfl
  case softReset =>
    obtain rfl : resetBlock s = t := Host.Outcome.next.inj hreset
    exact ⟨rfl, rfl, rfl, rfl⟩

end Sys2Proof.Machine
end

section
/-! SUPPORT. Which step the block has and when it empties the latch (`43_control.md` R95), and the machine's step in the
block's turn (`20_memory.md` R52). -/

namespace Sys2Proof.Machine

open Sys2Proof

variable {s r : State}

/-! ### The command step and the latch -/

theorem busyRejected_iff (i : Instr) : busyRejected i = true ↔
    i = .decStart ∨ i = .rdBit ∨ i = .rdByte ∨ (∃ b, i = .wrBit b) ∨ (∃ v, i = .wrByte v) ∨ i = .wrFlush := by
  cases i <;> simp [busyRejected]

/-- The latch after a command step: empty, unless an RD command outside a decode holds, which changes nothing. -/
def LatchEmptiedUnlessHeld (s t : State) : Prop :=
  t.cmdPend = false ∨
    (t = s ∧ busy s = false ∧ (decodeCommand s.cmdWord = .ok .rdBit ∨ decodeCommand s.cmdWord = .ok .rdByte))

/-- A `BUSY_REJECT` command that ends by retiring. -/
theorem unlessBusy_retire (f : State → State) :
    Yields (LatchEmptiedUnlessHeld s) (unlessBusy s fun s => .next (retire (f s))) :=
  yields_unlessBusy (rejected := .inl rfl) fun _ => (yields_next ..).mpr (.inl rfl)

theorem execRdBit_latch (hd : decodeCommand s.cmdWord = .ok .rdBit) :
    Yields (LatchEmptiedUnlessHeld s) (execRdBit s) := by
  refine yields_unlessBusy (rejected := .inl rfl) fun hfree => ?_
  obtain hg | hg | ⟨b, v, r, q, hg, -⟩ := readBit_answers s
  · rw [hg]; exact (yields_next ..).mpr (.inr ⟨rfl, hfree, .inl hd⟩)
  · rw [hg]; exact (yields_next ..).mpr (.inl rfl)
  · rw [hg]; exact (yields_next ..).mpr (.inl rfl)

theorem execRdByte_latch (hd : decodeCommand s.cmdWord = .ok .rdByte) :
    Yields (LatchEmptiedUnlessHeld s) (execRdByte s) := by
  refine yields_unlessBusy (rejected := .inl rfl) fun hfree => ?_
  obtain ⟨-, -, hg⟩ | ⟨-, -, hg⟩ | ⟨v, q, -, hg⟩ := getByte_cases s
  · rw [hg]; exact (yields_next ..).mpr (.inr ⟨rfl, hfree, .inr hd⟩)
  · rw [hg]; exact (yields_next ..).mpr (.inl rfl)
  · rw [hg]; exact (yields_next ..).mpr (.inl rfl)

theorem commandStep_latch (s : State) : Yields (LatchEmptiedUnlessHeld s) (commandStep s) := by
  refine commandStep_of_decode ?illegal ?nop ?decStart ?decAbort ?rdBit ?rdByte ?wrBit ?wrByte ?wrFlush ?clrErr
    ?softReset
  case illegal => exact (yields_next ..).mpr (.inl rfl)
  case nop | decAbort | clrErr | softReset => exact fun _ => (yields_next ..).mpr (.inl rfl)
  case decStart => exact fun _ => unlessBusy_retire startDecode
  case rdBit => exact execRdBit_latch
  case rdByte => exact execRdByte_latch
  case wrBit => exact fun opd _ => unlessBusy_retire (writeBit (operandBit opd))
  case wrByte => exact fun opd _ => unlessBusy_retire (putByte (operandByte opd))
  case wrFlush => exact fun _ => unlessBusy_retire flush

/-! ### The block's step -/

/-- BUSY is 0 in the three states without an FSM step (`10_state.md` R26). -/
theorem fsm_of_free (hfree : busy s = false) : s.fsm = .idle ∨ s.fsm = .done ∨ s.fsm = .fault := by
  rw [busy] at hfree
  cases hf : s.fsm with
  | idle => exact .inl rfl
  | done => exact .inr (.inl rfl)
  | fault => exact .inr (.inr rfl)
  | hdrBit | hdrSym | sep | walk => rw [hf] at hfree; cases hfree

theorem blockStep_of_ok {i : Instr} (hpend : s.cmdPend = true) (hd : decodeCommand s.cmdWord = .ok i) :
    blockStep s = exec i s := (blockStep_command hpend).trans (commandStep_of_ok hd)

theorem blockStep_latch {i : Instr} (hpend : s.cmdPend = true) (hd : decodeCommand s.cmdWord = .ok i) :
    Yields (fun t => t.cmdPend = false ∨ (t = s ∧ busy s = false ∧ (i = .rdBit ∨ i = .rdByte))) (blockStep s) := by
  have hi {j : Instr} (hj : decodeCommand s.cmdWord = .ok j) : i = j := Except.ok.inj (hd.symm.trans hj)
  rw [blockStep_command hpend]
  exact (commandStep_latch s).mono fun _ => Or.imp_right fun ⟨hsame, hfree, hread⟩ => ⟨hsame, hfree, hread.imp hi hi⟩

/-- Settles O7: a full latch is the command's turn, an empty one the decode state's, and the other states have none. -/
theorem blockStepSelection : Obligations.BlockStepSelection := by
  refine ⟨busyRejected_iff, fun s => ⟨fun hpend => ⟨fun e hd => ?illegal, fun i hd =>
      ⟨blockStep_of_ok hpend hd, fun hi hbusy => ?rejected, blockStep_latch hpend hd⟩⟩,
    fun hempty => ⟨blockStep_bit (phase := .hdrBit) hempty, blockStep_bit (phase := .hdrSym) hempty,
      blockStep_sep hempty, blockStep_bit (phase := .walk) hempty, fun hfree t ht => ?noStep⟩⟩⟩
  case illegal => exact (blockStep_command hpend).trans (commandStep_of_error ⟨e, hd⟩)
  case rejected => exact (blockStep_of_ok hpend hd).trans (exec_of_busy hi hbusy)
  case noStep =>
    rw [blockStep_terminal (fsm_of_free hfree) hempty] at ht
    exact (Host.Outcome.next.inj ht).symm

/-! ### The machine's step in the block's turn -/

/-- The block's own step is the block step, on a state that differs in the schedule only. -/
theorem step_of_blockView (h : blockView s = some r) :
    step s = blockStep r ∧ ∃ rest, r = { s with sched := rest } := by
  unfold blockView at h
  split at h
  · rename_i hsched
    obtain rfl : s = r := Option.some.inj h
    exact ⟨by rw [step, machineStep, hsched], s.sched, rfl⟩
  · rename_i rest hsched
    obtain rfl : { s with sched := rest } = r := Option.some.inj h
    exact ⟨by rw [step, machineStep, hsched]; rfl, rest, rfl⟩
  · cases h

/-- Settles O6: the latched command by the decoder's answer, and a token by the answer of its read. -/
theorem stepRunsDecodedInstruction : Obligations.StepRunsDecodedInstruction := by
  intro s r hview
  obtain ⟨hstep, rest, rfl⟩ := step_of_blockView hview
  rw [hstep]
  refine ⟨rfl, fun i hpend hd => ?command, fun p b t i hempty hf hread hd => ?bit,
    fun v t i hempty hf hread hd => ?separator⟩
  case command => exact blockStep_of_ok (s := { s with sched := rest }) hpend hd
  case bit =>
    obtain rfl : decodeBit p b = i := Except.ok.inj hd
    exact (blockStep_bit (s := { s with sched := rest }) hempty hf).trans (bitStep_got hread)
  case separator =>
    obtain rfl : Instr.sep v = i := Except.ok.inj hd
    rw [blockStep_sep (s := { s with sched := rest }) hempty hf, sepStep, hread]

end Sys2Proof.Machine
end

section
/-! SUPPORT. The host's write of CMD (`43_control.md` R94). -/

namespace Sys2Proof.Machine

open Sys2Proof

variable {s : State} {w : Word}

theorem hostWriteCmd_full (w : Word) (hpend : s.cmdPend = true) :
    hostWriteCmd w s = { s with errOverrun := true } := if_pos hpend

theorem hostWriteCmd_empty (w : Word) (hempty : s.cmdPend = false) :
    hostWriteCmd w s = { s with cmdWord := w, cmdPend := true, rvalid := s.rvalid && !isReadOpcode w } :=
  if_neg (Bool.eq_false_iff.mp hempty)

theorem isReadOpcode_iff (w : Word) :
    isReadOpcode w = true ↔ w.extractLsb' 8 8 = 0x10#8 ∨ w.extractLsb' 8 8 = 0x11#8 := by
  simp [isReadOpcode, opcOf]

theorem step_writeCmd {rest : List Move} (hsched : s.sched = .writeReg .cmd w :: rest) :
    step s = .next (hostWriteCmd w { s with sched := rest }) := by
  rw [step, machineStep, hsched]
  rfl

/-- Settles O41, by the latch, and by the OPC of a word that is latched. -/
theorem hostWriteCommand : Obligations.HostWriteCommand := by
  intro s w rest hsched
  rw [step_writeCmd hsched]
  refine ⟨fun hpend => ?overrun, fun hempty hread => ?read, fun hempty hbit hbyte => ?other⟩
  case overrun => rw [hostWriteCmd_full (s := { s with sched := rest }) w hpend]
  case read =>
    rw [hostWriteCmd_empty (s := { s with sched := rest }) w hempty, (isReadOpcode_iff w).mpr hread, Bool.not_true,
      Bool.and_false]
  case other =>
    have hother : isReadOpcode w = false :=
      Bool.eq_false_iff.mpr fun h => ((isReadOpcode_iff w).mp h).elim hbit hbyte
    rw [hostWriteCmd_empty (s := { s with sched := rest }) w hempty, hother, Bool.not_false, Bool.and_true]

end Sys2Proof.Machine
end

section
/-! SUPPORT. The end of the source as a fault (`60_exceptions.md` R103, R104) and the priority of the conditions that
meet in one step (`60_exceptions.md` R110). -/

namespace Sys2Proof.Machine

open Sys2Proof

variable {s : State}

/-! ### The end of the source -/

/-- The fault of a needed bit on an empty closed source. -/
theorem blockStep_bit_end {phase : BitPhase} (hempty : s.cmdPend = false) (hf : s.fsm = phaseFsm phase)
    (hrem : s.rdRem = 0) (hq : s.srcQ = []) (hclosed : s.srcClosed = true) :
    blockStep s = .next { s with fstate := s.fsm, fcode := endFault phase, fsm := .fault } := by
  obtain ⟨-, ended, -⟩ := blockStep_bit_cases hempty hf
  rw [hf]
  exact ended hrem hq hclosed

/-- Settles O32, by the state that needs a bit or the separator. -/
theorem endOfSourceFaults : Obligations.EndOfSourceFaults := by
  refine fun s hempty hq hclosed => ⟨fun hf hrem => ?header, fun hf => ?separator, fun hf hrem => ?payload⟩
  case header =>
    obtain hf | hf := hf
    · exact blockStep_bit_end (phase := .hdrBit) hempty hf hrem hq hclosed
    · exact blockStep_bit_end (phase := .hdrSym) hempty hf hrem hq hclosed
  case separator =>
    obtain ⟨-, ended, -⟩ := sepStep_spec.1 s hempty hf
    exact ended hq hclosed
  case payload =>
    rw [blockStep_bit_end (phase := .walk) hempty hf hrem hq hclosed, hf]
    rfl

/-! ### Priority -/

/-- `yields_completeLeaf` with the room for the leaf's node known (`41_tree_deserializer.md` R78, R81). -/
theorem yields_completeLeaf_room {P : State → Prop} (bad : P (raiseFault .badSymbol s))
    (full : P (raiseFault .treeOverflow s))
    (linked : s.nodeCount.toNat < s.cfg.nodeCap → ∀ mem rt st, Yields P (closeLeaf { s with
      nodes := mem, nodeCount := s.nodeCount + 1, root := rt, stack := st, leafCount := s.leafCount + 1 })) :
    Yields P (completeLeaf s) := by
  unfold completeLeaf
  split
  · exact (yields_next ..).mpr bad
  · exact yields_allocNode full fun hroom => yields_attach fun mem rt st => linked hroom mem rt st

/-- If the step raised DEGENERATE_TREE, it allocated a node. -/
def DegenerateAllocates (s t : State) : Prop :=
  t.fcode = .degenerateTree → s.nodeCount.toNat < s.cfg.nodeCap ∧ t.nodeCount = s.nodeCount + 1

theorem symbolBit_degenerate (b : Bool) (hcode : s.fcode ≠ .degenerateTree) :
    Yields (DegenerateAllocates s) (symbolBit b s) :=
  yields_symbolBit (fun h => absurd h hcode) <| yields_completeLeaf_room (fun h => nomatch h) (fun h => nomatch h)
    fun hroom _ _ _ => yields_closeLeaf (fun _ => ⟨hroom, rfl⟩) (fun _ _ _ _ _ _ _ => ⟨hroom, rfl⟩)
      (fun _ => ⟨hroom, rfl⟩) (fun _ => ⟨hroom, rfl⟩)

/-- Settles O8: the latch first, then END, and in a completed leaf the symbol, the capacity and the allocation. -/
theorem stepPriority : Obligations.StepPriority := by
  refine ⟨fun _ => blockStep_command, fun s e hpend _ hd => ?illegal, fun s p hempty hf hrem hq hclosed => ?atEnd,
    fun s b hlegal hlast _ habove => ?badSymbol, fun s t b _ ht hcode => symbolBit_degenerate b hcode t ht,
    fun s hpend hword hbusy => ?abort⟩
  case illegal => exact (blockStep_command hpend).trans (commandStep_of_error ⟨e, hd⟩)
  case atEnd =>
    rw [blockStep_bit_end hempty hf hrem hq hclosed]
    cases p <;> rfl
  case badSymbol =>
    have ⟨_, hbits, _⟩ := hlegal
    have hv := fieldBit_toNat (s := s) b hbits
    obtain ⟨bad, -⟩ := leafCompletion s b _ hlegal hlast hv
    exact ⟨_, bad (by rwa [hv]), rfl, rfl⟩
  case abort =>
    obtain ⟨⟨runs, -⟩, raises, -⟩ := decAbortCommand
    exact (blockStep_command hpend).trans ((runs s hword).trans (raises s hbusy))

end Sys2Proof.Machine
end

section
/-! SUPPORT. What a command step and an FSM step do to the fields of STATUS: `fsm`, the fault record and the error flags
(`43_control.md` R95, `60_exceptions.md` R101, R109). -/

namespace Sys2Proof.Machine

open Sys2Proof

variable {s t : State}

/-- The error flags stay. -/
def ErrorsKept (s t : State) : Prop :=
  t.errIllegal = s.errIllegal ∧ t.errBusy = s.errBusy ∧ t.errOverrun = s.errOverrun

/-- `fsm`, the fault record and the error flags stay. The conjunction speaks of these fields only, so it is one
statement for any two states that agree on them. -/
def StatusKept (s t : State) : Prop :=
  t.fsm = s.fsm ∧ t.fcode = s.fcode ∧ t.fstate = s.fstate ∧ ErrorsKept s t

theorem ErrorsKept.refl (s : State) : ErrorsKept s s := ⟨rfl, rfl, rfl⟩

theorem StatusKept.refl (s : State) : StatusKept s s := ⟨rfl, rfl, rfl, .refl s⟩

/-- Everything a command step can do to STATUS: the two rejections, the four commands that write it, and the rest. -/
inductive CommandStatus (s : State) : State → Prop
  | illegal (hd : ∃ e, decodeCommand s.cmdWord = .error e) : CommandStatus s (rejectIllegal s)
  | rejected {i : Instr} (hd : decodeCommand s.cmdWord = .ok i) (hi : busyRejected i = true) (hbusy : busy s = true) :
      CommandStatus s (rejectBusy s)
  | aborted (hbusy : busy s = true) : CommandStatus s (retire (raiseFault .aborted s))
  | started (hd : decodeCommand s.cmdWord = .ok .decStart) : CommandStatus s (retire (startDecode s))
  | cleared (hd : decodeCommand s.cmdWord = .ok .clrErr) : CommandStatus s (retire (clearErrors s))
  | reset (hd : decodeCommand s.cmdWord = .ok .softReset) : CommandStatus s (resetBlock s)
  | kept {t : State} (h : StatusKept s t) : CommandStatus s t

/-! ### The commands -/

theorem flush_status (s : State) : StatusKept s (flush s) := by
  by_cases h : s.wrCnt = 0
  · rw [flush_empty s h]; exact .refl s
  · rw [flush_pending s h]; exact .refl s

theorem putByte_status (v : Byte) (s : State) : StatusKept s (putByte v s) := flush_status s

theorem writeBit_status (b : Bool) (s : State) : StatusKept s (writeBit b s) := by
  by_cases h : s.wrCnt = 7
  · rw [writeBit_last b s h]; exact .refl s
  · rw [writeBit_more b s h]; exact .refl s

/-- A `BUSY_REJECT` command is rejected in a decode, and runs its body otherwise. -/
theorem unlessBusy_status {i : Instr} {k : State → Out} (hd : decodeCommand s.cmdWord = .ok i)
    (hi : busyRejected i = true) (body : Yields (CommandStatus s) (k s)) :
    Yields (CommandStatus s) (unlessBusy s k) := by
  obtain hbusy | hfree := Bool.eq_false_or_eq_true (busy s)
  · rw [unlessBusy, if_pos hbusy]
    exact (yields_next ..).mpr (.rejected hd hi hbusy)
  · rwa [unlessBusy_free hfree]

/-- A `BUSY_REJECT` command that retires after the update `f`. -/
theorem unlessBusy_retire_status {i : Instr} (f : State → State) (hd : decodeCommand s.cmdWord = .ok i)
    (hi : busyRejected i = true) (h : CommandStatus s (retire (f s))) :
    Yields (CommandStatus s) (unlessBusy s fun s => .next (retire (f s))) :=
  unlessBusy_status hd hi ((yields_next ..).mpr h)

theorem execRdBit_status (hd : decodeCommand s.cmdWord = .ok .rdBit) : Yields (CommandStatus s) (execRdBit s) := by
  refine unlessBusy_status hd rfl ?_
  obtain hg | hg | ⟨b, v, r, q, hg, -⟩ := readBit_answers s <;> rw [hg] <;>
    exact (yields_next ..).mpr (.kept (.refl s))

theorem execRdByte_status (hd : decodeCommand s.cmdWord = .ok .rdByte) : Yields (CommandStatus s) (execRdByte s) := by
  refine unlessBusy_status hd rfl ?_
  obtain ⟨-, -, hg⟩ | ⟨-, -, hg⟩ | ⟨v, q, -, hg⟩ := getByte_cases s <;> rw [hg] <;>
    exact (yields_next ..).mpr (.kept (.refl s))

theorem execDecAbort_status (s : State) : Yields (CommandStatus s) (execDecAbort s) := by
  obtain hbusy | hfree := Bool.eq_false_or_eq_true (busy s)
  · rw [execDecAbort_busy hbusy]; exact (yields_next ..).mpr (.aborted hbusy)
  · rw [execDecAbort_free hfree]; exact (yields_next ..).mpr (.kept (.refl s))

theorem commandStep_status (s : State) : Yields (CommandStatus s) (commandStep s) := by
  cases hd : decodeCommand s.cmdWord with
  | error e =>
    rw [commandStep_of_error ⟨e, hd⟩]
    exact (yields_next ..).mpr (.illegal ⟨e, hd⟩)
  | ok i =>
    have hcommand := decodeCommand_not_token _ i hd
    rw [commandStep_of_ok hd]
    cases i with
    | nop => exact (yields_next ..).mpr (.kept (.refl s))
    | decStart => exact unlessBusy_retire_status startDecode hd rfl (.started hd)
    | decAbort => exact execDecAbort_status s
    | rdBit => exact execRdBit_status hd
    | rdByte => exact execRdByte_status hd
    | wrBit opd =>
      exact unlessBusy_retire_status (writeBit (operandBit opd)) hd rfl (.kept (writeBit_status (operandBit opd) s))
    | wrByte opd =>
      exact unlessBusy_retire_status (putByte (operandByte opd)) hd rfl (.kept (putByte_status (operandByte opd) s))
    | wrFlush => exact unlessBusy_retire_status flush hd rfl (.kept (flush_status s))
    | clrErr => exact (yields_next ..).mpr (.cleared hd)
    | softReset => exact (yields_next ..).mpr (.reset hd)
    | hdrNode | hdrLeaf | sep | payLeft | payRight => simp at hcommand

/-! ### The FSM steps and the error flags (`60_exceptions.md` R109) -/

theorem bitToken_errors (phase : BitPhase) (b : Bool) (s : State) :
    Yields (ErrorsKept s) (exec (decodeBit phase b) s) := by
  cases phase with
  | hdrBit => cases b with
    | false => exact (execHdrNode_frame s).mono fun _ ⟨hframe, _⟩ => hframe ▸ .refl s
    | true => exact (yields_next ..).mpr (.refl s)
  | hdrSym => exact (symbolBit_frame b s).mono fun _ ⟨hframe, _⟩ => hframe ▸ .refl s
  | walk => cases b with
    | false => exact (descend_frame false s).mono fun _ ⟨hframe, _⟩ => hframe ▸ .refl s
    | true => exact (descend_frame true s).mono fun _ ⟨hframe, _⟩ => hframe ▸ .refl s

theorem bitStep_errors (phase : BitPhase) (s : State) : Yields (ErrorsKept s) (bitStep phase s) :=
  yields_bitStep (hold := .refl s) (ended := .refl s) fun b _ _ _ _ => bitToken_errors phase b _

theorem sepStep_errors (s : State) : Yields (ErrorsKept s) (sepStep s) :=
  yields_sepStep (hold := .refl s) (ended := .refl s) fun _ _ _ => (yields_next ..).mpr (.refl s)

/-- A block step writes error flags only as a command. -/
theorem blockStep_errors (s : State) :
    Yields (fun t => ErrorsKept s t ∨ (s.cmdPend = true ∧ CommandStatus s t)) (blockStep s) := by
  refine blockStep_of_latch ?command ?idle ?hdrBit ?hdrSym ?sep ?walk
  case command => exact fun hpend => (commandStep_status s).mono fun _ h => .inr ⟨hpend, h⟩
  case idle => exact (yields_next ..).mpr (.inl (.refl s))
  case hdrBit => exact fun _ _ => (bitStep_errors .hdrBit s).mono fun _ => .inl
  case hdrSym => exact fun _ _ => (bitStep_errors .hdrSym s).mono fun _ => .inl
  case sep => exact fun _ _ => (sepStep_errors s).mono fun _ => .inl
  case walk => exact fun _ _ => (bitStep_errors .walk s).mono fun _ => .inl

end Sys2Proof.Machine
end

section
/-! SUPPORT. The entry into FAULT (`60_exceptions.md` R101, R102) and the ways out of it (R111). -/

namespace Sys2Proof.Machine

open Sys2Proof

variable {s t : State}

/-! ### Entering FAULT -/

/-- The fault entry from `s`: the record, and what came before it. -/
def FaultRecorded (s t : State) : Prop :=
  busy s = true ∧ t.fstate = s.fsm ∧ t.fcode.raisedIn s.fsm = true ∧ t.cur = s.cur ∧ t.outCount = s.outCount ∧
  t.snk = s.snk ∧ t.wrAcc = s.wrAcc ∧ t.wrCnt = s.wrCnt ∧ t.rdata = s.rdata ∧ t.rvalid = s.rvalid ∧
  t.errIllegal = s.errIllegal ∧ t.errBusy = s.errBusy ∧ t.errOverrun = s.errOverrun ∧
  (t.fcode ≠ .degenerateTree → t.nodes = s.nodes ∧ t.nodeCount = s.nodeCount ∧ t.root = s.root ∧
    t.stack = s.stack ∧ t.leafCount = s.leafCount)

/-- If the step entered FAULT, it recorded the fault. -/
def RecordsFault (s t : State) : Prop := t.fsm = .fault → FaultRecorded s t

/-- Every fault code is raised in decode states only (`60_exceptions.md` R102). -/
theorem isBusy_of_raisedIn {code : FaultCode} {f : Fsm} (h : code.raisedIn f = true) : f.isBusy = true := by
  cases f with
  | hdrBit | hdrSym | sep | walk => rfl
  | idle | done | fault => cases code <;> exact nomatch h

/-- The fault entry, in a state the table of R102 allows. -/
theorem recordsFault_raise {code : FaultCode} (hcode : code.raisedIn s.fsm = true) :
    RecordsFault s (raiseFault code s) :=
  fun _ => ⟨isBusy_of_raisedIn hcode, rfl, hcode, rfl, rfl, rfl, rfl, rfl, rfl, rfl, rfl, rfl, rfl,
    fun _ => ⟨rfl, rfl, rfl, rfl, rfl⟩⟩

/-- The fault entry after the leaf that is the whole tree was linked (`41_tree_deserializer.md` R82). -/
theorem recordsFault_degenerate (hf : s.fsm = .hdrSym) (mem : NodeMem) (n : BitVec 16) (rt : Option Nat)
    (st : List Nat) (lc : Word) :
    RecordsFault s (raiseFault .degenerateTree { s with
      nodes := mem, nodeCount := n, root := rt, stack := st, leafCount := lc }) :=
  have hcode : FaultCode.degenerateTree.raisedIn s.fsm = true := by rw [hf]; rfl
  fun _ => ⟨isBusy_of_raisedIn hcode, rfl, hcode, rfl, rfl, rfl, rfl, rfl, rfl, rfl, rfl, rfl, rfl,
    fun h => absurd rfl h⟩

theorem recordsFault_of_ne (hf : t.fsm ≠ .fault) : RecordsFault s t := fun h => absurd h hf

/-- Of the commands only DEC_ABORT enters FAULT (`43_control.md` R98). -/
theorem commandStep_fault (hf : s.fsm ≠ .fault) : Yields (RecordsFault s) (commandStep s) := by
  refine (commandStep_status s).mono fun t h => ?_
  cases h with
  | illegal | rejected | cleared => exact recordsFault_of_ne hf
  | aborted hbusy => exact recordsFault_raise (code := .aborted) hbusy
  | started | reset => exact recordsFault_of_ne fun h => nomatch h
  | kept h =>
    obtain ⟨hfsm, -⟩ := h
    exact recordsFault_of_ne (hfsm ▸ hf)

theorem execHdrNode_fault (hf : s.fsm = .hdrBit) : Yields (RecordsFault s) (execHdrNode s) :=
  yields_execHdrNode (recordsFault_raise (by rw [hf]; rfl)) fun _ _ _ _ =>
    recordsFault_of_ne (by simp [hf])

theorem symbolBit_fault (b : Bool) (hf : s.fsm = .hdrSym) : Yields (RecordsFault s) (symbolBit b s) := by
  refine yields_symbolBit ?more (yields_completeLeaf ?bad ?full fun mem rt st _ =>
    yields_closeLeaf ?stillOpen ?eos ?degenerate ?sep)
  case more => exact recordsFault_of_ne (by simp [withFieldBit, hf])
  case bad => exact recordsFault_raise (s := withFieldBit b s) (by rw [withFieldBit, hf]; rfl)
  case full => exact recordsFault_raise (s := withFieldBit b s) (by rw [withFieldBit, hf]; rfl)
  case stillOpen | sep => exact recordsFault_of_ne fun h => nomatch h
  case eos => exact fun _ _ _ _ _ _ => recordsFault_of_ne fun h => nomatch h
  case degenerate => exact recordsFault_degenerate (s := withFieldBit b s) hf mem _ rt st _

/-- The walk itself raises no fault (`42_tree_walker.md` R86). -/
theorem descend_fault (right : Bool) (hf : s.fsm = .walk) : Yields (RecordsFault s) (descend right s) := by
  refine yields_withIndex fun _ _ => yields_withNode fun _ _ => yields_withIndex fun d _ =>
    yields_arriveAt (recordsFault_of_ne (by simp [hf])) fun sym => recordsFault_of_ne ?_
  rw [leafReached]
  split
  · exact fun h => nomatch h
  · exact fun h => absurd ((putByte_fsm (symbolByte sym) s).symm.trans h) (by simp [hf])

theorem bitToken_fault {phase : BitPhase} (b : Bool) (hf : s.fsm = phaseFsm phase) :
    Yields (RecordsFault s) (exec (decodeBit phase b) s) := by
  cases phase with
  | hdrBit => cases b with
    | false => exact execHdrNode_fault hf
    | true => exact (yields_next ..).mpr (recordsFault_of_ne fun h => nomatch h)
  | hdrSym => exact symbolBit_fault b hf
  | walk => cases b with
    | false => exact descend_fault false hf
    | true => exact descend_fault true hf

theorem bitStep_fault {phase : BitPhase} (hf : s.fsm = phaseFsm phase) :
    Yields (RecordsFault s) (bitStep phase s) :=
  yields_bitStep (hold := recordsFault_of_ne (by rw [hf]; cases phase <;> decide))
    (ended := recordsFault_raise (by rw [hf]; cases phase <;> rfl)) fun b _ _ _ _ => bitToken_fault b hf

theorem sepStep_fault (hf : s.fsm = .sep) : Yields (RecordsFault s) (sepStep s) :=
  yields_sepStep (hold := recordsFault_of_ne (by simp [hf]))
    (ended := recordsFault_raise (s := { s with rdRem := 0 }) (by rw [hf]; rfl)) fun _ _ _ =>
      (yields_next ..).mpr (recordsFault_of_ne fun h => nomatch h)

/-- Settles O33, by the command or the decode state of the step. -/
theorem faultEntry : Obligations.FaultEntry := by
  refine fun s t ht hf => ?_
  suffices h : Yields (RecordsFault s) (blockStep s) from h t ht
  exact yields_blockStep (commandStep_fault hf) (idle := recordsFault_of_ne hf)
    (hdrBit := bitStep_fault (phase := .hdrBit)) (hdrSym := bitStep_fault (phase := .hdrSym)) (sep := sepStep_fault)
    (walk := bitStep_fault (phase := .walk))

/-! ### Leaving FAULT -/

/-- From FAULT: the record is kept in FAULT, or cleared by DEC_START on the way to HDR_BIT or by a reset to IDLE. -/
def FaultKeptOrCleared (s t : State) : Prop :=
  (t.fsm = .fault ∧ t.fcode = s.fcode ∧ t.fstate = s.fstate) ∨
  (t.fcode = .none ∧ t.fstate = .idle ∧
    ((t.fsm = .hdrBit ∧ runsCommand .decStart s) ∨
      (t.fsm = .idle ∧ (runsCommand .softReset s ∨ resetTurn s = true))))

/-- The block's turn in FAULT: no FSM step, and of the commands the two that leave FAULT. -/
theorem blockStep_from_fault (hf : s.fsm = .fault) (hturn : blockTurn s = true) (l : List Move) :
    Yields (FaultKeptOrCleared s) (blockStep { s with sched := l }) := by
  have hfree : busy s = false := by rw [busy, hf]; rfl
  obtain hpend | hempty := Bool.eq_false_or_eq_true s.cmdPend
  · rw [blockStep_command (s := { s with sched := l }) hpend]
    refine (commandStep_status { s with sched := l }).mono fun t h => ?_
    cases h with
    | illegal | cleared => exact .inl ⟨hf, rfl, rfl⟩
    | rejected _ _ hbusy | aborted hbusy => exact absurd hbusy (Bool.eq_false_iff.mp hfree)
    | started hd => exact .inr ⟨rfl, rfl, .inl ⟨rfl, hturn, hpend, hd⟩⟩
    | reset hd => exact .inr ⟨rfl, rfl, .inr ⟨rfl, .inl ⟨hturn, hpend, hd⟩⟩⟩
    | kept h =>
      obtain ⟨hfsm, hcode, hstate, -⟩ := h
      exact .inl ⟨hfsm.trans hf, hcode, hstate⟩
  · rw [blockStep_terminal (s := { s with sched := l }) (.inr (.inr hf)) hempty]
    exact (yields_next ..).mpr (.inl ⟨hf, rfl, rfl⟩)

/-- Settles O35, by whose turn the step is. -/
theorem leavingFault : Obligations.LeavingFault := by
  refine fun s t hf ht => ?_
  suffices h : Yields (FaultKeptOrCleared s) (step s) from h t ht
  exact yields_step_of_turn (block := blockStep_from_fault hf) (sched := fun _ _ h => h)
    (rst := fun hreset _ => .inr ⟨rfl, rfl, .inr ⟨rfl, .inr hreset⟩⟩)
    (host := fun _ _ _ _ _ _ _ _ _ => .inl ⟨hf, rfl, rfl⟩)

end Sys2Proof.Machine
end

section
/-! SUPPORT. The machine's step with a host's CMD write told apart from the other host moves (`43_control.md` R94), and
the causes of the error flags over every step (`60_exceptions.md` R109). -/

namespace Sys2Proof.Machine

open Sys2Proof

variable {P : State → Prop} {s t : State}

/-! ### The host's moves -/

/-- A host move that is refused, or changes the state at once. -/
theorem yields_unless_refused {c : Prop} [Decidable c] {r : Refusal} (h : P t) :
    Yields P (if c then .refused r else .next t) := by
  split
  · exact yields_refused P r
  · exact (yields_next ..).mpr h

/-- A register access writes CMD, or only the host's own record (`10_state.md` R37). -/
theorem accessReg_cases (r : Reg) (d : Option Word) (s : State) :
    (∃ w, r = .cmd ∧ d = some w ∧ accessReg r d s = hostWriteCmd w s) ∨
      ∃ l, accessReg r d s = { s with seen := l } := by
  cases d with
  | none => exact .inr ⟨_, rfl⟩
  | some w =>
    cases r with
    | cmd => exact .inl ⟨w, rfl, rfl, rfl⟩
    | status | rdata | outCount | leafCount | nodeCount | iostat | config => exact .inr ⟨s.seen, rfl⟩

/-- `yields_step_of_turn` with CMD writes apart: every other host move writes the streams and the host's own record
only. -/
theorem yields_step_of_write (block : blockTurn s = true → ∀ l, Yields P (blockStep { s with sched := l }))
    (sched : ∀ t l, P t → P { t with sched := l })
    (rst : resetTurn s = true → ∀ l, P (resetBlock { s with sched := l }))
    (write : cmdWriteTurn s → ∀ w l, P (hostWriteCmd w { s with sched := l }))
    (host : ∀ h q c k l, P { s with sched := h, srcQ := q, srcClosed := c, snk := k, seen := l }) :
    Yields P (step s) := by
  have access (r d rest) (hwrite : ∀ w, r = .cmd → d = some w → cmdWriteTurn s) :
      Yields P (.next (accessReg r d { s with sched := rest })) := by
    rw [yields_next]
    obtain ⟨w, hr, hd, ha⟩ | ⟨l, ha⟩ := accessReg_cases r d { s with sched := rest } <;> rw [ha]
    · exact write (hwrite w hr hd) w rest
    · exact host rest s.srcQ s.srcClosed s.snk l
  unfold step machineStep
  split
  · rename_i hs
    exact block (by rw [blockTurn, hs]) s.sched
  · rename_i m rest hs
    cases m with
    | block => exact block (by rw [blockTurn, hs]) rest
    | rst => exact (yields_next ..).mpr (rst (by simp [resetTurn, hs]) rest)
    | readReg r => exact access r none rest fun _ _ h => nomatch h
    | writeReg r w => exact access r (some w) rest fun _ hr _ => .inl ⟨w, rest, by rw [hs, hr]⟩
    | bus a =>
      simp only [moveStep]
      split
      · rename_i r htarget
        exact access r a.data rest fun w hr hd => .inr ⟨a, w, rest, hs, by rw [htarget, hr], hd⟩
      · exact yields_refused P _
    | push bs => exact yields_unless_refused (host rest (s.srcQ ++ bs) s.srcClosed s.snk s.seen)
    | close => exact (yields_next ..).mpr (host rest s.srcQ true s.snk s.seen)
    | newSource bs closed => exact yields_unless_refused (host rest bs closed s.snk s.seen)
    | readSink => exact (yields_next ..).mpr (host rest s.srcQ s.srcClosed s.snk _)
    | clearSink => exact yields_unless_refused (host rest s.srcQ s.srcClosed [] s.seen)
    | waitCmd | waitIdle =>
      simp only [moveStep]
      split
      · rename_i hwait
        exact yields_pollStep (block (by rw [blockTurn, hs]; exact hwait) rest) sched
      · exact (yields_next ..).mpr (host rest s.srcQ s.srcClosed s.snk s.seen)

/-! ### The causes of the error flags -/

/-- A flag went from 1 to 0. -/
def FlagCleared (s t : State) : Prop :=
  (s.errIllegal = true ∧ t.errIllegal = false) ∨ (s.errBusy = true ∧ t.errBusy = false) ∨
    (s.errOverrun = true ∧ t.errOverrun = false)

/-- A flag that is 1 was 1 before or was set in its case, and a flag is cleared by CLR_ERR and the resets only. -/
def FlagsCaused (s t : State) : Prop :=
  (t.errIllegal = true → s.errIllegal = true ∨
    (blockTurn s = true ∧ s.cmdPend = true ∧ ∃ e, decodeCommand s.cmdWord = .error e)) ∧
  (t.errBusy = true → s.errBusy = true ∨ (busy s = true ∧ ∃ i, busyRejected i = true ∧ runsCommand i s)) ∧
  (t.errOverrun = true → s.errOverrun = true ∨ (s.cmdPend = true ∧ cmdWriteTurn s)) ∧
  (FlagCleared s t → runsCommand .clrErr s ∨ runsCommand .softReset s ∨ resetTurn s = true)

theorem ErrorsKept.flagsCaused (h : ErrorsKept s t) : FlagsCaused s t := by
  obtain ⟨hillegal, hbusy, hoverrun⟩ := h
  refine ⟨fun h => .inl (hillegal ▸ h), fun h => .inl (hbusy ▸ h), fun h => .inl (hoverrun ▸ h), fun h => ?_⟩
  simp [FlagCleared, hillegal, hbusy, hoverrun] at h

/-- All three flags are 0, for one of the causes that clear them. -/
theorem flagsCaused_of_cleared (hillegal : t.errIllegal = false) (hbusy : t.errBusy = false)
    (hoverrun : t.errOverrun = false)
    (hcause : runsCommand .clrErr s ∨ runsCommand .softReset s ∨ resetTurn s = true) : FlagsCaused s t := by
  simp [FlagsCaused, hillegal, hbusy, hoverrun, hcause]

theorem CommandStatus.flagsCaused {l : List Move} (h : CommandStatus { s with sched := l } t)
    (hturn : blockTurn s = true) (hpend : s.cmdPend = true) : FlagsCaused s t := by
  cases h with
  | illegal hd =>
    exact ⟨fun _ => .inr ⟨hturn, hpend, hd⟩, .inl, .inl, fun h => by simp [FlagCleared] at h⟩
  | rejected hd hi hbusy =>
    exact ⟨.inl, fun _ => .inr ⟨hbusy, _, hi, hturn, hpend, hd⟩, .inl, fun h => by simp [FlagCleared] at h⟩
  | aborted | started => exact ErrorsKept.flagsCaused ⟨rfl, rfl, rfl⟩
  | cleared hd => exact flagsCaused_of_cleared rfl rfl rfl (.inl ⟨hturn, hpend, hd⟩)
  | reset hd => exact flagsCaused_of_cleared rfl rfl rfl (.inr (.inl ⟨hturn, hpend, hd⟩))
  | kept h =>
    obtain ⟨-, -, -, herrors⟩ := h
    exact ErrorsKept.flagsCaused herrors

/-- A CMD write overruns a full latch, and otherwise sets no flag (`43_control.md` R94). -/
theorem hostWriteCmd_flagsCaused (hwrite : cmdWriteTurn s) (w : Word) (l : List Move) :
    FlagsCaused s (hostWriteCmd w { s with sched := l }) := by
  obtain hpend | hempty := Bool.eq_false_or_eq_true s.cmdPend
  · rw [hostWriteCmd_full (s := { s with sched := l }) w hpend]
    exact ⟨.inl, .inl, fun _ => .inr ⟨hpend, hwrite⟩, fun h => by simp [FlagCleared] at h⟩
  · rw [hostWriteCmd_empty (s := { s with sched := l }) w hempty]
    exact ErrorsKept.flagsCaused ⟨rfl, rfl, rfl⟩

theorem step_flagsCaused (s : State) : Yields (FlagsCaused s) (step s) := by
  refine yields_step_of_write ?block (sched := fun _ _ h => h) (rst := fun hreset _ => ?rst)
    (write := hostWriteCmd_flagsCaused) (host := fun _ _ _ _ _ => ErrorsKept.flagsCaused ⟨rfl, rfl, rfl⟩)
  case block =>
    refine fun hturn l => (blockStep_errors { s with sched := l }).mono fun t h => ?_
    obtain hkept | ⟨hpend, hstatus⟩ := h
    · exact ErrorsKept.flagsCaused hkept
    · exact hstatus.flagsCaused hturn hpend
  case rst => exact flagsCaused_of_cleared rfl rfl rfl (.inr (.inr hreset))

/-- Settles O37: the two rejections of a latched word, the overrun, and the causes over every step. -/
theorem commandErrors : Obligations.CommandErrors := by
  refine ⟨fun s r hview hpend => ?rejections, fun s w rest hsched => (hostWriteCommand s w rest hsched).1,
    step_flagsCaused⟩
  case rejections =>
    obtain ⟨hstep, rest, rfl⟩ := step_of_blockView hview
    rw [hstep]
    refine ⟨fun e hd => ?illegal, fun i hd hi hbusy => ?rejected⟩
    case illegal => exact (blockStep_command (s := { s with sched := rest }) hpend).trans (commandStep_of_error ⟨e, hd⟩)
    case rejected => exact (blockStep_of_ok (s := { s with sched := rest }) hpend hd).trans (exec_of_busy hi hbusy)

end Sys2Proof.Machine
end

section
/-! SUPPORT. A decode on a closed source as a descent on the unread bits (`70_reset_and_hazards.md` R131, R132): every
step reads a bit or a byte, or ends the decode. -/

namespace Sys2Proof.Machine

open Sys2Proof

variable {s t : State}

/-! ### The tokens -/

/-- What a stream token leaves alone: the reader, the source, and that the block is not in IDLE. -/
def StaysInDecode (s t : State) : Prop := t.fsm ≠ .idle ∧ t.srcQ = s.srcQ ∧ t.rdRem = s.rdRem

theorem execHdrNode_staysInDecode (hf : s.fsm ≠ .idle) : Yields (StaysInDecode s) (execHdrNode s) :=
  yields_execHdrNode (full := ⟨nofun, rfl, rfl⟩) fun _ _ _ _ => ⟨hf, rfl, rfl⟩

theorem symbolBit_staysInDecode (b : Bool) (hf : s.fsm ≠ .idle) : Yields (StaysInDecode s) (symbolBit b s) :=
  yields_symbolBit (more := ⟨hf, rfl, rfl⟩) <| yields_completeLeaf (bad := ⟨nofun, rfl, rfl⟩)
    (full := ⟨nofun, rfl, rfl⟩) fun _ _ _ _ => yields_closeLeaf (stillOpen := ⟨nofun, rfl, rfl⟩)
      (eos := fun _ _ _ _ _ _ => ⟨nofun, rfl, rfl⟩) (degenerate := ⟨nofun, rfl, rfl⟩) (sep := ⟨nofun, rfl, rfl⟩)

theorem leafReached_staysInDecode (sym : Sym) (d : Nat) (hf : s.fsm ≠ .idle) :
    StaysInDecode s (leafReached sym d s) := by
  rw [leafReached]
  split
  · exact ⟨nofun, rfl, rfl⟩
  · rw [emitLeaf, putByte_eq]
    exact ⟨hf, rfl, rfl⟩

theorem descend_staysInDecode (right : Bool) (hf : s.fsm ≠ .idle) : Yields (StaysInDecode s) (descend right s) :=
  yields_withIndex fun _ _ => yields_withNode fun _ _ => yields_withIndex fun d _ =>
    yields_arriveAt (internal := ⟨hf, rfl, rfl⟩) fun sym => leafReached_staysInDecode sym d hf

theorem bitToken_staysInDecode (phase : BitPhase) (b : Bool) (hf : s.fsm ≠ .idle) :
    Yields (StaysInDecode s) (exec (decodeBit phase b) s) := by
  cases phase with
  | hdrBit => cases b with
    | false => exact execHdrNode_staysInDecode hf
    | true => exact (yields_next ..).mpr ⟨nofun, rfl, rfl⟩
  | hdrSym => exact symbolBit_staysInDecode b hf
  | walk => cases b with
    | false => exact descend_staysInDecode false hf
    | true => exact descend_staysInDecode true hf

/-! ### The step -/

/-- The unread bits of the partial byte and of the source, counted. -/
def bitsLeft (s : State) : Nat := 8 * s.srcQ.length + s.rdRem.val

/-- The decode ended, or goes on with fewer unread bits. -/
def EndsOrReadsOn (s t : State) : Prop :=
  (t.fsm = .done ∨ t.fsm = .fault) ∨ (busy t = true ∧ bitsLeft t < bitsLeft s)

theorem StaysInDecode.endsOrReadsOn {u : State} (h : StaysInDecode u t) (hread : bitsLeft u < bitsLeft s) :
    EndsOrReadsOn s t := by
  obtain ⟨hidle, hsrc, hrem⟩ := h
  obtain hbusy | hfree := Bool.eq_false_or_eq_true (busy t)
  · exact .inr ⟨hbusy, by rwa [bitsLeft, hsrc, hrem]⟩
  · exact .inl ((fsm_of_free hfree).resolve_left hidle)

theorem bitStep_endsOrReadsOn {phase : BitPhase} (hf : s.fsm = phaseFsm phase) (hclosed : s.srcClosed = true) :
    Yields (EndsOrReadsOn s) (bitStep phase s) := by
  have hidle : s.fsm ≠ .idle := by rw [hf]; cases phase <;> exact nofun
  obtain ⟨-, -, hopen, -⟩ | ⟨-, -, -, hread⟩ | ⟨b, v, r, q, hread, hleft⟩ := readBit_cases s
  · exact absurd hopen (by simp [hclosed])
  · rw [bitStep_end hf hread]
    exact (yields_next ..).mpr (.inl (.inr rfl))
  · rw [bitStep_got hread]
    exact (bitToken_staysInDecode (s := { s with rdByte := v, rdRem := r, srcQ := q }) phase b hidle).mono
      fun _ h => h.endsOrReadsOn (Nat.lt_of_succ_le hleft.le)

theorem sepStep_endsOrReadsOn (hclosed : s.srcClosed = true) : Yields (EndsOrReadsOn s) (sepStep s) := by
  obtain ⟨-, hopen, -⟩ | ⟨-, -, hread⟩ | ⟨v, q, hq, hread⟩ := getByte_cases s
  · exact absurd hopen (by simp [hclosed])
  · rw [sepStep, hread]
    exact (yields_next ..).mpr (.inl (.inr rfl))
  · rw [sepStep, hread]
    refine (yields_next ..).mpr (.inr ⟨rfl, ?_⟩)
    simp only [bitsLeft, hq, List.length_cons, Fin.val_zero]
    omega

/-- A decode that the host leaves alone, on a closed source, in a state that meets the invariant. -/
def ClosedDecode (s : State) : Prop := Inv s ∧ Undisturbed s ∧ s.srcClosed = true

theorem closedDecode_step (h : ClosedDecode s) : Yields ClosedDecode (step s) := by
  obtain ⟨hinv, hund, hclosed⟩ := h
  refine fun t ht => ⟨inv_step hinv t ht, undisturbed_step s hund t ht, ?_⟩
  rw [hund.step_eq_blockStep] at ht
  obtain ⟨⟨-, hsame, -⟩, -⟩ := blockStep_effect s t ht
  exact hsame.trans hclosed

theorem step_endsOrReadsOn (h : ClosedDecode s) (hbusy : busy s = true) : Yields (EndsOrReadsOn s) (step s) := by
  obtain ⟨-, hund, hclosed⟩ := h
  rw [hund.step_eq]
  cases hf : s.fsm with
  | hdrBit => exact fsmStep_bit .hdrBit hf ▸ bitStep_endsOrReadsOn hf hclosed
  | hdrSym => exact fsmStep_bit .hdrSym hf ▸ bitStep_endsOrReadsOn hf hclosed
  | walk => exact fsmStep_bit .walk hf ▸ bitStep_endsOrReadsOn hf hclosed
  | sep =>
    rw [fsmStep, hf]
    exact sepStep_endsOrReadsOn hclosed
  | idle | done | fault => rw [busy, hf] at hbusy; exact nomatch hbusy

/-- The descent: each step that does not end the decode takes an unread bit, and with none left the step ends it. -/
theorem closedDecode_ends (h : ClosedDecode s) (hbusy : busy s = true) :
    ∃ k t, k ≤ bitsLeft s + 1 ∧ Sys2Proof.core.run k s = .next t ∧ (t.fsm = .done ∨ t.fsm = .fault) := by
  induction hn : bitsLeft s using Nat.strong_induction_on generalizing s with
  | _ n ih =>
    have ⟨hinv, hund, _⟩ := h
    obtain ⟨t, ht⟩ : Answers (step s) := hund.step_eq_blockStep ▸ answers_blockStep hinv
    obtain hend | ⟨hbusy', hless⟩ := step_endsOrReadsOn h hbusy t ht
    · exact ⟨1, t, Nat.le_add_left .., (run_one s).trans ht, hend⟩
    · obtain ⟨k, u, hk, hrun, hend⟩ := ih _ (hn ▸ hless) (closedDecode_step h t ht) hbusy' rfl
      exact ⟨k + 1, u, by omega, (run_succ ht k).trans hrun, hend⟩

/-- Settles O56, by induction on the unread bits. -/
theorem stepBound : Obligations.StepBound :=
  fun _ hinv hsched hempty hclosed hbusy => closedDecode_ends ⟨hinv, ⟨hsched, hempty⟩, hclosed⟩ hbusy

end Sys2Proof.Machine
end

section
/-! SUPPORT. RST and SOFT_RESET (`70_reset_and_hazards.md` R118, R119), and what the registers read afterwards
(R120). -/

namespace Sys2Proof.Machine

open Sys2Proof

variable {s : State} {rest : List Move}

theorem step_rst (hsched : s.sched = .rst :: rest) : step s = .next (resetBlock { s with sched := rest }) := by
  rw [step, machineStep, hsched]
  rfl

/-- A latched SOFT_RESET is the same reset (`43_control.md` R100). -/
theorem blockStep_softReset (hpend : s.cmdPend = true) (hword : s.cmdWord = 0x00003F00) :
    blockStep s = .next (resetBlock s) :=
  blockStep_of_ok (i := .softReset) hpend (by rw [hword]; rfl)

/-- Settles O49: the reset writes the block's elements only, and keeps node memory as it was. -/
theorem rstStep : Obligations.RstStep := by
  refine fun s => ⟨s.nodes, fun rest hsched => step_rst hsched, fun r hview hpend hword => ?_⟩
  obtain ⟨hstep, rest, rfl⟩ := step_of_blockView hview
  rw [hstep]
  exact blockStep_softReset (s := { s with sched := rest }) hpend hword

/-- After a reset every register but CONFIG reads as in the state the model starts from, whatever the state before. -/
theorem readReg_resetBlock (s : State) {r : Reg} (h : r ≠ .config) :
    readReg (resetBlock s) r = readReg State.reset r := by
  cases r with
  | config => exact absurd rfl h
  | cmd | status | rdata | outCount | leafCount | nodeCount | iostat => rfl

theorem readReg_reset {r : Reg} (h : r ≠ .config) : readReg State.reset r = 0 := by
  cases r with
  | config => exact absurd rfl h
  | cmd | status | rdata | outCount | leafCount | nodeCount | iostat => decide

/-- Settles O50, register by register. -/
theorem stateAfterReset : Obligations.StateAfterReset := by
  refine ⟨fun s t rest hsched ht => ?_, fun s hcfg => ?_, rfl, fun r => readReg_reset⟩
  · obtain rfl := Host.Outcome.next.inj ((step_rst hsched).symm.trans ht)
    have reads0 (r : Reg) (hr : r ≠ .config) :=
      (readReg_resetBlock { s with sched := rest } hr).trans (readReg_reset hr)
    exact ⟨rfl, reads0 .cmd nofun, reads0 .status nofun, reads0 .rdata nofun, reads0 .outCount nofun,
      reads0 .leafCount nofun, reads0 .nodeCount nofun, reads0 .iostat nofun, rfl⟩
  · rw [readReg, hcfg]
    decide

end Sys2Proof.Machine
end

section
/-! SUPPORT. The host's moves on its streams and its polls (`70_reset_and_hazards.md` R130, `20_memory.md` R40,
assumption log 8 and 9). -/

namespace Sys2Proof.Machine

open Sys2Proof

variable {s t : State} {rest : List Move}

/-! ### The next move -/

theorem step_of_move {m : Move} (hsched : s.sched = m :: rest) : step s = moveStep m { s with sched := rest } := by
  rw [step, machineStep, hsched]

/-- An access outside the window reaches no register (`20_memory.md` R40). -/
theorem busTarget_outside {base : Nat} {a : BusAccess} (h : a.addr < base ∨ base + 0x20 ≤ a.addr) :
    busTarget base a = .error .outsideWindow :=
  if_neg (by omega)

theorem pollStep_of_blockStep {m : Move} (h : blockStep s = .next t) :
    pollStep m s = .next { t with sched := m :: t.sched } := by
  rw [pollStep, h]

/-- The block's step leaves the schedule alone, so a poll that waits is the next move again. -/
theorem pollStep_stays {m : Move} (h : blockStep { s with sched := rest } = .next t) :
    pollStep m { s with sched := rest } = .next { t with sched := m :: rest } := by
  obtain ⟨⟨-, -, hsched, -⟩, -⟩ := blockStep_effect _ t h
  rw [pollStep_of_blockStep h, hsched]

/-! ### The streams -/

theorem step_push {bs : List Byte} (hsched : s.sched = .push bs :: rest) (hopen : s.srcClosed = false) :
    step s = .next { s with sched := rest, srcQ := s.srcQ ++ bs } := by
  rw [step_of_move hsched]
  exact if_neg (Bool.eq_false_iff.mp hopen)

theorem step_push_refused {bs : List Byte} (hsched : s.sched = .push bs :: rest) (hclosed : s.srcClosed = true) :
    step s = .refused .pushAfterClose := by
  rw [step_of_move hsched]
  exact if_pos hclosed

theorem step_close (hsched : s.sched = .close :: rest) : step s = .next { s with sched := rest, srcClosed := true } :=
  step_of_move hsched

/-- An RD command is latched (`70_reset_and_hazards.md` R130, assumption log 17). -/
theorem readLatched_iff (s : State) : readLatched s = true ↔
    s.cmdPend = true ∧ (decodeCommand s.cmdWord = .ok .rdBit ∨ decodeCommand s.cmdWord = .ok .rdByte) := by
  unfold readLatched
  cases s.cmdPend with
  | false => simp
  | true => split <;> simp_all

theorem writeLatched_iff (s : State) : writeLatched s = true ↔
    s.cmdPend = true ∧ ((∃ b, decodeCommand s.cmdWord = .ok (.wrBit b)) ∨
      (∃ v, decodeCommand s.cmdWord = .ok (.wrByte v)) ∨ decodeCommand s.cmdWord = .ok .wrFlush) := by
  unfold writeLatched
  cases s.cmdPend with
  | false => simp
  | true => split <;> simp_all

/-- Settles O46, move by move. -/
theorem hostMoves : Obligations.HostMoves := by
  refine fun s rest => ⟨fun a hsched hout => ?bus, fun r hsched => step_of_move hsched,
    fun hsched => ⟨fun hempty => ?cmdDone, fun t hpend ht => ?cmdWaits⟩,
    fun hsched => ⟨fun hempty hfree => ?idleDone, fun t hwait ht => ?idleWaits⟩,
    fun bs hsched => ⟨step_push hsched, step_push_refused hsched⟩, step_close,
    fun bs c hsched => ⟨fun huse => ?sourceInUse, fun hfree hlatch => ?newSource⟩, step_of_move,
    fun hsched => ⟨fun huse => ?sinkInUse, fun hfree hlatch => ?clearSink⟩⟩ <;> rw [step_of_move hsched]
  case bus => rw [moveStep, busTarget_outside hout]
  case cmdDone => exact if_neg (Bool.eq_false_iff.mp hempty)
  case cmdWaits => exact (if_pos hpend).trans (pollStep_stays ht)
  case idleDone => exact if_neg (Bool.eq_false_iff.mp (Bool.or_eq_false_iff.mpr ⟨hempty, hfree⟩))
  case idleWaits => exact (if_pos (by rw [Bool.or_eq_true]; exact hwait)).trans (pollStep_stays ht)
  case sourceInUse => exact if_pos (by rw [Bool.or_eq_true, readLatched_iff]; exact huse)
  case newSource =>
    refine if_neg ?_
    rw [Bool.or_eq_true, readLatched_iff]
    rintro (hbusy | ⟨hpend, hread⟩)
    · exact Bool.eq_false_iff.mp hfree hbusy
    · obtain ⟨hbit, hbyte⟩ := hlatch hpend
      exact hread.elim hbit hbyte
  case sinkInUse => exact if_pos (by rw [Bool.or_eq_true, writeLatched_iff]; exact huse)
  case clearSink =>
    refine if_neg ?_
    rw [Bool.or_eq_true, writeLatched_iff]
    rintro (hbusy | ⟨hpend, hwrite⟩)
    · exact Bool.eq_false_iff.mp hfree hbusy
    · obtain ⟨hbit, hbyte, hflush⟩ := hlatch hpend
      obtain ⟨b, hd⟩ | ⟨v, hd⟩ | hd := hwrite
      · exact hbit b hd
      · exact hbyte v hd
      · exact hflush hd

end Sys2Proof.Machine
end

section
/-! SUPPORT. The command path of a decode and of a holding RD (`70_reset_and_hazards.md` R124, R126). -/

namespace Sys2Proof.Machine

open Sys2Proof

variable {s : State}

/-- Settles O19: the six commands are the ones the BUSY test rejects. -/
theorem decodeExclusivity : Obligations.DecodeExclusivity :=
  fun _ i hbusy hpend hd hi => (blockStep_of_ok hpend hd).trans (exec_of_busy ((busyRejected_iff i).mpr hi) hbusy)

/-! ### The holding RD -/

theorem heldRead_blockStep (h : heldRead s) : blockStep s = .next s := by
  obtain ⟨hpend, hfree, hq, hopen, ⟨hd, hrem⟩ | hd⟩ := h
  · exact (blockStep_of_ok hpend hd).trans (execRdBit_hold hfree (readBit_hold s hrem hq hopen))
  · exact (blockStep_of_ok hpend hd).trans (execRdByte_hold hfree (by rw [getByte, srcFetch_hold s hq hopen]))

theorem heldRead_yields_blockStep (h : heldRead s) : Yields heldRead (blockStep s) := by
  rw [heldRead_blockStep h]
  exact (yields_next ..).mpr h

theorem heldRead_readLatched (h : heldRead s) : readLatched s = true := by
  obtain ⟨hpend, -, -, -, hd⟩ := h
  exact (readLatched_iff s).mpr ⟨hpend, hd.imp_left And.left⟩

/-- With a byte in the source, or with the source closed, a latched RD completes (`40_bitstream_io.md` R71, R72). -/
theorem blockStep_read_completes (hpend : s.cmdPend = true) (hfree : busy s = false)
    (hd : decodeCommand s.cmdWord = .ok .rdBit ∨ decodeCommand s.cmdWord = .ok .rdByte)
    (hready : s.srcQ = [] → s.srcClosed = true) :
    ∃ u, blockStep s = .next u ∧ u.cmdPend = false ∧ u.rvalid = true := by
  obtain hd | hd := hd <;> rw [blockStep_of_ok hpend hd]
  · obtain ⟨-, hq, hopen, -⟩ | ⟨-, -, -, hread⟩ | ⟨b, v, r, q, hread, -⟩ := readBit_cases s
    · exact absurd (hready hq) (by simp [hopen])
    · exact ⟨_, execRdBit_eof hfree hread, rfl, rfl⟩
    · exact ⟨_, execRdBit_got hfree hread, rfl, rfl⟩
  · obtain ⟨hq, hopen, -⟩ | ⟨-, -, hread⟩ | ⟨v, q, -, hread⟩ := getByte_cases s
    · exact absurd (hready hq) (by simp [hopen])
    · exact ⟨_, execRdByte_eof hfree hread, rfl, rfl⟩
    · exact ⟨_, execRdByte_got hfree hread, rfl, rfl⟩

/-- The three moves that release a holding RD. -/
def Releases (m : Move) : Prop := (∃ v q, m = .push (v :: q)) ∨ m = .close ∨ m = .rst

/-- A register access while an RD holds: a CMD write overruns, and the rest is the host's own record. -/
theorem heldRead_accessReg (h : heldRead s) (r : Reg) (d : Option Word) : heldRead (accessReg r d s) := by
  obtain ⟨w, -, -, ha⟩ | ⟨l, ha⟩ := accessReg_cases r d s <;> rw [ha]
  · have ⟨hpend, _⟩ := h
    rw [hostWriteCmd_full w hpend]
    exact h
  · exact h

/-- Every other move leaves it holding. -/
theorem heldRead_moveStep (h : heldRead s) (m : Move) : Yields (fun t => heldRead t ∨ Releases m) (moveStep m s) := by
  have held {o : Out} (ho : Yields heldRead o) : Yields (fun t => heldRead t ∨ Releases m) o := ho.mono fun _ => .inl
  cases m with
  | block => exact held (heldRead_yields_blockStep h)
  | rst => exact fun _ _ => .inr (.inr (.inr rfl))
  | close => exact fun _ _ => .inr (.inr (.inl rfl))
  | push bs =>
    cases bs with
    | cons v q => exact fun _ _ => .inr (.inl ⟨v, q, rfl⟩)
    | nil =>
      obtain ⟨hpend, hfree, hq, hopen, hd⟩ := h
      exact held (yields_unless_refused ⟨hpend, hfree, (List.append_nil _).trans hq, hopen, hd⟩)
  | newSource bs closed =>
    simp only [moveStep, heldRead_readLatched h, Bool.or_true, if_true]
    exact yields_refused _ _
  | readReg r => exact held ((yields_next ..).mpr (heldRead_accessReg h r none))
  | writeReg r w => exact held ((yields_next ..).mpr (heldRead_accessReg h r (some w)))
  | bus a =>
    simp only [moveStep]
    split
    · exact held ((yields_next ..).mpr (heldRead_accessReg h _ a.data))
    · exact yields_refused _ _
  | readSink => exact held ((yields_next ..).mpr h)
  | clearSink => exact held (yields_unless_refused h)
  | waitCmd | waitIdle =>
    simp only [moveStep]
    split
    · exact held (yields_pollStep (heldRead_yields_blockStep h) (sched := fun _ _ ht => ht))
    · exact held ((yields_next ..).mpr h)

theorem heldRead_step (h : heldRead s) :
    Yields (fun t => heldRead t ∨ ∃ m rest, s.sched = m :: rest ∧ Releases m) (step s) := by
  cases hsched : s.sched with
  | nil =>
    rw [step, machineStep, hsched, heldRead_blockStep h]
    exact (yields_next ..).mpr (.inl h)
  | cons m rest =>
    rw [step_of_move hsched]
    exact (heldRead_moveStep (s := { s with sched := rest }) h m).mono fun _ => .imp_right fun hm => ⟨m, rest, rfl, hm⟩

/-- After the push or the close the RD completes. -/
theorem heldRead_released (h : heldRead s) {t : State} (ht : step s = .next t)
    (hmove : (∃ v q rest, s.sched = .push (v :: q) :: rest) ∨ ∃ rest, s.sched = .close :: rest) :
    ∃ u, blockStep t = .next u ∧ u.cmdPend = false ∧ u.rvalid = true := by
  obtain ⟨hpend, hfree, hq, hopen, hd⟩ := h
  have hread := hd.imp_left And.left
  obtain ⟨v, q, rest, hsched⟩ | ⟨rest, hsched⟩ := hmove
  · obtain rfl := Host.Outcome.next.inj ((step_push hsched hopen).symm.trans ht)
    exact blockStep_read_completes hpend hfree hread fun hnil => by simp at hnil
  · obtain rfl := Host.Outcome.next.inj ((step_close hsched).symm.trans ht)
    exact blockStep_read_completes hpend hfree hread fun _ => rfl

theorem resetTurn_iff (s : State) : resetTurn s = true ↔ ∃ rest, s.sched = .rst :: rest := by
  rw [resetTurn, beq_iff_eq, List.head?_eq_some_iff]

/-- Settles O47: the held step changes nothing, and every move is one of the three releases or leaves it held. -/
theorem heldReadBlocksCommands : Obligations.HeldReadBlocksCommands := by
  refine fun s h => ⟨fun t ht => ?held, fun w rest hsched => ?overrun, fun t ht => ?moves,
    fun t ht => heldRead_released h ht, fun t ht hreset => ?rst⟩
  case held => exact (Host.Outcome.next.inj ((heldRead_blockStep h).symm.trans ht)).symm
  case overrun =>
    obtain ⟨hpend, -⟩ := h
    rw [step_writeCmd hsched, hostWriteCmd_full (s := { s with sched := rest }) w hpend]
  case moves =>
    refine (heldRead_step h t ht).imp_right ?_
    rintro ⟨m, rest, hsched, ⟨v, q, rfl⟩ | rfl | rfl⟩
    · exact .inl ⟨v, q, rest, hsched⟩
    · exact .inr (.inl ⟨rest, hsched⟩)
    · exact .inr (.inr ((resetTurn_iff s).mpr ⟨rest, hsched⟩))
  case rst =>
    obtain ⟨rest, hsched⟩ := (resetTurn_iff s).mp hreset
    obtain rfl := Host.Outcome.next.inj ((step_rst hsched).symm.trans ht)
    rfl

end Sys2Proof.Machine
end
